-- ==== Sys2Proof/Word.lean ====
section
/-! DEFINITION. Sys2Proof/Word.lean: the two word types of HBPU (rules R10, R8). -/

namespace Sys2Proof

/-- A byte is 8 bits (R10); one symbol of the alphabet, one command code, one buffer cell. -/
abbrev Byte := BitVec 8

/-- A value of `LEN_W` = 32 bits (R8): a length, a buffer cursor, a frequency counter. -/
abbrev Word := BitVec 32

end Sys2Proof
end

