-- ==== Sys2Proof/Machine/Types.lean ====
section
/-! DEFINITION. Sys2Proof/Machine/Types.lean: the data the state is made of: trees, codes, queue entries, error kinds,
the fields of `STATUS` and `HDR`, the working registers, and the host's moves. -/

namespace Sys2Proof.Machine

/-- A tree (R32): a leaf with its symbol, or an internal node with exactly two children and no symbol. -/
inductive Tree where
  | leaf (sym : Byte)
  | node (left right : Tree)
  deriving DecidableEq, Repr, Inhabited

/-- One open place of the deserializer's traversal stack (R23, R145): the root still to come, an internal node whose
left subtree is still to come, or one whose left subtree is `l` and whose right subtree is still to come. -/
inductive Frame where
  | root
  | left
  | right (l : Tree)
  deriving DecidableEq, Repr, Inhabited

/-- One entry of the code table (R31): `len` bits of `pat`, the first code bit being bit `len-1`; `len` = 0 is
"no code". -/
structure Code where
  len : BitVec 8
  pat : BitVec 255
  deriving DecidableEq, Repr, Inhabited

/-- One entry of the priority queue (R35); the frequency is a natural number. -/
structure QEntry where
  freq : Nat
  tree : Tree
  deriving DecidableEq, Repr, Inhabited

/-- A register file indexed by byte value (R31, R34). -/
abbrev Table (α : Type) := Vector α 256

/-- The eight error kinds (R231). -/
inductive ErrKind where
  | allocationFailure
  | emptyInput
  | malformedHeader
  | malformedTree
  | malformedStream
  | unsupportedTreeSize
  | illegalCommand
  | badSequence
  deriving DecidableEq, Repr

/-- The stored fields of `STATUS` (R27). `BUSY` is a view of `State.job`; `ERROR` and `ERRCODE` are views of `err`,
so `ERRCODE` is 0 exactly when `ERROR` is 0; the reserved bits are stored nowhere and read 0. -/
structure Status where
  done : Bool
  err : Option ErrKind
  freqV : Bool
  treeV : Bool
  treeBuilt : Bool
  codeV : Bool
  padV : Bool
  tszV : Bool
  deriving DecidableEq, Repr

/-- The two fields of `HDR` (R28); they cover all 16 bits. -/
structure Hdr where
  pad : BitVec 3
  tsize : BitVec 13
  deriving DecidableEq, Repr, Inhabited

/-- The working registers (R21, R22, R23). `DEPTH` is the length of `path`. -/
structure Work where
  /-- `ACC`, 8 bits: the packer's output byte in the making (R21). -/
  acc : Byte
  /-- `CNT`, 0 to 7: code bits already placed in `ACC` (R21). -/
  cnt : BitVec 3
  /-- `IPOS`, 32 bits: the packer's next input index (R21). -/
  ipos : Word
  /-- `OPOS`, 32 bits: the next output index (R21, R22). -/
  opos : Word
  /-- `CUR`: the walker's position in `TREE` (R22), held as the subtree that stands there. -/
  cur : Tree
  /-- `SPOS`, 32 bits: index in IBUF of the stream byte being consumed (R22). -/
  spos : Word
  /-- `BIDX`, 0 to 7: bits of that byte already consumed (R22). -/
  bidx : BitVec 3
  /-- `TPOS`, 0 to 8191: tree bytes read or written so far (R23). -/
  tpos : BitVec 13
  /-- `PATH`: the code generator's bits from the root, first branch first (R23). -/
  path : List Bool
  /-- The traversal stack (R23), innermost open place first. -/
  tstack : List Frame
  deriving DecidableEq, Repr, Inhabited

/-- What the engine is in the middle of. The atomic commands start and end at `idle`; the other values are the
positions inside HDEC, TDES and UNPK at which the engine reads a header word, a tree token or a code bit (R24, R90).
`whole` says that the operation in progress is DECOMP, so that the next unit follows (R211). -/
inductive Job where
  | idle
  | header (whole : Bool)
  | tree (whole : Bool)
  | stream (whole : Bool)
  deriving DecidableEq, Repr

/-- The open parameters of the machine (R8): the capacities of the two buffers in bytes. -/
structure Params where
  ibufCap : Word
  obufCap : Word
  deriving DecidableEq, Repr

/-- The five control and status registers (R25). -/
inductive Csr where
  | cmd
  | status
  | hdr
  | srcLen
  | dstLen
  deriving DecidableEq, Repr

/-- The moves of the host (R70), and the pseudo-operation `WAIT` of host scripts (R102). -/
inductive HostMove where
  | writeIbuf (i : Nat) (v : Byte)
  | writeObuf (j : Nat) (v : Byte)
  | writeCsr (r : Csr) (v : Word)
  | readCsr (r : Csr)
  | readObuf (j : Nat)
  | readIbuf (i : Nat)
  | reset
  | wait
  deriving DecidableEq, Repr

end Sys2Proof.Machine
end

