-- ==== Sys2Proof/Config.lean ====
section
/-! DEFINITION. Sys2Proof/Config.lean: the fixed parameters of HBPU (R7, R8) and the free values: constants with no
body that stand for what the spec leaves unspecified, so that no proof can see what they are. -/

namespace Sys2Proof.Config

open Sys2Proof.Machine

/-- `MARK_NODE` (R7, R140). -/
def markNode : Byte := 0x2A#8

/-- `MARK_ESC` (R7, R140). -/
def markEsc : Byte := 0x5C#8

/-- `TSIZE_MAX`, the largest tree size the header can hold; `NODE_CAP` has the same value (R7, R8). -/
def tsizeMax : Nat := 8191

/-- Free value, log entry 3, DEDUCED, unsafe for repeated reads: the content of IBUF at an index the host has not
written since reset `draw` (R39, R61). -/
opaque freeIbuf : Nat → Nat → Byte

/-- Free value, log entry 4, DESIGN CHOICE, safe: what a host read of an OBUF byte with no specified content returns
(R61). -/
opaque freeObuf : Nat → Nat → Byte

/-- Free value, log entry 5, DEDUCED, safe: `HDR` after an error, and its fields as read while their validity flag is
0 (R28, R236). -/
opaque freeHdr : Nat → Hdr

/-- Free value, log entry 6, DESIGN CHOICE, safe: the frequency table after an error, CLR or reset (R236, R212, R260).
-/
opaque freeFreq : Nat → Table Word

/-- Free value, log entry 6, DESIGN CHOICE, safe: the code table after an error, CLR or reset (R236, R212, R260). -/
opaque freeCode : Nat → Table Code

/-- Free value, log entry 6, DESIGN CHOICE, safe: the tree store after an error (R236). -/
opaque freeTree : Nat → Option Tree

/-- Free value, log entry 6, DESIGN CHOICE, safe: the queue after an error (R236). -/
opaque freeQueue : Nat → List QEntry

/-- Free value, log entry 6, DESIGN CHOICE, safe: the working registers after an error, CLR or reset (R236, R39). -/
opaque freeWork : Nat → Work

/-- Free value, log entry 7, DESIGN CHOICE, safe: what a host read of anything but `STATUS` returns while `BUSY` = 1
(R71, R262). -/
opaque freeRead : Nat → Word

end Sys2Proof.Config
end

