-- ==== Sys2Proof/Machine/Operands.lean ====
section
/-! DEFINITION. Sys2Proof/Machine/Operands.lean: the pure functions over trees, codes, headers and bit strings that the
operations are made of (R31, R94, R96, R123, R124, R142, R160, R175 to R178). -/

namespace Sys2Proof.Machine

/-- Entry `b` of a register file. -/
def Table.at {α : Type} (t : Table α) (b : Byte) : α := t[b.toNat]'(b.isLt)

/-- The register file with entry `b` replaced. -/
def Table.put {α : Type} (t : Table α) (b : Byte) (v : α) : Table α := t.set b.toNat v b.isLt

/-- The number a bit string stands for, its first bit the most significant (R31). -/
def bitsToNat (bits : List Bool) : Nat := bits.foldl (fun n b => 2 * n + b.toNat) 0

/-- The bit string of a code table entry: `pat[len-1]`, …, `pat[0]` (R31). -/
def Code.bits (c : Code) : List Bool :=
  (List.range c.len.toNat).map fun i => c.pat.getLsbD (c.len.toNat - 1 - i)

/-- The code table entry of a bit string (R31, R161). -/
def Code.ofBits (bits : List Bool) : Code :=
  { len := BitVec.ofNat 8 bits.length, pat := BitVec.ofNat 255 (bitsToNat bits) }

/-- "No code" (R31): `len` = 0. The stored `pat` is 0 as well; R31 fixes only its `len` bits and R161 clears only `len`, so
that is the model's choice (log entry 20, DESIGN CHOICE, unsafe for a claim about the `pat` of a byte with no code). -/
def Code.none : Code := { len := 0#8, pat := 0#255 }

/-- `isLeaf` (R12). -/
def Tree.isLeaf : Tree → Bool
  | .leaf _ => true
  | .node _ _ => false

/-- Whether a leaf's symbol needs the escape byte (R140). -/
def needsEscape (sym : Byte) : Bool := sym == Config.markNode || sym == Config.markEsc

/-- `Ser` (R142): preorder, a node marker for an internal node, the escape before a leaf symbol that needs it. -/
def Tree.ser : Tree → List Byte
  | .leaf sym => if needsEscape sym then [Config.markEsc, sym] else [sym]
  | .node l r => Config.markNode :: (l.ser ++ r.ser)

/-- `Paths` (R160): each leaf's symbol with the path from the root, left before right. -/
def Tree.paths : Tree → List Bool → List (Byte × List Bool)
  | .leaf sym, p => [(sym, p)]
  | .node l r, p => l.paths (p ++ [false]) ++ r.paths (p ++ [true])

/-- `Codes` (R160); a root that is a leaf has the code "0" (R162). -/
def Tree.codes : Tree → List (Byte × List Bool)
  | .leaf sym => [(sym, [false])]
  | .node l r => (Tree.node l r).paths []

/-- A complete subtree `t` fills the innermost open place (R145): the root is complete, or it becomes a left subtree, or
it completes its parent, which fills the next place. -/
def closeSubtree (t : Tree) : List Frame → Option Tree × List Frame
  | [] => (some t, [])
  | .root :: fs => (some t, fs)
  | .left :: fs => (none, .right t :: fs)
  | .right l :: fs => closeSubtree (.node l t) fs

/-- `PQ.INSERT` (R123): behind every entry whose frequency is at most its own. -/
def pqInsert (e : QEntry) : List QEntry → List QEntry
  | [] => [e]
  | x :: xs => if x.freq ≤ e.freq then x :: pqInsert e xs else e :: x :: xs

/-- `PQ.POP` (R124): the front entry and the rest, or none. -/
def pqPop : List QEntry → Option (QEntry × List QEntry)
  | [] => none
  | e :: q => some (e, q)

/-- BUILD's seeds (R125, R126): a leaf for every counter above 0, inserted in ascending byte value. -/
def seedQueue (freq : Table Word) : List QEntry :=
  freq.toList.zipIdx.foldl
    (fun q fb => if 0 < fb.1.toNat then pqInsert { freq := fb.1.toNat, tree := .leaf (BitVec.ofNat 8 fb.2) } q else q) []

/-- BUILD's loop (R126), at most `fuel` merges: pop a, pop b, insert their sum with a on the left. -/
def mergeQueue : Nat → List QEntry → List QEntry
  | 0, q => q
  | fuel + 1, q =>
    match pqPop q with
    | none => q
    | some (a, q₁) =>
      match pqPop q₁ with
      | none => q
      | some (b, q₂) =>
        mergeQueue fuel (pqInsert { freq := a.freq + b.freq, tree := .node a.tree b.tree } q₂)

/-- The queue BUILD ends with; each merge takes one entry away, so its length bounds the merges (R126, R266). -/
def builtQueue (freq : Table Word) : List QEntry :=
  let q := seedQueue freq
  mergeQueue q.length q

/-- CGEN's table (R161): every entry "no code", then each leaf's code. The `pat` of a byte with no code becomes 0, the
model's choice (log entry 20, DESIGN CHOICE, unsafe for a claim about that `pat`). -/
def codeTable (t : Tree) : Table Code :=
  t.codes.foldl (fun c sp => Table.put c sp.1 (Code.ofBits sp.2)) (Vector.replicate 256 Code.none)

/-- `total_encoded_bits` (R164). -/
def encodedBits (freq : Table Word) (code : Table Code) : Nat :=
  ((freq.toList.zip code.toList).map fun fc => fc.1.toNat * fc.2.len.toNat).sum

/-- `total_original_bits` (R164). -/
def originalBits (freq : Table Word) : Nat := (freq.toList.map fun f => f.toNat * 8).sum

/-- `Pad` (R165): the Euclidean remainder, 0 to 7. -/
def padOf (freq : Table Word) (code : Table Code) : BitVec 3 :=
  BitVec.ofNat 3 (((originalBits freq : Int) - (encodedBits freq code : Int)) % 8).toNat

/-- `HDR` as its 16-bit word (R28, R93). -/
def Hdr.word (h : Hdr) : BitVec 16 := h.pad ++ h.tsize

/-- The byte at the lower index of the big-endian header (R62, R94). -/
def Hdr.hiByte (h : Hdr) : Byte := h.word.extractLsb' 8 8

/-- The byte at the higher index of the big-endian header (R62, R94). -/
def Hdr.loByte (h : Hdr) : Byte := h.word.extractLsb' 0 8

/-- `HdrConsistent` (R178): the header is there, the tree bytes are there, an empty stream has no padding. -/
def hdrConsistent (pad tsize n : Nat) : Bool :=
  decide (2 ≤ n) && decide (2 + tsize ≤ n) && (decide (n ≠ 2 + tsize) || decide (pad = 0))

/-- The number of stream bits UNPK consumes (R195). -/
def streamBits (pad tsize n : Nat) : Nat :=
  let m := n - 2 - tsize
  if 1 ≤ m then 8 * m - pad else 0

/-- The bits of `STATUS.ERRCODE` (R231). -/
def ErrKind.code : ErrKind → BitVec 4
  | .allocationFailure => 1#4
  | .emptyInput => 2#4
  | .malformedHeader => 3#4
  | .malformedTree => 4#4
  | .malformedStream => 5#4
  | .unsupportedTreeSize => 6#4
  | .illegalCommand => 7#4
  | .badSequence => 8#4

/-- The CSR number (R25). -/
def Csr.number : Csr → Nat
  | .cmd => 0
  | .status => 1
  | .hdr => 2
  | .srcLen => 3
  | .dstLen => 4

end Sys2Proof.Machine
end

