-- ==== Sys2Proof/Machine/State.lean ====
section
/-! DEFINITION. Sys2Proof/Machine/State.lean: the state of one HBPU and of its host as plain data, the reasons a step
can stop, and the state after reset (R39, R260). -/

namespace Sys2Proof.Machine

/-- Why a step stops for good. -/
inductive Fault where
  /-- Raised by a host move on a buffer index at or above the buffer's capacity, which the spec says is not a move the
  host has (R70; log entry 9, DESIGN CHOICE). Safe: the machine stops where the hardware has no such move. -/
  | noSuchIndex (index : Nat)
  deriving DecidableEq, Repr

/-- Why an instruction is given no meaning. -/
inductive Refusal where
  /-- Raised by an arm of `exec` whose instruction has no meaning yet; no arm raises it. Safe. -/
  | notModelled (mnemonic : String)
  deriving DecidableEq, Repr

/-- The whole machine. The first group is what the spec gives HBPU; the second is the host outside it and the model's
own bookkeeping of what is unspecified. -/
structure State where
  /-- The capacities `IBUF_CAP` and `OBUF_CAP` (R8), constants of the machine that no step changes
  (log entry 1, DESIGN CHOICE, safe). -/
  params : Params
  /-- `STATUS` (R27); `BUSY` is a view of `job`. -/
  status : Status
  /-- `HDR` (R28). -/
  hdr : Hdr
  /-- `SRC_LEN` (R29). -/
  srcLen : Word
  /-- `DST_LEN` (R30). -/
  dstLen : Word
  /-- `FREQ[0..255]` (R34). -/
  freq : Table Word
  /-- `CODE[0..255]` (R31). -/
  code : Table Code
  /-- `TREE` (R32): nothing, or one tree. -/
  tree : Option Tree
  /-- `PQ` (R35), front first. -/
  pq : List QEntry
  /-- The working registers (R21 to R23), with the pseudocode's values after an operation (log entry 16, DESIGN CHOICE,
  unsafe for claims about them then). -/
  work : Work
  /-- What the engine is in the middle of (R24). -/
  job : Job
  /-- IBUF (R60): the bytes the host has written since reset. -/
  ibuf : List Host.Cell
  /-- OBUF (R60): the bytes the engine has written since reset, CLR or an error. -/
  obuf : List Host.Cell
  /-- The host's moves still to come, the next one first (R70, R102); the model's own field, as the ones below are
  (log entry 15, DESIGN CHOICE, safe). -/
  script : List HostMove
  /-- What the host's last read returned (R70); the model's own field. -/
  hostRead : Word
  /-- Number of the next free value; the model's own field (log entry 2, DESIGN CHOICE, safe). -/
  draws : Nat
  /-- The free value number under which unwritten IBUF bytes stand since reset; the model's own field. -/
  ibufDraw : Nat
  /-- `HDR` still holds the zeros of reset or CLR: nothing has happened since (R28, R39); the model's own field. -/
  hdrZero : Bool
  /-- The OBUF indices, rising, whose byte HENC or TSER on its own wrote and no other operation has written over since
  (R61; log entry 4); the model's own field. -/
  ownBytes : List Nat
  deriving DecidableEq, Repr

/-- `STATUS` with every stored field 0. -/
def Status.zero : Status :=
  { done := false, err := none, freqV := false, treeV := false, treeBuilt := false, codeV := false, padV := false,
    tszV := false }

/-- The working registers right after reset: the spec gives no value, the model names zeros (log entry 8, DESIGN CHOICE,
unsafe). -/
def Work.zero : Work :=
  { acc := 0#8, cnt := 0#3, ipos := 0#32, opos := 0#32, cur := .leaf 0#8, spos := 0#32, bidx := 0#3, tpos := 0#13,
    path := [], tstack := [] }

/-- The machine right after reset (R39, R260): all CSRs 0, no tree, an empty queue, no buffer byte specified. The spec
gives `FREQ`, `CODE` and the working registers no value; the model names zeros (log entry 8, DESIGN CHOICE, unsafe; the
reset event leaves free values, log entry 19). The capacities are open in the spec; the model takes the largest ones (log entry 1, DESIGN CHOICE, unsafe
for a claim about reset that needs room). -/
def State.reset : State :=
  { params := { ibufCap := 0xFFFFFFFF#32, obufCap := 0xFFFFFFFF#32 }
    status := Status.zero
    hdr := { pad := 0#3, tsize := 0#13 }
    srcLen := 0#32
    dstLen := 0#32
    freq := Vector.replicate 256 0#32
    code := Vector.replicate 256 { len := 0#8, pat := 0#255 }
    tree := none
    pq := []
    work := Work.zero
    job := .idle
    ibuf := []
    obuf := []
    script := []
    hostRead := 0#32
    draws := 1
    ibufDraw := 0
    hdrZero := true
    ownBytes := [] }

end Sys2Proof.Machine
end

