-- ==== Sys2Proof/Machine/Flags.lean ====
section
/-! DEFINITION. Sys2Proof/Machine/Flags.lean: the `STATUS` register: its 16-bit view, and the flags each operation
writes (R27 and the "Flags written" part of each operation's rule). -/

namespace Sys2Proof.Machine

/-- `BUSY`: an operation is in progress (R27). -/
def State.busy (s : State) : Bool := !decide (s.job = .idle)

/-- `STATUS` as the host reads it (R27): bits 15:14 and 3 read 0. -/
def State.statusWord (s : State) : BitVec 16 :=
  0#2 ++ BitVec.ofBool s.status.tszV ++ BitVec.ofBool s.status.padV ++ BitVec.ofBool s.status.codeV
    ++ BitVec.ofBool s.status.treeBuilt ++ BitVec.ofBool s.status.treeV ++ BitVec.ofBool s.status.freqV
    ++ (match s.status.err with | none => 0#4 | some e => e.code)
    ++ 0#1 ++ BitVec.ofBool s.status.err.isSome ++ BitVec.ofBool s.status.done ++ BitVec.ofBool s.busy

/-- The six validity flags cleared (R71, R236). -/
def Status.clearValid (f : Status) : Status :=
  { f with freqV := false, treeV := false, treeBuilt := false, codeV := false, padV := false, tszV := false }

/-- Flags written by FREQ (R121). -/
def Status.afterFreq (f : Status) : Status :=
  { f with freqV := true, treeV := false, treeBuilt := false, codeV := false, padV := false, tszV := false }

/-- Flags written by BUILD (R126). -/
def Status.afterBuild (f : Status) : Status :=
  { f with treeV := true, treeBuilt := true, codeV := false, padV := false, tszV := false }

/-- Flags written by TSER (R141). -/
def Status.afterTser (f : Status) : Status := { f with tszV := true }

/-- Flags written by TDES (R147). -/
def Status.afterTdes (f : Status) : Status := { f with treeV := true, treeBuilt := false, codeV := false }

/-- Flags written by CGEN (R161). -/
def Status.afterCgen (f : Status) : Status := { f with codeV := true, padV := false }

/-- Flags written by PADC (R166). -/
def Status.afterPadc (f : Status) : Status := { f with padV := true }

/-- Flags written by HDEC (R179). -/
def Status.afterHdec (f : Status) : Status :=
  { f with padV := true, tszV := true, freqV := false, treeV := false, treeBuilt := false, codeV := false }

end Sys2Proof.Machine
end

