-- ==== Sys2Proof/Machine/Ops.lean ====
section
/-! DEFINITION. Sys2Proof/Machine/Ops.lean: the named operations over buffers and registers, the one error entry (R236),
the return from it (CLR and reset, R212, R260), and the frame every command runs in (R239). -/

namespace Sys2Proof.Machine

/-- What the body of an operation answers: the next state, or the error it raises. -/
abbrev Res := Except ErrKind State

/-- The byte a buffer lists at an index, if it lists one. -/
def Mem.get : List Host.Cell → Nat → Option Byte
  | [], _ => none
  | (k, b) :: m, a => if k = a then some b else Mem.get m a

/-- The buffer with the byte at an index written; the list stays sorted. -/
def Mem.set : List Host.Cell → Nat → Byte → List Host.Cell
  | [], a, v => [(a, v)]
  | (k, b) :: m, a, v =>
    if a < k then (a, v) :: (k, b) :: m
    else if a = k then (a, v) :: m
    else (k, b) :: Mem.set m a v

/-- The canonical form of a buffer: strictly rising indices. An unlisted index holds no specified byte, so no listed
byte equals what an unlisted index holds. -/
abbrev Mem.wf (m : List Host.Cell) : Prop := m.Pairwise fun x y => x.1 < y.1

/-- `MemRead(IBUF:i, 1)` (R12): the byte the host wrote there, else the unspecified content of that index, the same at
every read until the host writes it (R61, R67; log entry 3, DEDUCED, unsafe for repeated reads). -/
def State.ibufByte (s : State) (i : Nat) : Byte :=
  match Mem.get s.ibuf i with
  | some b => b
  | none => Config.freeIbuf s.ibufDraw i

/-- `IBUF[0 .. SRC_LEN-1]`. -/
def State.input (s : State) : List Byte := (List.range s.srcLen.toNat).map s.ibufByte

/-- `MemWrite(OBUF:j, 1, v)` (R12, R66). -/
def memWrite (j : Nat) (v : Byte) (s : State) : Res :=
  if j < s.params.obufCap.toNat then .ok { s with obuf := Mem.set s.obuf j v } else .error .allocationFailure

/-- The test `SRC_LEN` <= `IBUF_CAP` of every operation that reads IBUF (R66, R235). -/
def checkSource (s : State) : Except ErrKind Unit :=
  if s.params.ibufCap.toNat < s.srcLen.toNat then .error .allocationFailure else .ok ()

/-- `require` (R12, R234). -/
def require (flags : Bool) : Except ErrKind Unit := if flags then .ok () else .error .badSequence

/-- `require TREE_V, …` where the operation reads `TREE`: the tree, or BadSequence where a flag is 0. `TREE_V` = 1 says
that `TREE` holds a tree (R27); a state that no step reaches, with the flag and no tree, counts as the flag being 0
(log entry 11, DESIGN CHOICE, safe). -/
def requireTree (flags : Bool) (s : State) : Except ErrKind Tree :=
  match flags && s.status.treeV, s.tree with
  | true, some t => .ok t
  | _, _ => .error .badSequence

/-- HENC or TSER on its own has written `n` bytes from index `a` on: they are valid at their fixed offsets from here on
(R61). The indices stay rising. -/
def Own.add (a n : Nat) (own : List Nat) : List Nat :=
  own.filter (fun j => decide (j < a)) ++ (List.range n).map (fun k => a + k) ++ own.filter (fun j => decide (a + n ≤ j))

/-- Another operation has written the bytes from index `a` up to `b`: HENC's and TSER's bytes are no longer there. -/
def Own.drop (a b : Nat) (own : List Nat) : List Nat := own.filter fun j => decide (j < a) || decide (b ≤ j)

/-- `OBUF[j]` is a byte whose content the spec fixes (R61): below `DST_LEN`, or a byte HENC or TSER wrote on its own, which
stays valid where `DST_LEN` does not cover it until another operation writes there (log entry 4, DEDUCED). -/
def State.obufValid (s : State) (j : Nat) : Bool := decide (j < s.dstLen.toNat) || decide (j ∈ s.ownBytes)

/-- `OBUF[j]` as the host reads it (R61): unspecified outside the valid part and where nothing was written. -/
def State.obufByte (s : State) (j : Nat) : Byte :=
  match s.obufValid j, Mem.get s.obuf j with
  | true, some b => b
  | _, _ => Config.freeObuf s.draws j

/-- `HDR` as the host reads it (R28): a field is unspecified while its validity flag is 0, but both are 0 right after
reset or CLR (R39). -/
def State.hdrRead (s : State) : Hdr :=
  if s.hdrZero then s.hdr
  else
    { pad := if s.status.padV then s.hdr.pad else (Config.freeHdr s.draws).pad
      tsize := if s.status.tszV then s.hdr.tsize else (Config.freeHdr s.draws).tsize }

/-- `HostReadCSR` (R25, R26, R70): `CMD` reads 0. -/
def State.csrRead (s : State) : Csr → Word
  | .cmd => 0#32
  | .status => s.statusWord.setWidth 32
  | .hdr => s.hdrRead.word.setWidth 32
  | .srcLen => s.srcLen
  | .dstLen => s.dstLen

/-- Everything inside the engine that an error, CLR and reset leave unspecified (R236, R212, R260), and with it the
engine idle and no OBUF byte valid. -/
def State.scramble (s : State) : State :=
  { s with
    dstLen := 0#32
    freq := Config.freeFreq s.draws
    code := Config.freeCode s.draws
    work := Config.freeWork s.draws
    job := .idle
    obuf := []
    ownBytes := []
    draws := s.draws + 1 }

/-- Error entry (R236): `ERROR` and `ERRCODE` set; `DONE`, `BUSY`, the validity flags and `DST_LEN` cleared; `SRC_LEN`
and IBUF kept; the rest unspecified. -/
def State.raise (e : ErrKind) (s : State) : State :=
  { s.scramble with
    status := { Status.zero with err := some e }
    hdr := Config.freeHdr s.draws
    tree := Config.freeTree s.draws
    pq := Config.freeQueue s.draws
    hdrZero := false }

/-- What CLR does (R212), the one return from an error the host can command: the state of reset, but IBUF and `SRC_LEN`
keep their values. -/
def State.clear (s : State) : State :=
  { s.scramble with
    status := Status.zero
    hdr := { pad := 0#3, tsize := 0#13 }
    tree := none
    pq := []
    hdrZero := true }

/-- The reset event (R260): what CLR does, and `SRC_LEN` 0 and IBUF unspecified. -/
def State.resetEvent (s : State) : State :=
  { s.clear with srcLen := 0#32, ibuf := [], ibufDraw := s.draws }

/-- Acceptance of a command (R27): `DONE` cleared; what the host could read as unspecified may read otherwise from here
on. -/
def State.accept (s : State) : State :=
  { s with status := { s.status with done := false }, hdrZero := false, draws := s.draws + 1 }

/-- Successful end of a command but CLR (R27). -/
def State.finish (s : State) : State :=
  { s with status := { s.status with done := true }, job := .idle }

/-- The end of an operation, from what its body answers: `DONE`, or error entry (R236) from the state `s` it began
with, which has the `SRC_LEN` and IBUF it keeps. -/
def endWith (s : State) : Res → State
  | .ok t => t.finish
  | .error e => s.raise e

/-- A host write of a command code but CLR's to `CMD` (R26, R239): ignored while `BUSY` or `ERROR` is 1 (R71, R237),
else one atomic run of the operation's body (R13). -/
def runCommand (body : State → Res) (s : State) : Host.Outcome State Fault Refusal :=
  if s.busy || s.status.err.isSome then .next s else .next (endWith s.accept (body s.accept))

/-- One item read inside an operation (R103): its effect, or the error it raises. -/
def runItem (body : State → Res) (s : State) : Host.Outcome State Fault Refusal :=
  match body s with
  | .ok t => .next t
  | .error e => .next (s.raise e)

end Sys2Proof.Machine
end

