-- ==== Sys2Proof/Machine/CodePad.lean ====
section
/-! DEFINITION. Sys2Proof/Machine/CodePad.lean: CGEN (R161) and PADC (R166). -/

namespace Sys2Proof.Machine

/-- CGEN (R161): the code table of a tree made by BUILD. The traversal ends back at the root, `PATH` empty. -/
def cgenBody (s : State) : Res := do
  let t ← requireTree s.status.treeBuilt s
  .ok { s with
    code := codeTable t
    work := { s.work with path := [], tstack := [] }
    status := s.status.afterCgen }

/-- PADC (R166): the padding count to `HDR.PAD`. -/
def padcBody (s : State) : Res := do
  require (s.status.freqV && s.status.codeV)
  .ok { s with hdr := { s.hdr with pad := padOf s.freq s.code }, status := s.status.afterPadc }

/-- `CGEN`, command 0x05 (R161). -/
def execCgen (s : State) : Host.Outcome State Fault Refusal := runCommand cgenBody s

/-- `PADC`, command 0x06 (R166). -/
def execPadc (s : State) : Host.Outcome State Fault Refusal := runCommand padcBody s

end Sys2Proof.Machine
end

