-- ==== Sys2Proof/Machine/FreqBuild.lean ====
section
/-! DEFINITION. Sys2Proof/Machine/FreqBuild.lean: FREQ (R121) and BUILD (R126). -/

namespace Sys2Proof.Machine

/-- FREQ's counting loop (R121) from a table of counters. -/
def countInto : Table Word → List Byte → Table Word
  | t, [] => t
  | t, b :: bs => countInto (Table.put t b (Table.at t b + 1#32)) bs

/-- FREQ (R121): the counts of `IBUF[0 .. SRC_LEN-1]`. -/
def freqBody (s : State) : Res := do
  checkSource s
  .ok { s with freq := countInto (Vector.replicate 256 0#32) s.input, status := s.status.afterFreq }

/-- BUILD (R126): seed the queue, merge to one entry, move its tree to `TREE`. -/
def buildBody (s : State) : Res := do
  require s.status.freqV
  match builtQueue s.freq with
  | [] => .error .emptyInput
  | e :: _ => .ok { s with tree := some e.tree, pq := [], status := s.status.afterBuild }

/-- `FREQ`, command 0x01 (R121). -/
def execFreq (s : State) : Host.Outcome State Fault Refusal := runCommand freqBody s

/-- `BUILD`, command 0x02 (R126). -/
def execBuild (s : State) : Host.Outcome State Fault Refusal := runCommand buildBody s

end Sys2Proof.Machine
end

