-- ==== Sys2Proof/Syntax.lean ====
section
/-! DEFINITION. Sys2Proof/Syntax.lean: one constructor per row of spec/opcode_table.json: the thirteen commands of
R91, the header word of R93, the three tree tokens of R96 and the two code bits of R98. -/

namespace Sys2Proof

/-- Everything HBPU decodes. The commands are written by the host to `CMD`; the header word, the tree tokens and the
code bits are what HDEC, TDES and UNPK read from IBUF (R90). -/
inductive Instr where
  /-- `FREQ`, command 0x01 (R121). -/
  | freq
  /-- `BUILD`, command 0x02 (R126). -/
  | build
  /-- `TSER`, command 0x03 (R141). -/
  | tser
  /-- `TDES`, command 0x04 (R147). -/
  | tdes
  /-- `CGEN`, command 0x05 (R161). -/
  | cgen
  /-- `PADC`, command 0x06 (R166). -/
  | padc
  /-- `HENC`, command 0x07 (R176). -/
  | henc
  /-- `HDEC`, command 0x08 (R179). -/
  | hdec
  /-- `PACK`, command 0x09 (R187). -/
  | pack
  /-- `UNPK`, command 0x0A (R198). -/
  | unpk
  /-- `COMP`, command 0x10 (R210). -/
  | comp
  /-- `DECOMP`, command 0x11 (R211). -/
  | decomp
  /-- `CLR`, command 0x1F (R212). -/
  | clr
  /-- `HDR`: the 16-bit header word, padding count and tree size (R93). -/
  | hdr (pad : BitVec 3) (tsize : BitVec 13)
  /-- `T.ESC`: escape byte 0x5C and a symbol byte: a leaf of that symbol (R96). -/
  | tEsc (sym : Byte)
  /-- `T.NODE`: byte 0x2A: an internal node (R96). -/
  | tNode
  /-- `T.LEAF`: any other byte: a leaf of that symbol (R96). -/
  | tLeaf (sym : Byte)
  /-- `B.LEFT`: code bit 0 (R98). -/
  | bLeft
  /-- `B.RIGHT`: code bit 1 (R98). -/
  | bRight
  deriving DecidableEq, Repr

end Sys2Proof
end

