-- ==== Sys2Proof/WellFormed.lean ====
section
/-! DEFINITION. Sys2Proof/WellFormed.lean: which terms of `Instr` some encoding stands for. The field widths are in
the types; the one check left is that a plain leaf token is not one of the two markers (R96). -/

namespace Sys2Proof

/-- `T.LEAF` is any first byte except 0x5C and 0x2A (R96); every other term is well formed as it stands. -/
def Instr.wf : Instr → Bool
  | .tLeaf sym => sym != 0x5C#8 && sym != 0x2A#8
  | .freq | .build | .tser | .tdes | .cgen | .padc | .henc | .hdec | .pack | .unpk | .comp | .decomp | .clr => true
  | .hdr _ _ | .tEsc _ | .tNode | .bLeft | .bRight => true

end Sys2Proof
end

