-- ==== Sys2Proof/Decode.lean ====
section
/-! DEFINITION. Sys2Proof/Decode.lean: the decoders of the four formats of R90 (command byte, header word, tree token,
code bit), total on any bytes and rejecting by name, and the encoder beside them. -/

namespace Sys2Proof

/-- The formats that are decoded item by item (R90). -/
inductive Format where
  | cmd8
  | hdr16
  | ttok
  | cbit
  deriving DecidableEq, Repr

/-- Why bytes are no item of a format. -/
inductive DecodeError where
  /-- A command code R91 does not define (R92). -/
  | reservedCommand (op : Byte)
  /-- The bytes end inside an item; for a tree token this is the overrun of R148 (a). -/
  | missingByte
  /-- A code bit is handed over as a byte 0 or 1. -/
  | notABit (b : Byte)
  deriving DecidableEq, Repr

/-- The command decoder: the thirteen codes of R91; every other value is reserved (R92). -/
def decodeCmd (op : Byte) : Except DecodeError Instr :=
  match op with
  | 0x01#8 => .ok .freq
  | 0x02#8 => .ok .build
  | 0x03#8 => .ok .tser
  | 0x04#8 => .ok .tdes
  | 0x05#8 => .ok .cgen
  | 0x06#8 => .ok .padc
  | 0x07#8 => .ok .henc
  | 0x08#8 => .ok .hdec
  | 0x09#8 => .ok .pack
  | 0x0A#8 => .ok .unpk
  | 0x10#8 => .ok .comp
  | 0x11#8 => .ok .decomp
  | 0x1F#8 => .ok .clr
  | _ => .error (.reservedCommand op)

/-- `HdrDec` (R94, R177): the first byte is the more significant one. -/
def decodeHdr (b0 b1 : Byte) : Instr :=
  .hdr ((b0 ++ b1).extractLsb' 13 3) ((b0 ++ b1).extractLsb' 0 13)

/-- One tree token and the bytes after it; the escape is tested first, then the node marker (R96, R145). -/
def decodeToken : List Byte → Except DecodeError (Instr × List Byte)
  | [] => .error .missingByte
  | b :: rest =>
    if b = Config.markEsc then
      match rest with
      | [] => .error .missingByte
      | sym :: rest => .ok (.tEsc sym, rest)
    else if b = Config.markNode then .ok (.tNode, rest)
    else .ok (.tLeaf b, rest)

/-- One code bit, handed over as a byte 0 or 1 (R98). -/
def decodeBit (b : Byte) : Except DecodeError Instr :=
  if b = 0#8 then .ok .bLeft else if b = 1#8 then .ok .bRight else .error (.notABit b)

/-- The first item of a format in a byte list, and the bytes after it. -/
def decode (f : Format) (bs : List Byte) : Except DecodeError (Instr × List Byte) :=
  match f, bs with
  | .cmd8, op :: rest => (decodeCmd op).map fun i => (i, rest)
  | .hdr16, b0 :: b1 :: rest => .ok (decodeHdr b0 b1, rest)
  | .ttok, bs => decodeToken bs
  | .cbit, b :: rest => (decodeBit b).map fun i => (i, rest)
  | _, _ => .error .missingByte

/-- The format each instruction is encoded in (R90). -/
def Instr.format : Instr → Format
  | .freq | .build | .tser | .tdes | .cgen | .padc | .henc | .hdec | .pack | .unpk | .comp | .decomp | .clr => .cmd8
  | .hdr _ _ => .hdr16
  | .tEsc _ | .tNode | .tLeaf _ => .ttok
  | .bLeft | .bRight => .cbit

/-- `HdrEnc` (R94, R175): `H[15:13]` = pad, `H[12:0]` = tsize, the high byte first. -/
def encodeHdr (pad : BitVec 3) (tsize : BitVec 13) : List Byte :=
  [(pad ++ tsize).extractLsb' 8 8, (pad ++ tsize).extractLsb' 0 8]

/-- The bytes of an instruction, from the tables of R91, R94, R96 and R98. -/
def encode : Instr → List Byte
  | .freq => [0x01#8]
  | .build => [0x02#8]
  | .tser => [0x03#8]
  | .tdes => [0x04#8]
  | .cgen => [0x05#8]
  | .padc => [0x06#8]
  | .henc => [0x07#8]
  | .hdec => [0x08#8]
  | .pack => [0x09#8]
  | .unpk => [0x0A#8]
  | .comp => [0x10#8]
  | .decomp => [0x11#8]
  | .clr => [0x1F#8]
  | .hdr pad tsize => encodeHdr pad tsize
  | .tEsc sym => [Config.markEsc, sym]
  | .tNode => [Config.markNode]
  | .tLeaf sym => [sym]
  | .bLeft => [0#8]
  | .bRight => [1#8]

/-- The length in bytes of each instruction's encoding (R90, R96); a code bit is handed over as one byte. -/
def Instr.size : Instr → Nat
  | .freq | .build | .tser | .tdes | .cgen | .padc | .henc | .hdec | .pack | .unpk | .comp | .decomp | .clr => 1
  | .hdr _ _ => 2
  | .tEsc _ => 2
  | .tNode | .tLeaf _ => 1
  | .bLeft | .bRight => 1

/-- The instruction a decoder gives, with nothing said of the bytes after it. -/
def decodeOne (f : Format) (bs : List Byte) : Option Instr :=
  match decode f bs with
  | .ok (i, _) => some i
  | .error _ => none

/-- The instruction whose opcode-table bits are `w`. The table's rows belong to four decoders whose words overlap, and
a word does not say which one reads it; this order is the model's (log entry 14, DESIGN CHOICE, safe): fewer than 8
bits: a code bit; 8 bits: a defined command, else 0 as the code bit `B.LEFT`, else a tree token with a symbol byte of 0 after it; more: `T.ESC`
where the first byte is the escape marker, else the header word, whose bits the table numbers as one 16-bit number. -/
def decodeTableWord (nbits w : Nat) : Option Instr :=
  let b0 : Byte := BitVec.ofNat 8 w
  let b1 : Byte := BitVec.ofNat 8 (w / 256)
  if nbits < 8 then decodeOne .cbit [b0]
  else if nbits ≤ 8 then
    match decodeOne .cmd8 [b0] with
    | some i => some i
    | none => if b0 = 0#8 then decodeOne .cbit [b0] else decodeOne .ttok [b0, 0#8]
  else if b0 = Config.markEsc then decodeOne .ttok [b0, b1]
  else decodeOne .hdr16 [b1, b0]

end Sys2Proof
end

