-- ==== Sys2Proof/Machine/Header.lean ====
section
/-! DEFINITION. Sys2Proof/Machine/Header.lean: HENC (R176), HDEC (R179) and the header word it reads (R93). -/

namespace Sys2Proof.Machine

/-- HENC (R176): `HDR` to `OBUF[0..1]`, the high byte first; the two bytes are valid from here on (R61). -/
def hencBody (s : State) : Res := do
  require (s.status.padV && s.status.tszV)
  let s ← memWrite 0 s.hdr.hiByte s
  let s ← memWrite 1 s.hdr.loByte s
  .ok { s with ownBytes := Own.add 0 2 s.ownBytes }

/-- The tests before HDEC reads the header (R179). -/
def headerEntry (s : State) : Res := do
  checkSource s
  if s.srcLen.toNat < 2 then .error .malformedHeader else .ok s

/-- The header word (R93, R94) as HDEC takes it: its fields to `HDR`, or MalformedHeader where they do not fit the
buffer's length (R178, R179). -/
def hdrItem (pad : BitVec 3) (tsize : BitVec 13) (s : State) : Res :=
  if hdrConsistent pad.toNat tsize.toNat s.srcLen.toNat then .ok { s with hdr := { pad := pad, tsize := tsize } }
  else .error .malformedHeader

/-- The header read from `IBUF[0..1]` (R62) and its effect. -/
def headerWord (s : State) : Res :=
  match decode .hdr16 [s.ibufByte 0, s.ibufByte 1] with
  | .ok (.hdr pad tsize, _) => hdrItem pad tsize s
  | _ => .error .malformedHeader

/-- The end of HDEC (R179): its flags. -/
def headerExit (s : State) : State := { s with status := s.status.afterHdec }

/-- HDEC (R179). -/
def hdecBody (s : State) : Res := do
  let s ← headerEntry s
  let s ← headerWord s
  .ok (headerExit s)

/-- `HENC`, command 0x07 (R176). -/
def execHenc (s : State) : Host.Outcome State Fault Refusal := runCommand hencBody s

/-- `HDEC`, command 0x08 (R179). -/
def execHdec (s : State) : Host.Outcome State Fault Refusal := runCommand hdecBody s

/-- The header word as HDEC reads it (R93, R179). -/
def execHdr (pad : BitVec 3) (tsize : BitVec 13) (s : State) : Host.Outcome State Fault Refusal :=
  runItem (hdrItem pad tsize) s

end Sys2Proof.Machine
end

