-- ==== Sys2Proof/Machine/Packer.lean ====
section
/-! DEFINITION. Sys2Proof/Machine/Packer.lean: PACK (R187), with PACK.BIT (R186), and the barrel-shifter form PACK.CODE
(R188), which no operation uses: that the two agree is a statement. -/

namespace Sys2Proof.Machine

/-- The byte with the bit in place `7 - cnt` set to `d` (R186). -/
def placeBit (acc : Byte) (cnt : BitVec 3) (d : Bool) : Byte :=
  let mask : Byte := 0x80#8 >>> cnt.toNat
  if d then acc ||| mask else acc &&& ~~~mask

/-- `PACK.BIT(d)` (R186): the eighth bit writes the byte out. -/
def packBit (d : Bool) (s : State) : Res :=
  let acc := placeBit s.work.acc s.work.cnt d
  if s.work.cnt = 7#3 then do
    let s ← memWrite s.work.opos.toNat acc s
    .ok { s with work := { s.work with acc := 0#8, cnt := 0#3, opos := s.work.opos + 1#32 } }
  else .ok { s with work := { s.work with acc := acc, cnt := s.work.cnt + 1#3 } }

/-- A bit string through PACK.BIT, first bit first. -/
def packBits : List Bool → State → Res
  | [], s => .ok s
  | d :: ds, s => do packBits ds (← packBit d s)

/-- The loop of `PACK.CODE` (R188): `t` bits are pending in `w`, the eight oldest are written out. `fuel` is at least
`t / 8`. -/
def packWhole : Nat → Nat → Nat → State → Res
  | 0, t, w, s =>
    .ok { s with work := { s.work with
      cnt := BitVec.ofNat 3 t
      acc := if 0 < t then BitVec.ofNat 8 ((w % 2 ^ t) * 2 ^ (8 - t)) else 0#8 } }
  | fuel + 1, t, w, s =>
    if 8 ≤ t then do
      let s ← memWrite s.work.opos.toNat (BitVec.ofNat 8 (w / 2 ^ (t - 8))) s
      packWhole fuel (t - 8) (w % 2 ^ (t - 8)) { s with work := { s.work with opos := s.work.opos + 1#32 } }
    else packWhole 0 t w s

/-- `PACK.CODE(len, pat)` (R188): the bits already placed, then the code, shifted out in whole bytes. -/
def packCode (c : Code) (s : State) : Res :=
  let t := s.work.cnt.toNat + c.len.toNat
  let w := (s.work.acc.toNat / 2 ^ (8 - s.work.cnt.toNat)) * 2 ^ c.len.toNat + c.pat.toNat
  packWhole (t / 8) t w s

/-- One input byte (R187): its code through PACK.BIT; a byte with no code is BadSequence. -/
def packByte (b : Byte) (s : State) : Res :=
  let c := Table.at s.code b
  if c.len = 0#8 then .error .badSequence
  else do
    let s ← packBits c.bits s
    .ok { s with work := { s.work with ipos := s.work.ipos + 1#32 } }

/-- PACK's loop over the input (R187). -/
def packInput : List Byte → State → Res
  | [], s => .ok s
  | b :: bs, s => do packInput bs (← packByte b s)

/-- The partial final byte (R187). -/
def packFlush (s : State) : Res :=
  if s.work.cnt = 0#3 then .ok s
  else do
    let s ← memWrite s.work.opos.toNat s.work.acc s
    .ok { s with work := { s.work with opos := s.work.opos + 1#32 } }

/-- PACK (R187): the stream behind the tree, its end to `DST_LEN`. What HENC and TSER on their own wrote outside the stream
stays valid (R61; log entry 4). -/
def packBody (s : State) : Res := do
  require (s.status.codeV && s.status.tszV)
  checkSource s
  let s ← packInput s.input
    { s with work := { s.work with acc := 0#8, cnt := 0#3, ipos := 0#32, opos := 2#32 + s.hdr.tsize.setWidth 32 } }
  let s ← packFlush s
  .ok { s with dstLen := s.work.opos, ownBytes := Own.drop (2 + s.hdr.tsize.toNat) s.work.opos.toNat s.ownBytes }

/-- `PACK`, command 0x09 (R187). -/
def execPack (s : State) : Host.Outcome State Fault Refusal := runCommand packBody s

end Sys2Proof.Machine
end

