-- ==== Sys2Proof/Machine/TreeCodec.lean ====
section
/-! DEFINITION. Sys2Proof/Machine/TreeCodec.lean: TSER (R141), TDES (R147) and the three tree tokens it reads (R96). -/

namespace Sys2Proof.Machine

/-- TSER's loop (R141): per byte first the size limit, then the write at `2 + TPOS`. -/
def writeTree : List Byte → State → Res
  | [], s => .ok s
  | v :: vs, s =>
    if Config.tsizeMax ≤ s.work.tpos.toNat then .error .unsupportedTreeSize
    else do
      let s ← memWrite (2 + s.work.tpos.toNat) v s
      writeTree vs { s with work := { s.work with tpos := s.work.tpos + 1#13 } }

/-- TSER (R141): `Ser(TREE)` to `OBUF[2 ..]`, its length to `HDR.TSIZE`; the bytes written are valid from here on (R61).
Bytes that an earlier TSER of a longer tree wrote beyond them stay valid too, since R61 and U22 speak of the bytes TSER
wrote and name no last TSER (log entry 4, DEDUCED, unsafe for a claim about those bytes). -/
def tserBody (s : State) : Res := do
  let t ← requireTree true s
  let s ← writeTree t.ser { s with work := { s.work with tpos := 0#13 } }
  .ok { s with
    hdr := { s.hdr with tsize := s.work.tpos }
    ownBytes := Own.add 2 s.work.tpos.toNat s.ownBytes
    status := s.status.afterTser }

/-- The size bound of `Next()` (R145) for a token of `k` bytes, and the test that a subtree is still expected: without
either the tree is malformed (R148). -/
def tokenFits (k : Nat) (s : State) : Bool :=
  !s.work.tstack.isEmpty && decide (s.work.tpos.toNat + k ≤ s.hdr.tsize.toNat)

/-- A token that is a whole leaf, `k` bytes long (R145). -/
def leafOf (k : Nat) (sym : Byte) (s : State) : Res :=
  if tokenFits k s then
    let (root, fs) := closeSubtree (.leaf sym) s.work.tstack
    .ok { s with
      tree := match root with | some t => some t | none => s.tree
      work := { s.work with tpos := s.work.tpos + BitVec.ofNat 13 k, tstack := fs } }
  else .error .malformedTree

/-- `T.ESC` (R96, R145): a leaf whose symbol is the second byte, whatever its value. -/
def escToken (sym : Byte) (s : State) : Res := leafOf 2 sym s

/-- `T.LEAF` (R96, R145): a leaf whose symbol is the byte itself. -/
def leafToken (sym : Byte) (s : State) : Res := leafOf 1 sym s

/-- `T.NODE` (R96, R145): an internal node opens; its left subtree comes next. -/
def nodeToken (s : State) : Res :=
  if tokenFits 1 s then
    .ok { s with work := { s.work with tpos := s.work.tpos + 1#13, tstack := .left :: s.work.tstack } }
  else .error .malformedTree

/-- The tree bytes not yet read, at most the two a token can have (R144). -/
def treeBytes (s : State) : List Byte :=
  (List.range (min 2 (s.hdr.tsize.toNat - s.work.tpos.toNat))).map fun k => s.ibufByte (2 + s.work.tpos.toNat + k)

/-- One token read from the tree bytes and its effect. -/
def treeToken (s : State) : Res :=
  match decode .ttok (treeBytes s) with
  | .ok (.tEsc sym, _) => escToken sym s
  | .ok (.tNode, _) => nodeToken s
  | .ok (.tLeaf sym, _) => leafToken sym s
  | _ => .error .malformedTree

/-- Tokens are read until the root is complete (R145), at most `fuel` of them. Nodes are not counted: 8191 bytes make at
most `NODE_CAP` nodes (R146; log entry 10, DEDUCED, safe). -/
def readTree : Nat → State → Res
  | 0, s => .ok s
  | fuel + 1, s => if s.work.tstack.isEmpty then .ok s else do readTree fuel (← treeToken s)

/-- The tests and settings before TDES's first token (R147). -/
def treeEntry (s : State) : Res := do
  require s.status.tszV
  checkSource s
  if s.srcLen.toNat < 2 + s.hdr.tsize.toNat then .error .malformedHeader
  else .ok { s with work := { s.work with tpos := 0#13, tstack := [.root] } }

/-- The end of TDES (R145, R148): the root is complete and exactly the declared bytes are read. -/
def treeExit (s : State) : Res :=
  if s.work.tstack.isEmpty && decide (s.work.tpos = s.hdr.tsize) then .ok { s with status := s.status.afterTdes }
  else .error .malformedTree

/-- TDES (R147); every token takes a byte, so `TSIZE` bounds their number. -/
def tdesBody (s : State) : Res := do
  let s ← treeEntry s
  let s ← readTree s.hdr.tsize.toNat s
  treeExit s

/-- `TSER`, command 0x03 (R141). -/
def execTser (s : State) : Host.Outcome State Fault Refusal := runCommand tserBody s

/-- `TDES`, command 0x04 (R147). -/
def execTdes (s : State) : Host.Outcome State Fault Refusal := runCommand tdesBody s

/-- `T.ESC` as the deserializer reads it (R96, R145). -/
def execTEsc (sym : Byte) (s : State) : Host.Outcome State Fault Refusal := runItem (escToken sym) s

/-- `T.NODE` as the deserializer reads it (R96, R145). -/
def execTNode (s : State) : Host.Outcome State Fault Refusal := runItem nodeToken s

/-- `T.LEAF` as the deserializer reads it (R96, R145). -/
def execTLeaf (sym : Byte) (s : State) : Host.Outcome State Fault Refusal := runItem (leafToken sym) s

end Sys2Proof.Machine
end

