-- ==== Sys2Proof/Machine/Unpacker.lean ====
section
/-! DEFINITION. Sys2Proof/Machine/Unpacker.lean: UNPK (R198) and the code bits it reads (R98, R197, R199). -/

namespace Sys2Proof.Machine

/-- A leaf is reached: its symbol goes out at `OPOS` (R197). -/
def emit (sym : Byte) (s : State) : Res := do
  let s ← memWrite s.work.opos.toNat sym s
  .ok { s with work := { s.work with opos := s.work.opos + 1#32 } }

/-- The bit is consumed (R22): `BIDX` counts it, `SPOS` follows every eighth. -/
def advanceBit (s : State) : State :=
  { s with work := { s.work with
    spos := if s.work.bidx = 7#3 then s.work.spos + 1#32 else s.work.spos
    bidx := s.work.bidx + 1#3 } }

/-- `WALK.STEP(d)` (R197): down the tree; at a leaf its symbol goes out and the cursor returns to the root `t`. A step
from a leaf, which cannot arise with an internal root, is the source's MalformedStream (R201; log entry 11, DESIGN CHOICE,
safe). -/
def walkNode (d : Bool) (t : Tree) (s : State) : Res :=
  match s.work.cur with
  | .leaf _ => .error .malformedStream
  | .node l r =>
    match (if d then r else l) with
    | .leaf sym => do
      let s ← emit sym s
      .ok { s with work := { s.work with cur := t } }
    | .node l' r' => .ok { s with work := { s.work with cur := .node l' r' } }

/-- `ONELEAF.STEP(d)` (R199): the code "0" of the one symbol, or a step past a null child. -/
def oneLeafStep (d : Bool) (sym : Byte) (s : State) : Res :=
  if d then .error .malformedStream else emit sym s

/-- One code bit (R198): ONELEAF.STEP under a one-leaf tree, else WALK.STEP. -/
def walkStep (d : Bool) (s : State) : Res := do
  let s ← match s.tree with
    | none => .error .malformedStream
    | some (.leaf sym) => oneLeafStep d sym s
    | some (.node l r) => walkNode d (.node l r) s
  .ok (advanceBit s)

/-- The stream bit at `SPOS`, `BIDX` (R196): the most significant bit of a byte is first. -/
def streamBit (s : State) : Bool := (s.ibufByte s.work.spos.toNat).getLsbD (7 - s.work.bidx.toNat)

/-- The walk over the next `k` stream bits (R198). -/
def readStream : Nat → State → Res
  | 0, s => .ok s
  | k + 1, s => do readStream k (← walkStep (streamBit s) s)

/-- The tests and settings before UNPK's first bit (R198). -/
def streamEntry (s : State) : Res := do
  let t ← requireTree (s.status.padV && s.status.tszV) s
  checkSource s
  if hdrConsistent s.hdr.pad.toNat s.hdr.tsize.toNat s.srcLen.toNat then
    .ok { s with work := { s.work with
      cur := t
      opos := 0#32
      spos := 2#32 + s.hdr.tsize.setWidth 32
      bidx := 0#3 } }
  else .error .malformedHeader

/-- The number of stream bits (R195) for the present header and length. -/
def State.streamLen (s : State) : Nat := streamBits s.hdr.pad.toNat s.hdr.tsize.toNat s.srcLen.toNat

/-- The end of UNPK (R198, R200): the cursor is back at the root, the symbol count goes to `DST_LEN`. A proper subtree
never equals the tree it stands in, so the comparison says where the cursor is. What HENC and TSER on their own wrote past
the emitted symbols stays valid (R61; log entry 4). -/
def streamExit (s : State) : Res :=
  if s.tree = some s.work.cur then
    .ok { s with dstLen := s.work.opos, ownBytes := Own.drop 0 s.work.opos.toNat s.ownBytes }
  else .error .malformedStream

/-- UNPK (R198). -/
def unpkBody (s : State) : Res := do
  let s ← streamEntry s
  let s ← readStream s.streamLen s
  streamExit s

/-- `UNPK`, command 0x0A (R198). -/
def execUnpk (s : State) : Host.Outcome State Fault Refusal := runCommand unpkBody s

/-- `B.LEFT`: the code bit 0 as the tree walker takes it (R98, R197, R199). -/
def execBLeft (s : State) : Host.Outcome State Fault Refusal := runItem (walkStep false) s

/-- `B.RIGHT`: the code bit 1 as the tree walker takes it (R98, R197, R199). -/
def execBRight (s : State) : Host.Outcome State Fault Refusal := runItem (walkStep true) s

end Sys2Proof.Machine
end

