-- ==== Sys2Proof/Machine/Orchestrators.lean ====
section
/-! DEFINITION. Sys2Proof/Machine/Orchestrators.lean: COMP (R210), DECOMP (R211) and CLR (R212). -/

namespace Sys2Proof.Machine

/-- COMP (R210): the bodies of the seven units of the compress side in order; the first error ends it. Its header and tree
bytes are valid because `DST_LEN` covers them, HENC and TSER not having been issued on their own (R61). -/
def compBody (s : State) : Res := do
  if s.srcLen = 0#32 then .error .emptyInput
  else
    let s ← freqBody s
    let s ← buildBody s
    let s ← cgenBody s
    let s ← padcBody s
    let s ← tserBody s
    let s ← hencBody s
    let s ← packBody s
    .ok { s with ownBytes := Own.drop 0 s.dstLen.toNat s.ownBytes }

/-- DECOMP (R211): the bodies of the three units of the decompress side in order; the first error ends it. -/
def decompBody (s : State) : Res := do
  let s ← hdecBody s
  let s ← tdesBody s
  unpkBody s

/-- `COMP`, command 0x10 (R210). -/
def execComp (s : State) : Host.Outcome State Fault Refusal := runCommand compBody s

/-- `DECOMP`, command 0x11 (R211). -/
def execDecomp (s : State) : Host.Outcome State Fault Refusal := runCommand decompBody s

/-- `CLR`, command 0x1F (R212): accepted with `ERROR` = 1 too (R237); ignored only while `BUSY` = 1 (R71). -/
def execClr (s : State) : Host.Outcome State Fault Refusal := if s.busy then .next s else .next s.clear

end Sys2Proof.Machine
end

