-- ==== Sys2Proof/Machine/Dispatch.lean ====
section
/-! DEFINITION. Sys2Proof/Machine/Dispatch.lean: the meaning of each instruction, one arm per constructor. -/

namespace Sys2Proof.Machine

def exec (i : Instr) (s : State) : Host.Outcome State Fault Refusal :=
  match i with
  | .freq => Sys2Proof.Machine.execFreq s
  | .build => Sys2Proof.Machine.execBuild s
  | .tser => Sys2Proof.Machine.execTser s
  | .tdes => Sys2Proof.Machine.execTdes s
  | .cgen => Sys2Proof.Machine.execCgen s
  | .padc => Sys2Proof.Machine.execPadc s
  | .henc => Sys2Proof.Machine.execHenc s
  | .hdec => Sys2Proof.Machine.execHdec s
  | .pack => Sys2Proof.Machine.execPack s
  | .unpk => Sys2Proof.Machine.execUnpk s
  | .comp => Sys2Proof.Machine.execComp s
  | .decomp => Sys2Proof.Machine.execDecomp s
  | .clr => Sys2Proof.Machine.execClr s
  | .hdr pad tsize => Sys2Proof.Machine.execHdr pad tsize s
  | .tEsc sym => Sys2Proof.Machine.execTEsc sym s
  | .tNode => Sys2Proof.Machine.execTNode s
  | .tLeaf sym => Sys2Proof.Machine.execTLeaf sym s
  | .bLeft => Sys2Proof.Machine.execBLeft s
  | .bRight => Sys2Proof.Machine.execBRight s

end Sys2Proof.Machine
end

