-- ==== Sys2Proof/Machine/Engine.lean ====
section
/-! DEFINITION. Sys2Proof/Machine/Engine.lean: the engine inside HDEC, TDES and UNPK: which item it reads next, and where
it goes after the item (R24, R90, R211). The atomic commands never stop here; the host's view of a busy engine (R71) and
the items of the opcode table need the positions in between (log entry 12, DESIGN CHOICE, safe for the commands). -/

namespace Sys2Proof.Machine

/-- The item the engine reads next: the header word at `IBUF[0..1]`, the token at `2 + TPOS`, the bit at `SPOS`, `BIDX`
(R62, R144, R196). -/
def fetchItem (s : State) : Except DecodeError Instr :=
  match s.job with
  | .idle => .error .missingByte
  | .header _ => (decode .hdr16 [s.ibufByte 0, s.ibufByte 1]).map fun ib => ib.1
  | .tree _ => (decode .ttok (treeBytes s)).map fun ib => ib.1
  | .stream _ => (decode .cbit [(BitVec.ofBool (streamBit s)).setWidth 8]).map fun ib => ib.1

/-- How many stream bits are consumed (R196). -/
def State.streamPos (s : State) : Nat :=
  8 * (s.work.spos.toNat - (2 + s.hdr.tsize.toNat)) + s.work.bidx.toNat

/-- The next position of an operation from what a unit's entry or exit answers: `next`, or error entry. -/
def goOn (s : State) (next : State → State) : Res → State
  | .ok t => next t
  | .error e => s.raise e

/-- After a code bit, or on entry to the stream: the walk goes on while bits are left (R195); then UNPK ends. -/
def settleStream (whole : Bool) (s : State) : State :=
  if s.streamPos < s.streamLen then { s with job := .stream whole } else goOn s State.finish (streamExit s)

/-- After a tree token: tokens go on while a subtree is expected and declared bytes are left; then TDES ends, and inside
DECOMP UNPK begins (R145, R211). -/
def settleTree (whole : Bool) (s : State) : State :=
  if !s.work.tstack.isEmpty && decide (s.work.tpos.toNat < s.hdr.tsize.toNat) then { s with job := .tree whole }
  else goOn s (fun t => if whole then goOn t (settleStream true) (streamEntry t) else t.finish) (treeExit s)

/-- After the header word: HDEC ends, and inside DECOMP TDES begins (R179, R211). -/
def settleHeader (whole : Bool) (s : State) : State :=
  if whole then goOn s (fun t => { t with job := .tree true }) (treeEntry (headerExit s)) else (headerExit s).finish

/-- Where the engine goes after an item; after an error it is idle and stays so. -/
def settle (s : State) : State :=
  match s.job with
  | .idle => s
  | .header whole => settleHeader whole s
  | .tree whole => settleTree whole s
  | .stream whole => settleStream whole s

/-- `settle` under the outcome of an item. -/
def settleOutcome : Host.Outcome State Fault Refusal → Host.Outcome State Fault Refusal
  | .next s => .next (settle s)
  | .fault r => .fault r
  | .refused r => .refused r

/-- One item of the operation in progress: read, executed, and the engine moved on. Bytes that end inside a token are a
malformed tree (R148). -/
def engineStep (s : State) : Host.Outcome State Fault Refusal :=
  match fetchItem s with
  | .ok i => settleOutcome (exec i s)
  | .error _ => .next (s.raise .malformedTree)

end Sys2Proof.Machine
end

