-- ==== Sys2Proof/Machine/HostMoves.lean ====
section
/-! DEFINITION. Sys2Proof/Machine/HostMoves.lean: the host's moves (R70), with the engine idle and with it busy (R71),
one step of host and engine together, and the host scripts of R102. -/

namespace Sys2Proof.Machine

/-- A host write to IBUF or `SRC_LEN` clears the six validity flags (R71); what the host could read as unspecified may
read otherwise from here on. -/
def State.clearValid (s : State) : State :=
  { s with status := s.status.clearValid, hdrZero := false, draws := s.draws + 1 }

/-- IllegalCommand (R233), at its place in the order of R239. -/
def illegalCommand (s : State) : Host.Outcome State Fault Refusal :=
  if s.busy || s.status.err.isSome then .next s else .next (s.raise .illegalCommand)

/-- A host write to `CMD` (R26): the command with the code `v[7:0]` (R91), or IllegalCommand (R233). -/
def writeCmd (v : Word) (s : State) : Host.Outcome State Fault Refusal :=
  match decode .cmd8 [v.setWidth 8] with
  | .ok (i, _) => exec i s
  | .error _ => illegalCommand s

/-- A host write to a CSR while the engine is idle (R25, R29, R70): the read-only ones ignore it. -/
def writeCsr (r : Csr) (v : Word) (s : State) : Host.Outcome State Fault Refusal :=
  match r with
  | .cmd => writeCmd v s
  | .srcLen => .next { s.clearValid with srcLen := v }
  | .status | .hdr | .dstLen => .next s

/-- One move of the host while `BUSY` = 0 (R70). An index at or above a capacity is not a move the host has. `WAIT` reads
`STATUS` once and ends (R102). -/
def hostMove (m : HostMove) (s : State) : Host.Outcome State Fault Refusal :=
  match m with
  | .writeIbuf i v =>
    if i < s.params.ibufCap.toNat then .next { s.clearValid with ibuf := Mem.set s.ibuf i v } else .fault (.noSuchIndex i)
  | .writeObuf j _ => if j < s.params.obufCap.toNat then .next s else .fault (.noSuchIndex j)
  | .writeCsr r v => writeCsr r v s
  | .readCsr r => .next { s with hostRead := s.csrRead r }
  | .readObuf j =>
    if j < s.params.obufCap.toNat then .next { s with hostRead := (s.obufByte j).setWidth 32 } else .fault (.noSuchIndex j)
  | .readIbuf i =>
    if i < s.params.ibufCap.toNat then .next { s with hostRead := (s.ibufByte i).setWidth 32 } else .fault (.noSuchIndex i)
  | .reset => .next s.resetEvent
  | .wait => .next { s with hostRead := s.csrRead .status }

/-- A read other than of `STATUS` while `BUSY` = 1: an unspecified value, another one each time (R71). -/
def busyRead (s : State) : State := { s with hostRead := Config.freeRead s.draws, draws := s.draws + 1 }

/-- One move of the host while `BUSY` = 1 (R71, R262): `STATUS` can be read, reset can come (R260), writes are ignored,
other reads return an unspecified value. -/
def hostMoveBusy (m : HostMove) (s : State) : Host.Outcome State Fault Refusal :=
  match m with
  | .writeIbuf i _ => if i < s.params.ibufCap.toNat then .next s else .fault (.noSuchIndex i)
  | .writeObuf j _ => if j < s.params.obufCap.toNat then .next s else .fault (.noSuchIndex j)
  | .writeCsr _ _ => .next s
  | .readCsr .status => .next { s with hostRead := s.csrRead .status }
  | .readCsr _ => .next (busyRead s)
  | .readObuf j => if j < s.params.obufCap.toNat then .next (busyRead s) else .fault (.noSuchIndex j)
  | .readIbuf i => if i < s.params.ibufCap.toNat then .next (busyRead s) else .fault (.noSuchIndex i)
  | .reset => .next s.resetEvent
  | .wait => .next { s with hostRead := s.csrRead .status }

/-- One step of host and engine. Idle: the host's next move; with none the engine waits (R260). Busy: the engine goes on
while the host makes no move or waits for `BUSY` to fall (R102); any other move is made at once (R71). -/
def machineStep (s : State) : Host.Outcome State Fault Refusal :=
  match s.job with
  | .idle =>
    match s.script with
    | [] => .next s
    | m :: rest => hostMove m { s with script := rest }
  | _ =>
    match s.script with
    | [] => engineStep s
    | .wait :: _ => engineStep s
    | m :: rest => hostMoveBusy m { s with script := rest }

/-- The host script line `LOAD b0 b1 …` (R102). -/
def loadLine (bytes : List Byte) : List HostMove :=
  (bytes.zipIdx.map fun bi => HostMove.writeIbuf bi.2 bi.1) ++ [.writeCsr .srcLen (BitVec.ofNat 32 bytes.length)]

/-- The host script line `LEN n` (R102). -/
def lenLine (n : Word) : List HostMove := [.writeCsr .srcLen n]

/-- A mnemonic line (R102): the command's code to `CMD`, then the implicit `WAIT`. -/
def commandLine (i : Instr) : List HostMove :=
  match encode i with
  | op :: _ => [.writeCsr .cmd (op.setWidth 32), .wait]
  | [] => []

/-- The host script line `DUMPAT a n` (R102). -/
def dumpAtLine (a n : Nat) : List HostMove := (List.range n).map fun k => .readObuf (a + k)

/-- The host script line `DUMP` (R102), in the state it is reached in. -/
def dumpLine (s : State) : List HostMove := dumpAtLine 0 s.dstLen.toNat

end Sys2Proof.Machine
end

