-- ==== Sys2Proof/Machine/Step.lean ====
section
/-! DEFINITION. Sys2Proof/Machine/Step.lean: one step of the machine, and the placing of one opcode-table word where the
next step reads it. -/

namespace Sys2Proof.Machine

/-- One step of host and engine: the host's next move, or one item of the operation in progress. -/
def step (s : State) : Host.Outcome State Fault Refusal := machineStep s

/-- `bytes` in IBUF from index `i` on. -/
def State.withIbuf (s : State) (i : Nat) : List Byte → State
  | [] => s
  | b :: bs => State.withIbuf { s with ibuf := Mem.set s.ibuf i b } (i + 1) bs

/-- The engine waiting in TDES for its first token, `bytes` being all its tree bytes. -/
def State.withTreeBytes (s : State) (bytes : List Byte) : State :=
  { (s.withIbuf 2 bytes) with
    job := .tree false
    script := .wait :: s.script
    hdr := { s.hdr with tsize := BitVec.ofNat 13 bytes.length }
    srcLen := BitVec.ofNat 32 (2 + bytes.length)
    work := { s.work with tpos := 0#13, tstack := [.root] } }

/-- The engine waiting in UNPK for the first bit of a one-byte stream that begins with `d`, under the tree that `TREE`
holds, or a two-leaf tree where it holds none. -/
def State.withStreamBit (s : State) (d : Bool) : State :=
  let t := match s.tree with | some t => t | none => .node (.leaf 0#8) (.leaf 0#8)
  { (s.withIbuf 2 [if d then 0x80#8 else 0x00#8]) with
    job := .stream false
    script := .wait :: s.script
    tree := some t
    hdr := { pad := 7#3, tsize := 0#13 }
    srcLen := 3#32
    work := { s.work with cur := t, opos := 0#32, spos := 2#32, bidx := 0#3 } }

/-- The engine waiting in HDEC for the header word `h`. -/
def State.withHeader (s : State) (h : Hdr) : State :=
  { (s.withIbuf 0 [h.hiByte, h.loByte]) with
    job := .header false
    script := .wait :: s.script
    srcLen := if s.srcLen.toNat < 2 then 2#32 else s.srcLen }

/-- `s` with the instruction whose opcode-table bits are `w` placed where `step` reads it next (log entry 13, DESIGN
CHOICE, safe): a command as the host's next move, a header word, tree token or code bit in IBUF with the engine at that point of HDEC, TDES or
UNPK. -/
def State.withFetchWord (s : State) (nbits w : Nat) : State :=
  match decodeTableWord nbits w with
  | none => { s with job := .idle, script := .writeCsr .cmd (BitVec.ofNat 32 w) :: s.script }
  | some i =>
    match i with
    | .hdr pad tsize => s.withHeader { pad := pad, tsize := tsize }
    | .tEsc sym => s.withTreeBytes [Config.markEsc, sym]
    | .tNode => s.withTreeBytes [Config.markNode]
    | .tLeaf sym => s.withTreeBytes [sym]
    | .bLeft => s.withStreamBit false
    | .bRight => s.withStreamBit true
    | .freq | .build | .tser | .tdes | .cgen | .padc | .henc | .hdec | .pack | .unpk | .comp | .decomp | .clr =>
      { s with job := .idle, script := .writeCsr .cmd (BitVec.ofNat 32 w) :: s.script }

end Sys2Proof.Machine
end

