-- ==== Sys2Proof/Safety.lean ====
section
/-! DEFINITION. Sys2Proof/Safety.lean: what the statements are said in: when a command is accepted, the pure functions
the rules give for whole operations (`Count` R120, `Des` R145, `PackBits` R185, `Unpack` R202, `compress` R210), where
each operation writes OBUF (R76), which errors it can raise (R232), and the invariants. -/

namespace Sys2Proof.Machine

/-! ## Acceptance -/

/-- A command written now is run (R239): `BUSY` = 0 and `ERROR` = 0. -/
def State.Ready (s : State) : Prop := s.job = .idle ∧ s.status.err = none

/-- `SRC_LEN` <= `IBUF_CAP`: the operations that read IBUF do not raise AllocationFailure for the source (R235). -/
def State.SourceFits (s : State) : Prop := s.srcLen.toNat ≤ s.params.ibufCap.toNat

/-- The thirteen commands of R91, and not the header word, tokens and bits. -/
def isCommand (i : Instr) : Bool := decide (i.format = .cmd8)

/-! ## Trees -/

/-- The leaf symbols, left to right. -/
def Tree.leaves : Tree → List Byte
  | .leaf sym => [sym]
  | .node l r => l.leaves ++ r.leaves

/-- The number of nodes, leaves included (R143). -/
def Tree.nodes : Tree → Nat
  | .leaf _ => 1
  | .node l r => 1 + l.nodes + r.nodes

/-- The length of the longest path from the root to a leaf (R9). -/
def Tree.depth : Tree → Nat
  | .leaf _ => 0
  | .node l r => 1 + max l.depth r.depth

/-- The code of a symbol under a tree, where it has one (R160): the first leaf with it, left to right. -/
def Tree.codeOf (t : Tree) (b : Byte) : Option (List Bool) := t.codes.lookup b

/-- The frequency table of a byte sequence (R120). -/
def countTable (bytes : List Byte) : Table Word :=
  Vector.ofFn fun b => BitVec.ofNat 32 (bytes.count (BitVec.ofNat 8 b.val))

/-- R126's loop as a relation: `Merges q t`: from the queue `q` the merging ends with the tree `t`. -/
inductive Merges : List QEntry → Tree → Prop where
  | done (e : QEntry) : Merges [e] e.tree
  | merge (a b : QEntry) (q : List QEntry) (t : Tree) :
      Merges (pqInsert { freq := a.freq + b.freq, tree := .node a.tree b.tree } q) t → Merges (a :: b :: q) t

/-- The seeded queue as R125 describes it: exactly one leaf per byte value with a counter above 0, ascending in
(frequency, byte value). -/
structure SeededQueue (freq : Table Word) (q : List QEntry) : Prop where
  entries : ∀ e, e ∈ q ↔ ∃ b, 0 < (Table.at freq b).toNat ∧ e = { freq := (Table.at freq b).toNat, tree := .leaf b }
  sorted : q.Pairwise fun x y =>
    x.freq < y.freq ∨ (x.freq = y.freq ∧ ∃ a b, x.tree = .leaf a ∧ y.tree = .leaf b ∧ a.toNat < b.toNat)

/-- The tree BUILD makes from a table with a counter above 0 (R126). -/
def builtTree (freq : Table Word) : Option Tree := (builtQueue freq).head?.map fun e => e.tree

/-! ## The tree bytes -/

/-- `Sub()` of R145 on the bytes under the size bound, at most `fuel` levels deep: a subtree and the bytes after it. -/
def desSub : Nat → List Byte → Option (Tree × List Byte)
  | 0, _ => none
  | _ + 1, [] => none
  | fuel + 1, v :: rest =>
    if v = Config.markEsc then
      match rest with
      | [] => none
      | sym :: rest => some (.leaf sym, rest)
    else if v = Config.markNode then
      match desSub fuel rest with
      | none => none
      | some (l, rest) =>
        match desSub fuel rest with
        | none => none
        | some (r, rest) => some (.node l r, rest)
    else some (.leaf v, rest)

/-- `Des` of R145: the root subtree, where it takes exactly the bytes there are. -/
def des (bytes : List Byte) : Option Tree :=
  match desSub bytes.length bytes with
  | some (t, []) => some t
  | _ => none

/-- The tree bytes of a compressed buffer: `IBUF[2 .. 2+TSIZE-1]` (R144). -/
def State.treeInput (s : State) : List Byte :=
  (List.range s.hdr.tsize.toNat).map fun k => s.ibufByte (2 + k)

/-! ## The stream -/

/-- `Bits(s, c)` of R185. -/
def bitsOf (code : Table Code) (bytes : List Byte) : List Bool := bytes.flatMap fun b => (Table.at code b).bits

/-- The byte whose bit `7 - j` is `f j` (R63, R185). -/
def byteOf (f : Nat → Bool) : Byte := BitVec.ofNat 8 (bitsToNat ((List.range 8).map f))

/-- `PackBits` of R185 on the bit sequence: byte `k` holds bits `8k` to `8k+7`, the first in bit 7, 0 past the end. -/
def packBytes (bits : List Bool) : List Byte :=
  (List.range ((bits.length + 7) / 8)).map fun k => byteOf fun j => bits.getD (8 * k + j) false

/-- The bits of a byte sequence, each byte's most significant bit first (R63, R196). -/
def bitsOfBytes (bytes : List Byte) : List Bool := bytes.flatMap fun b => (List.range 8).map fun j => b.getLsbD (7 - j)

/-- The K stream bits UNPK consumes (R195, R196). -/
def State.streamInput (s : State) : List Bool :=
  (List.range s.streamLen).map fun k => (s.ibufByte (2 + s.hdr.tsize.toNat + k / 8)).getLsbD (7 - k % 8)

/-- The walk of R197 from the cursor `cur` under the tree `t` whose root is internal; none where the bits end inside a
code (R200). -/
def walkBits (t : Tree) : Tree → List Bool → Option (List Byte)
  | cur, [] => if cur = t then some [] else none
  | .leaf _, _ :: _ => none
  | .node l r, d :: ds =>
    match (if d then r else l) with
    | .leaf sym => (walkBits t t ds).map fun out => sym :: out
    | .node l' r' => walkBits t (.node l' r') ds

/-- `Unpack` of R202 on the stream bits; none is MalformedStream (R199, R200). -/
def unpackBits (t : Tree) (bits : List Bool) : Option (List Byte) :=
  match t with
  | .leaf sym => if bits.all (fun d => !d) then some (bits.map fun _ => sym) else none
  | .node l r => walkBits (.node l r) (.node l r) bits

/-- The bytes the walk of R197 emits from the cursor `cur` before the bits end. -/
def walkEmits (t : Tree) : Tree → List Bool → List Byte
  | _, [] => []
  | .leaf _, _ :: _ => []
  | .node l r, d :: ds =>
    match (if d then r else l) with
    | .leaf sym => sym :: walkEmits t t ds
    | .node l' r' => walkEmits t (.node l' r') ds

/-- The bytes UNPK emits before it ends or raises MalformedStream (R197, R199): under one leaf, one for each 0 bit before
the first 1 bit. -/
def emitsOf (t : Tree) (bits : List Bool) : List Byte :=
  match t with
  | .leaf sym => (bits.takeWhile fun d => !d).map fun _ => sym
  | .node l r => walkEmits (.node l r) (.node l r) bits

/-- The compressed buffer of a byte sequence (R101, R210): header, serialized tree, packed bits. -/
def compressed (bytes : List Byte) : List Byte :=
  match builtTree (countTable bytes) with
  | none => []
  | some t =>
    encodeHdr (padOf (countTable bytes) (codeTable t)) (BitVec.ofNat 13 t.ser.length)
      ++ t.ser ++ packBytes (bitsOf (codeTable t) bytes)

/-! ## Where operations write, and what they raise -/

/-- The OBUF indices a command or code bit that ends without error has written, seen from the state `s` before and the
state `t` after (R76). -/
def writesAt (i : Instr) (s t : State) (j : Nat) : Prop :=
  match i with
  | .henc => j < 2
  | .tser => 2 ≤ j ∧ j < 2 + t.hdr.tsize.toNat
  | .pack => 2 + s.hdr.tsize.toNat ≤ j ∧ j < t.dstLen.toNat
  | .unpk | .comp | .decomp => j < t.dstLen.toNat
  | .bLeft | .bRight => j = s.work.opos.toNat
  | .freq | .build | .tdes | .cgen | .padc | .hdec | .clr | .hdr _ _ | .tEsc _ | .tNode | .tLeaf _ => False

/-- The errors each command can raise (R232). -/
def canRaise : Instr → List ErrKind
  | .freq => [.allocationFailure]
  | .build => [.emptyInput, .badSequence]
  | .tser => [.allocationFailure, .unsupportedTreeSize, .badSequence]
  | .tdes => [.allocationFailure, .malformedHeader, .malformedTree, .badSequence]
  | .cgen => [.badSequence]
  | .padc => [.badSequence]
  | .henc => [.allocationFailure, .badSequence]
  | .hdec => [.allocationFailure, .malformedHeader]
  | .pack => [.allocationFailure, .badSequence]
  | .unpk => [.allocationFailure, .malformedHeader, .malformedStream, .badSequence]
  | .comp => [.allocationFailure, .emptyInput]
  | .decomp => [.allocationFailure, .malformedHeader, .malformedTree, .malformedStream]
  | .clr => []
  | .hdr _ _ => [.malformedHeader]
  | .tEsc _ | .tNode | .tLeaf _ => [.malformedTree]
  | .bLeft | .bRight => [.allocationFailure, .malformedStream]

/-! ## Invariants -/

/-- The form of a state that every step keeps. -/
structure State.Inv (s : State) : Prop where
  /-- The capacities are not 0 (R8). -/
  caps : 0 < s.params.ibufCap.toNat ∧ 0 < s.params.obufCap.toNat
  /-- The buffers are in canonical form and list only indices that exist (R60). -/
  ibufWf : Mem.wf s.ibuf
  obufWf : Mem.wf s.obuf
  ibufIn : ∀ c ∈ s.ibuf, c.1 < s.params.ibufCap.toNat
  obufIn : ∀ c ∈ s.obuf, c.1 < s.params.obufCap.toNat
  /-- `TREE_V` = 1 says that `TREE` holds a tree (R27). -/
  treeHeld : s.status.treeV = true → s.tree.isSome = true
  /-- `TREE_BUILT` is 0 whenever `TREE_V` is 0 (R27), and a built tree goes with the counts it was built from. -/
  builtFrom : s.status.treeBuilt = true → s.status.treeV = true ∧ s.status.freqV = true
  /-- A code table goes with the built tree it was made from (R161). -/
  codeFrom : s.status.codeV = true → s.status.treeBuilt = true
  /-- While `ERROR` = 1 the engine is idle and everything R236 clears is clear. -/
  errClear : s.status.err.isSome = true →
    s.job = .idle ∧ s.status.done = false ∧ s.dstLen = 0#32 ∧ s.status = s.status.clearValid
  /-- `DONE` is 0 while an operation is in progress (R27). -/
  doneIdle : s.status.done = true → s.job = .idle
  /-- A tree size that goes with counts was written by TSER, with its tree bytes (R141). -/
  treeRoom : s.status.freqV = true → s.status.tszV = true → 2 + s.hdr.tsize.toNat ≤ s.params.obufCap.toNat
  /-- Every index below `DST_LEN`, and below the walker's `OPOS`, exists in OBUF (R24). -/
  dstRoom : s.dstLen.toNat ≤ s.params.obufCap.toNat
  /-- The bytes that stand as HENC and TSER on their own wrote them are written ones, their indices rising (R61). -/
  ownWritten : ∀ j ∈ s.ownBytes, (Mem.get s.obuf j).isSome = true
  ownSorted : s.ownBytes.Pairwise fun x y => x < y
  oposRoom : ∀ w, s.job = .stream w → s.work.opos.toNat ≤ s.params.obufCap.toNat

/-- Each validity flag tells the truth about the state it guards (R27). While the engine is inside TDES, `TREE` is being
written. -/
structure State.FlagsTrue (s : State) : Prop where
  freqTrue : s.status.freqV = true → s.freq = countTable s.input
  treeTrue : s.status.treeBuilt = true → (∀ w, s.job ≠ .tree w) → s.tree = builtTree s.freq
  /-- The table itself, with the `pat` of a byte with no code at 0 (log entry 20, DESIGN CHOICE). -/
  codeTrue : s.status.codeV = true → ∃ t, builtTree s.freq = some t ∧ s.code = codeTable t
  padTrue : s.status.codeV = true → s.status.padV = true → s.hdr.pad = padOf s.freq s.code
  tszTrue : s.status.treeBuilt = true → s.status.tszV = true →
    ∃ t, builtTree s.freq = some t ∧ s.hdr.tsize.toNat = t.ser.length

end Sys2Proof.Machine
end

