-- ==== Sys2Proof/Certificates/Slice0/Obligations.lean ====
section
/-! DEFINITION. Sys2Proof/Certificates/Slice0/Obligations.lean: the statements for the provers. In an equation
`exec i s = .next { s.accept.finish with … }` every field that is not named is what it was in `s`, but for what
acceptance and the end of a command do: `DONE` 1, and the model's own fields `draws` and `hdrZero` (DESIGN CHOICE, log
entries 2, 5 and 15). `s.accept.raise e` is error entry (R236), stated field by field in ErrorEntryLeaves. Of the working
registers after an operation, which R20 leaves open (log entry 16), a statement about the operation says nothing (`work := w`
for some `w`); WorkingRegistersChangeOnlyWhereUsed says what the model does. `ownBytes`, the OBUF bytes HENC and TSER on
their own made valid (R61; log entry 4), has its own statements: OwnBytesReadAsWritten, OwnBytesStayUntilWrittenOver. -/

open Sys2Proof Sys2Proof.Machine

/-! ## Encodings -/

/-- Every well-formed instruction is read back from its bytes, whatever follows them (R91, R94, R96, R98). -/
def Obligations.DecodeReadsBackEncode : Prop :=
  ∀ (i : Instr) (rest : List Byte), i.wf = true → decode i.format (encode i ++ rest) = .ok (i, rest)

/-- Whatever a decoder reads is a well-formed instruction of its format whose bytes are the ones consumed. -/
def Obligations.EncodeGivesBackDecodedBytes : Prop :=
  ∀ (f : Format) (bs rest : List Byte) (i : Instr), decode f bs = .ok (i, rest) →
    i.format = f ∧ i.wf = true ∧ bs = encode i ++ rest

/-- A few words of each format, written out from R91, R93, R96 and R98. -/
def Obligations.SpecWordsDecode : Prop :=
  decode .cmd8 [0x10#8] = .ok (.comp, []) ∧ decode .cmd8 [0x1F#8] = .ok (.clr, []) ∧
  decode .hdr16 [0x80#8, 0x03#8] = .ok (.hdr 4#3 3#13, []) ∧
  decode .ttok [0x5C#8, 0x2A#8, 0x41#8] = .ok (.tEsc 0x2A#8, [0x41#8]) ∧
  decode .ttok [0x2A#8, 0x41#8] = .ok (.tNode, [0x41#8]) ∧ decode .ttok [0x41#8] = .ok (.tLeaf 0x41#8, []) ∧
  decode .cbit [0#8] = .ok (.bLeft, []) ∧ decode .cbit [1#8] = .ok (.bRight, [])

/-- R177: `HdrDec` undoes `HdrEnc` and `HdrEnc` undoes `HdrDec`. -/
def Obligations.HeaderCodecsAreInverse : Prop :=
  (∀ pad tsize b0 b1, encodeHdr pad tsize = [b0, b1] → decodeHdr b0 b1 = .hdr pad tsize) ∧
  (∀ b0 b1, ∃ pad tsize, decodeHdr b0 b1 = .hdr pad tsize ∧ encodeHdr pad tsize = [b0, b1] ∧
    pad.toNat * 8192 + tsize.toNat = b0.toNat * 256 + b1.toNat)

/-! ## The step -/

/-- The host's next move writes a command code: the step runs the command decoded from bits 7:0 (R26, R91). -/
def Obligations.StepRunsTheWrittenCommand : Prop :=
  ∀ (s : State) (v : Word) (rest : List HostMove) (i : Instr),
    s.job = .idle → s.script = .writeCsr .cmd v :: rest → decode .cmd8 [v.setWidth 8] = .ok (i, []) →
    step s = exec i { s with script := rest }

/-- Inside an operation, while the host makes no move or waits (R102), the step runs the item fetched at the engine's
position and moves the engine on; that the model has these positions is its own choice (log entry 12). -/
def Obligations.StepRunsTheFetchedItem : Prop :=
  ∀ (s : State) (i : Instr), s.job ≠ .idle → (s.script = [] ∨ ∃ rest, s.script = .wait :: rest) →
    fetchItem s = .ok i → step s = settleOutcome (exec i s)

/-- R233: a reserved code raises IllegalCommand and runs no operation. -/
def Obligations.ReservedCodeRaisesIllegalCommand : Prop :=
  ∀ (s : State) (v : Word) (rest : List HostMove), s.Ready → s.script = .writeCsr .cmd v :: rest →
    v.toNat % 256 ∉ [0x01, 0x02, 0x03, 0x04, 0x05, 0x06, 0x07, 0x08, 0x09, 0x0A, 0x10, 0x11, 0x1F] →
    step s = .next (State.raise .illegalCommand { s with script := rest })

/-- R237: while `ERROR` = 1 every command but CLR is ignored, and nothing changes; CLR is carried out. -/
def Obligations.ErrorIgnoresCommands : Prop :=
  ∀ (s : State), s.job = .idle → s.status.err.isSome = true →
    (∀ i, isCommand i = true → i ≠ .clr → exec i s = .next s) ∧
    (∀ v rest, s.script = .writeCsr .cmd v :: rest → v.setWidth 8 ≠ 0x1F#8 → step s = .next { s with script := rest }) ∧
    exec .clr s = .next s.clear

/-- R71: every command written while `BUSY` = 1 is ignored. That the host can write then is the model's choice (log entries
7 and 12). -/
def Obligations.BusyIgnoresCommands : Prop :=
  ∀ (s : State) (i : Instr), s.job ≠ .idle → isCommand i = true → exec i s = .next s

/-- Every instruction answers a next state in every state: none faults, none is refused. -/
def Obligations.ExecAlwaysAnswers : Prop := ∀ (i : Instr) (s : State), ∃ t, exec i s = .next t

/-! ## Errors -/

/-- R236: what error entry sets, clears and keeps; and that every error an instruction raises leaves that. -/
def Obligations.ErrorEntryLeaves : Prop :=
  (∀ (e : ErrKind) (s : State),
    (s.raise e).status = { done := false, err := some e, freqV := false, treeV := false, treeBuilt := false,
                           codeV := false, padV := false, tszV := false } ∧
    (s.raise e).busy = false ∧ (s.raise e).dstLen = 0#32 ∧ (s.raise e).srcLen = s.srcLen ∧
    (∀ k, (s.raise e).ibufByte k = s.ibufByte k)) ∧
  ∀ (i : Instr) (s t : State) (e : ErrKind), s.status.err = none → exec i s = .next t → t.status.err = some e →
    t.status = { done := false, err := some e, freqV := false, treeV := false, treeBuilt := false, codeV := false,
                 padV := false, tszV := false } ∧
    t.busy = false ∧ t.dstLen = 0#32 ∧ t.srcLen = s.srcLen ∧ t.ibuf = s.ibuf ∧ t.ibufDraw = s.ibufDraw ∧
    t.params = s.params ∧ t.script = s.script ∧ t.hostRead = s.hostRead

/-- R232: which command can raise which error. COMP's row holds because no input byte lacks a code and no built tree is
too long. -/
def Obligations.CommandsRaiseTheirOwnErrors : Prop :=
  ∀ (i : Instr) (s t : State) (e : ErrKind), isCommand i = true → s.status.err = none → exec i s = .next t →
    t.status.err = some e → e ∈ canRaise i

/-- R234: a required validity flag that is 0 raises BadSequence, before any other error; so does a byte without a
code, at PACK; the commands that require no flag never raise it. -/
def Obligations.MissingFlagRaisesBadSequence : Prop :=
  ∀ (s : State), s.Ready →
    (s.status.freqV = false → exec .build s = .next (s.accept.raise .badSequence)) ∧
    (s.status.treeV = false → exec .tser s = .next (s.accept.raise .badSequence)) ∧
    (s.status.tszV = false → exec .tdes s = .next (s.accept.raise .badSequence)) ∧
    (s.status.treeV = false ∨ s.status.treeBuilt = false → exec .cgen s = .next (s.accept.raise .badSequence)) ∧
    (s.status.freqV = false ∨ s.status.codeV = false → exec .padc s = .next (s.accept.raise .badSequence)) ∧
    (s.status.padV = false ∨ s.status.tszV = false → exec .henc s = .next (s.accept.raise .badSequence)) ∧
    (s.status.codeV = false ∨ s.status.tszV = false → exec .pack s = .next (s.accept.raise .badSequence)) ∧
    (s.status.treeV = false ∨ s.status.padV = false ∨ s.status.tszV = false →
      exec .unpk s = .next (s.accept.raise .badSequence)) ∧
    (∀ before b after, s.status.codeV = true → s.status.tszV = true → s.SourceFits →
      s.input = before ++ b :: after → (∀ x ∈ before, (Table.at s.code x).len ≠ 0#8) → (Table.at s.code b).len = 0#8 →
      2 + s.hdr.tsize.toNat + (bitsOf s.code before).length / 8 ≤ s.params.obufCap.toNat →
      exec .pack s = .next (s.accept.raise .badSequence)) ∧
    (∀ i t, i = .freq ∨ i = .hdec ∨ i = .comp ∨ i = .decomp ∨ i = .clr → exec i s = .next t →
      t.status.err ≠ some .badSequence)

/-- R235 (a): `SRC_LEN` above `IBUF_CAP` raises AllocationFailure in every operation that reads IBUF, once its flags are
there; COMP is among them, its `SRC_LEN` being above 0 then. -/
def Obligations.SourceTooLongRaisesAllocationFailure : Prop :=
  ∀ (s : State), s.Ready → s.params.ibufCap.toNat < s.srcLen.toNat →
    exec .freq s = .next (s.accept.raise .allocationFailure) ∧
    exec .hdec s = .next (s.accept.raise .allocationFailure) ∧
    exec .comp s = .next (s.accept.raise .allocationFailure) ∧
    exec .decomp s = .next (s.accept.raise .allocationFailure) ∧
    (s.status.tszV = true → exec .tdes s = .next (s.accept.raise .allocationFailure)) ∧
    (s.status.codeV = true → s.status.tszV = true → exec .pack s = .next (s.accept.raise .allocationFailure)) ∧
    (s.status.treeV = true → s.status.padV = true → s.status.tszV = true → s.tree.isSome = true →
      exec .unpk s = .next (s.accept.raise .allocationFailure))

/-! ## FREQ, BUILD -/

/-- R121: FREQ puts the counts of the input into `FREQ`; no counter wraps. -/
def Obligations.FreqCountsTheInput : Prop :=
  ∀ (s : State), s.Ready →
    (s.SourceFits →
      (∃ w, exec .freq s = .next { s.accept.finish with
        freq := countTable s.input
        work := w
        status := { s.status with done := true, freqV := true, treeV := false, treeBuilt := false, codeV := false,
                                  padV := false, tszV := false } }) ∧
      ∀ b : Byte, (Table.at (countTable s.input) b).toNat = s.input.count b) ∧
    (¬ s.SourceFits → exec .freq s = .next (s.accept.raise .allocationFailure))

/-- R123: PQ.INSERT puts the entry behind the entries whose frequency is at most its own, which stand in front, and the
queue stays ascending (R122). -/
def Obligations.InsertGoesBehindEqualFrequencies : Prop :=
  ∀ (e : QEntry) (q : List QEntry), q.Pairwise (fun x y => x.freq ≤ y.freq) →
    pqInsert e q = q.take (q.countP fun x => decide (x.freq ≤ e.freq)) ++
      e :: q.drop (q.countP fun x => decide (x.freq ≤ e.freq)) ∧
    (pqInsert e q).Pairwise (fun x y => x.freq ≤ y.freq)

/-- R126: BUILD merges the seeded queue of R125, first popped on the left, into the one tree it stores. -/
def Obligations.BuildMergesTheSeededQueue : Prop :=
  ∀ (s : State), s.Ready →
    (s.status.freqV = true → (∃ b, 0 < (Table.at s.freq b).toNat) →
      ∃ q t w, SeededQueue s.freq q ∧ Merges q t ∧
        exec .build s = .next { s.accept.finish with
          tree := some t
          pq := []
          work := w
          status := { s.status with done := true, treeV := true, treeBuilt := true, codeV := false, padV := false,
                                    tszV := false } }) ∧
    (s.status.freqV = true → (∀ b, (Table.at s.freq b).toNat = 0) →
      exec .build s = .next (s.accept.raise .emptyInput)) ∧
    (s.status.freqV = false → exec .build s = .next (s.accept.raise .badSequence))

/-- R129 (a) to (c), R9: the leaves of a built tree are the counted byte values, each once; 2L - 1 nodes; the root's
frequency is the sum of the counters; no path is longer than 255. -/
def Obligations.BuiltTreeHasTheCountedLeaves : Prop :=
  ∀ (freq : Table Word), (∃ b, 0 < (Table.at freq b).toNat) →
    ∃ e, builtQueue freq = [e] ∧ e.tree.leaves.Nodup ∧ (∀ b, b ∈ e.tree.leaves ↔ 0 < (Table.at freq b).toNat) ∧
      e.tree.nodes + 1 = 2 * e.tree.leaves.length ∧ e.freq = (freq.toList.map fun f => f.toNat).sum ∧
      e.tree.depth ≤ 255

/-! ## The tree codec -/

/-- R141: TSER writes `Ser(TREE)` from `OBUF[2]` on and its length to `HDR.TSIZE`; the error of the first byte that
cannot be written ends it. -/
def Obligations.TserWritesTheSerializedTree : Prop :=
  ∀ (s : State), s.Ready →
    (∀ t, s.status.treeV = true → s.tree = some t →
      (t.ser.length ≤ 8191 → 2 + t.ser.length ≤ s.params.obufCap.toNat →
        ∃ m w o, exec .tser s = .next { s.accept.finish with
            obuf := m
            hdr := { s.hdr with tsize := BitVec.ofNat 13 t.ser.length }
            ownBytes := o
            work := w
            status := { s.status with done := true, tszV := true } } ∧
          ∀ j, Mem.get m j = if 2 ≤ j ∧ j < 2 + t.ser.length then t.ser[j - 2]? else Mem.get s.obuf j) ∧
      (s.params.obufCap.toNat < 2 + t.ser.length → s.params.obufCap.toNat < 2 + 8191 →
        exec .tser s = .next (s.accept.raise .allocationFailure)) ∧
      (8191 < t.ser.length → 2 + 8191 ≤ s.params.obufCap.toNat →
        exec .tser s = .next (s.accept.raise .unsupportedTreeSize))) ∧
    (s.status.treeV = false → exec .tser s = .next (s.accept.raise .badSequence))

/-- R143: one byte per node and one more per leaf that needs the escape; a built tree takes 1 to 513 bytes. -/
def Obligations.SerializedLengthCounts : Prop :=
  (∀ t : Machine.Tree, t.ser.length = t.nodes + t.leaves.countP needsEscape) ∧
  (∀ (freq : Table Word) (t : Machine.Tree), builtTree freq = some t → 1 ≤ t.ser.length ∧ t.ser.length ≤ 513)

/-- R149: a serialized tree is read back as the tree; what is read serializes to the bytes it was read from, but for the
escapes before ordinary symbols, each of which makes it one byte shorter. -/
def Obligations.TreeCodecsAreInverse : Prop :=
  (∀ t : Machine.Tree, des t.ser = some t) ∧
  (∀ (bytes : List Byte) (t : Machine.Tree), des bytes = some t →
    ∃ toks : List Instr, bytes = toks.flatMap encode ∧ (∀ i ∈ toks, i.format = .ttok ∧ i.wf = true) ∧
      t.ser.length + toks.countP (fun i => match i with | .tEsc sym => !needsEscape sym | _ => false) = bytes.length ∧
      ((∀ sym, .tEsc sym ∈ toks → needsEscape sym = true) → t.ser = bytes))

/-- R147: TDES, run token by token, stores the tree that `Des` gives the declared bytes, and raises MalformedTree where
`Des` fails. -/
def Obligations.TdesStoresTheDeserializedTree : Prop :=
  ∀ (s : State), s.Ready →
    (s.status.tszV = false → exec .tdes s = .next (s.accept.raise .badSequence)) ∧
    (s.status.tszV = true → ¬ s.SourceFits → exec .tdes s = .next (s.accept.raise .allocationFailure)) ∧
    (s.status.tszV = true → s.SourceFits → s.srcLen.toNat < 2 + s.hdr.tsize.toNat →
      exec .tdes s = .next (s.accept.raise .malformedHeader)) ∧
    (s.status.tszV = true → s.SourceFits → 2 + s.hdr.tsize.toNat ≤ s.srcLen.toNat →
      (des s.treeInput = none → exec .tdes s = .next (s.accept.raise .malformedTree)) ∧
      (∀ t, des s.treeInput = some t →
        ∃ w, exec .tdes s = .next { s.accept.finish with
          tree := some t
          work := w
          status := { s.status with done := true, treeV := true, treeBuilt := false, codeV := false } }))

/-- R145, one token: a leaf token closes a subtree at the innermost open place, a node token opens a left place; a token
past the declared size, or after the root is complete, is malformed (R148). That a token can be executed on its own is the
model's choice (log entry 12). -/
def Obligations.TreeTokensTakeEffect : Prop :=
  ∀ (s : State) (sym : Byte),
    (s.work.tstack ≠ [] → s.work.tpos.toNat + 2 ≤ s.hdr.tsize.toNat →
      exec (.tEsc sym) s = .next { s with
        tree := (closeSubtree (.leaf sym) s.work.tstack).1.or s.tree
        work := { s.work with tpos := s.work.tpos + 2#13, tstack := (closeSubtree (.leaf sym) s.work.tstack).2 } }) ∧
    (s.work.tstack ≠ [] → s.work.tpos.toNat + 1 ≤ s.hdr.tsize.toNat →
      exec (.tLeaf sym) s = .next { s with
        tree := (closeSubtree (.leaf sym) s.work.tstack).1.or s.tree
        work := { s.work with tpos := s.work.tpos + 1#13, tstack := (closeSubtree (.leaf sym) s.work.tstack).2 } } ∧
      exec .tNode s = .next { s with
        work := { s.work with tpos := s.work.tpos + 1#13, tstack := .left :: s.work.tstack } }) ∧
    (s.work.tstack = [] ∨ s.hdr.tsize.toNat < s.work.tpos.toNat + 2 →
      exec (.tEsc sym) s = .next (s.raise .malformedTree)) ∧
    (s.work.tstack = [] ∨ s.hdr.tsize.toNat < s.work.tpos.toNat + 1 →
      exec (.tLeaf sym) s = .next (s.raise .malformedTree) ∧ exec .tNode s = .next (s.raise .malformedTree))

/-! ## Codes and padding -/

/-- R161: CGEN gives each leaf of a built tree its path, first branch first, and every other byte no code. -/
def Obligations.CgenGivesEachLeafItsPath : Prop :=
  ∀ (s : State), s.Ready →
    (∀ t, s.status.treeV = true → s.status.treeBuilt = true → s.tree = some t → t.leaves.Nodup → t.depth ≤ 255 →
      ∃ c w, exec .cgen s = .next { s.accept.finish with
          code := c
          work := w
          status := { s.status with done := true, codeV := true, padV := false } } ∧
        ∀ b, (Table.at c b).bits = (t.codeOf b).getD [] ∧ ((Table.at c b).len = 0#8 ↔ b ∉ t.leaves)) ∧
    (s.status.treeV = false ∨ s.status.treeBuilt = false → exec .cgen s = .next (s.accept.raise .badSequence))

/-- R163: under distinct leaf symbols no code begins with another one. -/
def Obligations.NoCodeIsAnothersBeginning : Prop :=
  ∀ (t : Machine.Tree), t.leaves.Nodup → ∀ x ∈ t.codes, ∀ y ∈ t.codes, x.2 <+: y.2 → x = y

/-- R166: PADC leaves (original bits - encoded bits) mod 8 in `HDR.PAD`; the sums run over the 256 byte values. -/
def Obligations.PadcComputesThePadding : Prop :=
  ∀ (s : State), s.Ready →
    (s.status.freqV = true → s.status.codeV = true →
      ∃ (p : BitVec 3) (w : Work), exec .padc s = .next { s.accept.finish with
          hdr := { s.hdr with pad := p }
          work := w
          status := { s.status with done := true, padV := true } } ∧
        (p.toNat : Int) =
          ((∑ b : Fin 256, (s.freq[b]).toNat * 8 : Nat) - (∑ b : Fin 256, (s.freq[b]).toNat * (s.code[b]).len.toNat : Nat)
            : Int) % 8) ∧
    (s.status.freqV = false ∨ s.status.codeV = false → exec .padc s = .next (s.accept.raise .badSequence))

/-- R165: since the original bits are whole bytes, the padding is (8 - encoded bits mod 8) mod 8. -/
def Obligations.PaddingCompletesTheLastByte : Prop :=
  ∀ (freq : Table Word) (code : Table Code), (padOf freq code).toNat = (8 - encodedBits freq code % 8) % 8

/-- R167 (`CNT` keeps its value through the last flush: log entry 16): after PACK over the same counts and codes the packer's bit count complements the padding, and the stream has
(encoded bits + PAD) div 8 bytes, which is encoded bits / 8 rounded up. -/
def Obligations.PackerAgreesWithTheCalculator : Prop :=
  ∀ (s t : State), s.Ready → exec .pack s = .next t → t.status.err = none → s.freq = countTable s.input →
    (8 - t.work.cnt.toNat) % 8 = (padOf s.freq s.code).toNat ∧
    t.dstLen.toNat = 2 + s.hdr.tsize.toNat + (encodedBits s.freq s.code + (padOf s.freq s.code).toNat) / 8 ∧
    (encodedBits s.freq s.code + (padOf s.freq s.code).toNat) / 8 = (encodedBits s.freq s.code + 7) / 8

/-! ## The header -/

/-- R176: HENC stores `HDR` big-endian in `OBUF[0..1]`. -/
def Obligations.HencStoresTheHeader : Prop :=
  ∀ (s : State), s.Ready →
    (s.status.padV = true → s.status.tszV = true → 2 ≤ s.params.obufCap.toNat →
      ∃ m hi lo w o, exec .henc s = .next { s.accept.finish with
          obuf := m
          ownBytes := o
          work := w
          status := { s.status with done := true } } ∧
        (∀ j, Mem.get m j = if j = 0 then some hi else if j = 1 then some lo else Mem.get s.obuf j) ∧
        hi.toNat * 256 + lo.toNat = s.hdr.pad.toNat * 8192 + s.hdr.tsize.toNat) ∧
    (s.status.padV = true → s.status.tszV = true → s.params.obufCap.toNat < 2 →
      exec .henc s = .next (s.accept.raise .allocationFailure)) ∧
    (s.status.padV = false ∨ s.status.tszV = false → exec .henc s = .next (s.accept.raise .badSequence))

/-- R179: HDEC takes the big-endian header of `IBUF[0..1]` into `HDR`, where it is consistent with `SRC_LEN` (R178). -/
def Obligations.HdecTakesTheHeader : Prop :=
  ∀ (s : State) (pad : BitVec 3) (tsize : BitVec 13), s.Ready →
    pad.toNat * 8192 + tsize.toNat = (s.ibufByte 0).toNat * 256 + (s.ibufByte 1).toNat →
    (¬ s.SourceFits → exec .hdec s = .next (s.accept.raise .allocationFailure)) ∧
    (s.SourceFits → 2 ≤ s.srcLen.toNat ∧ 2 + tsize.toNat ≤ s.srcLen.toNat ∧
        (s.srcLen.toNat = 2 + tsize.toNat → pad = 0#3) →
      ∃ w, exec .hdec s = .next { s.accept.finish with
        hdr := { pad := pad, tsize := tsize }
        work := w
        status := { s.status with done := true, padV := true, tszV := true, freqV := false, treeV := false,
                                  treeBuilt := false, codeV := false } }) ∧
    (s.SourceFits → ¬ (2 ≤ s.srcLen.toNat ∧ 2 + tsize.toNat ≤ s.srcLen.toNat ∧
        (s.srcLen.toNat = 2 + tsize.toNat → pad = 0#3)) →
      exec .hdec s = .next (s.accept.raise .malformedHeader))

/-- R178: the header word on its own: its fields to `HDR` where they fit the buffer, else MalformedHeader. That it can be
executed on its own is the model's choice (log entry 12). -/
def Obligations.HeaderWordTakesEffect : Prop :=
  ∀ (s : State) (pad : BitVec 3) (tsize : BitVec 13),
    (2 ≤ s.srcLen.toNat ∧ 2 + tsize.toNat ≤ s.srcLen.toNat ∧ (s.srcLen.toNat = 2 + tsize.toNat → pad = 0#3) →
      exec (.hdr pad tsize) s = .next { s with hdr := { pad := pad, tsize := tsize } }) ∧
    (¬ (2 ≤ s.srcLen.toNat ∧ 2 + tsize.toNat ≤ s.srcLen.toNat ∧ (s.srcLen.toNat = 2 + tsize.toNat → pad = 0#3)) →
      exec (.hdr pad tsize) s = .next (s.raise .malformedHeader))

/-! ## The packer -/

/-- R187: PACK writes the packed bits of the input behind the tree and counts header, tree and stream in `DST_LEN`; or the
error of the byte without a code, or of the stream byte that has no place, whichever is met first. -/
def Obligations.PackWritesThePackedBits : Prop :=
  ∀ (s : State), s.Ready →
    (s.status.codeV = true → s.status.tszV = true → s.SourceFits →
      (∀ b ∈ s.input, (Table.at s.code b).len ≠ 0#8) →
      (2 + s.hdr.tsize.toNat + (packBytes (bitsOf s.code s.input)).length ≤ s.params.obufCap.toNat →
        ∃ m w o, exec .pack s = .next { s.accept.finish with
            obuf := m
            dstLen := BitVec.ofNat 32 (2 + s.hdr.tsize.toNat + (packBytes (bitsOf s.code s.input)).length)
            work := w
            ownBytes := o
            status := { s.status with done := true } } ∧
          ∀ j, Mem.get m j =
            if 2 + s.hdr.tsize.toNat ≤ j ∧ j < 2 + s.hdr.tsize.toNat + (packBytes (bitsOf s.code s.input)).length
            then (packBytes (bitsOf s.code s.input))[j - (2 + s.hdr.tsize.toNat)]? else Mem.get s.obuf j) ∧
      (packBytes (bitsOf s.code s.input) ≠ [] →
        s.params.obufCap.toNat < 2 + s.hdr.tsize.toNat + (packBytes (bitsOf s.code s.input)).length →
        exec .pack s = .next (s.accept.raise .allocationFailure))) ∧
    (∀ before b after, s.status.codeV = true → s.status.tszV = true → s.SourceFits →
      s.input = before ++ b :: after → (∀ x ∈ before, (Table.at s.code x).len ≠ 0#8) → (Table.at s.code b).len = 0#8 →
      (2 + s.hdr.tsize.toNat + (bitsOf s.code before).length / 8 ≤ s.params.obufCap.toNat ∨
          (bitsOf s.code before).length < 8 → exec .pack s = .next (s.accept.raise .badSequence)) ∧
      (s.params.obufCap.toNat < 2 + s.hdr.tsize.toNat + (bitsOf s.code before).length / 8 →
        8 ≤ (bitsOf s.code before).length → exec .pack s = .next (s.accept.raise .allocationFailure))) ∧
    (s.status.codeV = true → s.status.tszV = true → ¬ s.SourceFits →
      exec .pack s = .next (s.accept.raise .allocationFailure)) ∧
    (s.status.codeV = false ∨ s.status.tszV = false → exec .pack s = .next (s.accept.raise .badSequence))

/-- R186: PACK.BIT keeps the bits of `ACC` that hold no code bit yet at 0. -/
def Obligations.PackBitKeepsFreeBitsZero : Prop :=
  ∀ (d : Bool) (s t : State), (∀ k, k < 8 - s.work.cnt.toNat → s.work.acc.getLsbD k = false) → packBit d s = .ok t →
    ∀ k, k < 8 - t.work.cnt.toNat → t.work.acc.getLsbD k = false

/-- R188: the barrel shifter appends a whole code as `len` steps of PACK.BIT do. -/
def Obligations.BarrelShifterEqualsBitSerial : Prop :=
  ∀ (c : Code) (s : State), c.len ≠ 0#8 → c.pat.toNat < 2 ^ c.len.toNat →
    (∀ k, k < 8 - s.work.cnt.toNat → s.work.acc.getLsbD k = false) → packCode c s = packBits c.bits s

/-! ## The unpacker -/

/-- R197 and R199, one code bit: WALK.STEP under an internal root, ONELEAF.STEP under a one-leaf tree; the bit is
consumed (R22, R24). That a bit can be executed on its own is the model's choice (log entry 12), and so is that `SPOS` and
`BIDX` move on after it (log entry 16). -/
def Obligations.CodeBitsWalkTheTree : Prop :=
  ∀ (s : State) (d : Bool) (i : Instr), i = (if d then .bRight else .bLeft) →
    (∀ l r a b, s.tree = some (.node l r) → s.work.cur = .node a b →
      (∀ sym, (if d then b else a) = .leaf sym → s.work.opos.toNat < s.params.obufCap.toNat →
        exec i s = .next { s with
          obuf := Mem.set s.obuf s.work.opos.toNat sym
          work := { s.work with
            opos := s.work.opos + 1#32, cur := .node l r, bidx := s.work.bidx + 1#3
            spos := if s.work.bidx = 7#3 then s.work.spos + 1#32 else s.work.spos } }) ∧
      (∀ sym, (if d then b else a) = .leaf sym → s.params.obufCap.toNat ≤ s.work.opos.toNat →
        exec i s = .next (s.raise .allocationFailure)) ∧
      (∀ l' r', (if d then b else a) = .node l' r' →
        exec i s = .next { s with
          work := { s.work with
            cur := .node l' r', bidx := s.work.bidx + 1#3
            spos := if s.work.bidx = 7#3 then s.work.spos + 1#32 else s.work.spos } })) ∧
    (∀ sym, s.tree = some (.leaf sym) → d = false → s.work.opos.toNat < s.params.obufCap.toNat →
      exec i s = .next { s with
        obuf := Mem.set s.obuf s.work.opos.toNat sym
        work := { s.work with
          opos := s.work.opos + 1#32, bidx := s.work.bidx + 1#3
          spos := if s.work.bidx = 7#3 then s.work.spos + 1#32 else s.work.spos } }) ∧
    (∀ sym, s.tree = some (.leaf sym) → d = false → s.params.obufCap.toNat ≤ s.work.opos.toNat →
      exec i s = .next (s.raise .allocationFailure)) ∧
    (∀ sym, s.tree = some (.leaf sym) → d = true → exec i s = .next (s.raise .malformedStream))

/-- R198: UNPK emits what `Unpack` (R202) gives the K stream bits; where it gives nothing it raises MalformedStream (R199,
R200), or AllocationFailure where a byte emitted before that has no place. -/
def Obligations.UnpkEmitsTheDecodedBytes : Prop :=
  ∀ (s : State), s.Ready →
    (s.status.treeV = false ∨ s.status.padV = false ∨ s.status.tszV = false →
      exec .unpk s = .next (s.accept.raise .badSequence)) ∧
    (∀ t, s.status.treeV = true → s.status.padV = true → s.status.tszV = true → s.tree = some t →
      (¬ s.SourceFits → exec .unpk s = .next (s.accept.raise .allocationFailure)) ∧
      (s.SourceFits → hdrConsistent s.hdr.pad.toNat s.hdr.tsize.toNat s.srcLen.toNat = false →
        exec .unpk s = .next (s.accept.raise .malformedHeader)) ∧
      (s.SourceFits → hdrConsistent s.hdr.pad.toNat s.hdr.tsize.toNat s.srcLen.toNat = true →
        (∀ out, unpackBits t s.streamInput = some out → out.length ≤ s.params.obufCap.toNat →
          ∃ m w o, exec .unpk s = .next { s.accept.finish with
              obuf := m
              dstLen := BitVec.ofNat 32 out.length
              work := w
              ownBytes := o
              status := { s.status with done := true } } ∧
            ∀ j, Mem.get m j = if j < out.length then out[j]? else Mem.get s.obuf j) ∧
        (∀ out, unpackBits t s.streamInput = some out → s.params.obufCap.toNat < out.length →
          exec .unpk s = .next (s.accept.raise .allocationFailure)) ∧
        (unpackBits t s.streamInput = none → (emitsOf t s.streamInput).length ≤ s.params.obufCap.toNat →
          exec .unpk s = .next (s.accept.raise .malformedStream)) ∧
        (unpackBits t s.streamInput = none → s.params.obufCap.toNat < (emitsOf t s.streamInput).length →
          exec .unpk s = .next (s.accept.raise .allocationFailure))))

/-- R202: unpacking the packed bits of a byte sequence, under the tree and with the code and padding its counts give, gives
it back. The counters have 32 bits (R8), so its length is below 2^32. -/
def Obligations.UnpackUndoesPack : Prop :=
  ∀ (bytes : List Byte) (t : Machine.Tree), bytes ≠ [] → bytes.length < 2 ^ 32 → builtTree (countTable bytes) = some t →
    unpackBits t ((bitsOfBytes (packBytes (bitsOf (codeTable t) bytes))).take
      (8 * (packBytes (bitsOf (codeTable t) bytes)).length - (padOf (countTable bytes) (codeTable t)).toNat)) = some bytes

/-- R100: the padding bits of the last stream byte are never read: with other padding bits UNPK does the same. -/
def Obligations.PaddingBitsAreNotRead : Prop :=
  ∀ (s t : State) (v : Byte), 2 + s.hdr.tsize.toNat < s.srcLen.toNat →
    (∀ k, s.hdr.pad.toNat ≤ k → k < 8 → v.getLsbD k = (s.ibufByte (s.srcLen.toNat - 1)).getLsbD k) →
    exec .unpk s = .next t →
    exec .unpk { s with ibuf := Mem.set s.ibuf (s.srcLen.toNat - 1) v } =
      .next { t with ibuf := Mem.set s.ibuf (s.srcLen.toNat - 1) v }

/-! ## The orchestrators -/

/-- R210: COMP leaves header, serialized tree and packed bits of the input in OBUF, and its tables, the code table said by
the bits of its codes (R161); or the first error. -/
def Obligations.CompProducesTheFile : Prop :=
  ∀ (s : State), s.Ready →
    (s.srcLen = 0#32 → exec .comp s = .next (s.accept.raise .emptyInput)) ∧
    (s.srcLen ≠ 0#32 → ¬ s.SourceFits → exec .comp s = .next (s.accept.raise .allocationFailure)) ∧
    (s.srcLen ≠ 0#32 → s.SourceFits → s.params.obufCap.toNat < (compressed s.input).length →
      exec .comp s = .next (s.accept.raise .allocationFailure)) ∧
    (s.srcLen ≠ 0#32 → s.SourceFits → (compressed s.input).length ≤ s.params.obufCap.toNat →
      ∃ t c m w o, builtTree (countTable s.input) = some t ∧
        exec .comp s = .next { s.accept.finish with
          freq := countTable s.input
          tree := some t
          pq := []
          code := c
          hdr := { pad := padOf (countTable s.input) c, tsize := BitVec.ofNat 13 t.ser.length }
          obuf := m
          dstLen := BitVec.ofNat 32 (compressed s.input).length
          work := w
          ownBytes := o
          status := { done := true, err := none, freqV := true, treeV := true, treeBuilt := true, codeV := true,
                      padV := true, tszV := true } } ∧
        (∀ b, (Table.at c b).bits = (t.codeOf b).getD [] ∧ ((Table.at c b).len = 0#8 ↔ b ∉ t.leaves)) ∧
        ∀ j, Mem.get m j =
          if j < (compressed s.input).length then (compressed s.input)[j]? else Mem.get s.obuf j)

/-- R211: DECOMP takes the header, the tree and the stream from IBUF and leaves the decoded bytes in OBUF; or the first
error, in the order header, tree, stream. -/
def Obligations.DecompExpandsTheFile : Prop :=
  ∀ (s u : State) (pad : BitVec 3) (tsize : BitVec 13), s.Ready →
    pad.toNat * 8192 + tsize.toNat = (s.ibufByte 0).toNat * 256 + (s.ibufByte 1).toNat →
    u = { s with hdr := { pad := pad, tsize := tsize } } →
    (¬ s.SourceFits → exec .decomp s = .next (s.accept.raise .allocationFailure)) ∧
    (s.SourceFits → (hdrConsistent pad.toNat tsize.toNat s.srcLen.toNat = false) →
      exec .decomp s = .next (s.accept.raise .malformedHeader)) ∧
    (s.SourceFits → hdrConsistent pad.toNat tsize.toNat s.srcLen.toNat = true →
      (des u.treeInput = none → exec .decomp s = .next (s.accept.raise .malformedTree)) ∧
      (∀ t, des u.treeInput = some t → unpackBits t u.streamInput = none →
        ((emitsOf t u.streamInput).length ≤ s.params.obufCap.toNat →
          exec .decomp s = .next (s.accept.raise .malformedStream)) ∧
        (s.params.obufCap.toNat < (emitsOf t u.streamInput).length →
          exec .decomp s = .next (s.accept.raise .allocationFailure))) ∧
      (∀ t out, des u.treeInput = some t → unpackBits t u.streamInput = some out →
        s.params.obufCap.toNat < out.length → exec .decomp s = .next (s.accept.raise .allocationFailure)) ∧
      (∀ t out, des u.treeInput = some t → unpackBits t u.streamInput = some out →
        out.length ≤ s.params.obufCap.toNat →
        ∃ m w o, exec .decomp s = .next { s.accept.finish with
            hdr := { pad := pad, tsize := tsize }
            tree := some t
            obuf := m
            dstLen := BitVec.ofNat 32 out.length
            work := w
            ownBytes := o
            status := { done := true, err := none, freqV := false, treeV := true, treeBuilt := false, codeV := false,
                        padV := true, tszV := true } } ∧
          ∀ j, Mem.get m j = if j < out.length then out[j]? else Mem.get s.obuf j))

/-- R213: the round-trip law. COMP ended with `DONE`; its output stands in the IBUF of a machine that is ready and has
room: DECOMP gives back the input. -/
def Obligations.DecompUndoesComp : Prop :=
  ∀ (s t u : State), s.Ready → exec .comp s = .next t → t.status.done = true →
    u.Ready → u.srcLen = t.dstLen → (∀ j, j < t.dstLen.toNat → u.ibufByte j = t.obufByte j) →
    u.SourceFits → s.srcLen.toNat ≤ u.params.obufCap.toNat →
    ∃ v, exec .decomp u = .next v ∧ v.status.done = true ∧ v.dstLen = s.srcLen ∧
      ∀ j, j < s.srcLen.toNat → v.obufByte j = s.ibufByte j

/-- R214: the sizes of what COMP and DECOMP leave. -/
def Obligations.OutputSizes : Prop :=
  (∀ (s t : State), s.Ready → exec .comp s = .next t → t.status.done = true →
    t.dstLen.toNat = 2 + t.hdr.tsize.toNat + (encodedBits t.freq t.code + 7) / 8 ∧
    1 ≤ t.hdr.tsize.toNat ∧ t.hdr.tsize.toNat ≤ 513 ∧
    s.srcLen.toNat ≤ encodedBits t.freq t.code ∧ encodedBits t.freq t.code ≤ 255 * s.srcLen.toNat) ∧
  (∀ (s t : State), s.Ready → exec .decomp s = .next t → t.status.done = true →
    t.dstLen.toNat ≤ 8 * (s.srcLen.toNat - 2 - t.hdr.tsize.toNat) - t.hdr.pad.toNat)

/-- R216: what COMP and DECOMP leave is a function of the input and the capacities alone: `STATUS`, `DST_LEN`, the valid
part of OBUF and, without an error, `HDR`. -/
def Obligations.CallsAreIndependent : Prop :=
  ∀ (s₁ s₂ t₁ t₂ : State) (i : Instr), i = .comp ∨ i = .decomp → s₁.Ready → s₂.Ready → s₁.params = s₂.params →
    s₁.srcLen = s₂.srcLen → (∀ k, k < s₁.srcLen.toNat → s₁.ibufByte k = s₂.ibufByte k) →
    exec i s₁ = .next t₁ → exec i s₂ = .next t₂ →
    t₁.statusWord = t₂.statusWord ∧ t₁.dstLen = t₂.dstLen ∧ (t₁.status.err = none → t₁.hdr = t₂.hdr) ∧
    ∀ j, j < t₁.dstLen.toNat → t₁.obufByte j = t₂.obufByte j

/-- R212: CLR leaves the state of reset, but IBUF and `SRC_LEN` keep their values; it is accepted with and without an
error. -/
def Obligations.ClrRestoresTheResetState : Prop :=
  ∀ (s : State), s.job = .idle →
    ∃ t, exec .clr s = .next t ∧ t.statusWord = 0#16 ∧ t.hdrRead.word = 0#16 ∧ t.dstLen = 0#32 ∧ t.tree = none ∧
      t.pq = [] ∧ t.ibuf = s.ibuf ∧ t.ibufDraw = s.ibufDraw ∧ t.srcLen = s.srcLen ∧ t.params = s.params ∧
      t.job = .idle ∧ (∀ r, r ≠ .srcLen → t.csrRead r = 0#32) ∧ (∀ j, t.obufValid j = false)

/-! ## Registers, host moves, reset -/

/-- R27: where each field stands in `STATUS`; bits 3 and 15:14 read 0. R231: the number of each error kind. -/
def Obligations.StatusFieldsStandInPlace : Prop :=
  (ErrKind.code .allocationFailure = 1#4 ∧ ErrKind.code .emptyInput = 2#4 ∧ ErrKind.code .malformedHeader = 3#4 ∧
    ErrKind.code .malformedTree = 4#4 ∧ ErrKind.code .malformedStream = 5#4 ∧
    ErrKind.code .unsupportedTreeSize = 6#4 ∧ ErrKind.code .illegalCommand = 7#4 ∧ ErrKind.code .badSequence = 8#4) ∧
  ∀ (s : State), s.statusWord.getLsbD 0 = s.busy ∧ s.statusWord.getLsbD 1 = s.status.done ∧
    s.statusWord.getLsbD 2 = s.status.err.isSome ∧ s.statusWord.getLsbD 3 = false ∧
    s.statusWord.extractLsb' 4 4 = (match s.status.err with | none => 0#4 | some e => e.code) ∧
    s.statusWord.getLsbD 8 = s.status.freqV ∧ s.statusWord.getLsbD 9 = s.status.treeV ∧
    s.statusWord.getLsbD 10 = s.status.treeBuilt ∧ s.statusWord.getLsbD 11 = s.status.codeV ∧
    s.statusWord.getLsbD 12 = s.status.padV ∧ s.statusWord.getLsbD 13 = s.status.tszV ∧
    s.statusWord.extractLsb' 14 2 = 0#2

/-- R70, R71: the host's writes while `BUSY` = 0. A write to IBUF or `SRC_LEN` changes nothing but what it names, the
validity flags, and the model's own fields `draws` and `hdrZero` (DESIGN CHOICE, log entries 2 and 5). -/
def Obligations.HostWritesTakeEffect : Prop :=
  ∀ (s : State) (rest : List HostMove), s.job = .idle →
    (∀ i v, s.script = .writeIbuf i v :: rest → i < s.params.ibufCap.toNat →
      ∃ m d h t, step s = .next t ∧
        t = { s with
          script := rest
          ibuf := m
          draws := d
          hdrZero := h
          status := { s.status with freqV := false, treeV := false, treeBuilt := false, codeV := false, padV := false,
                                    tszV := false } } ∧
        ∀ k, t.ibufByte k = if k = i then v else s.ibufByte k) ∧
    (∀ v, s.script = .writeCsr .srcLen v :: rest →
      ∃ d h, step s = .next { s with
        script := rest
        srcLen := v
        draws := d
        hdrZero := h
        status := { s.status with freqV := false, treeV := false, treeBuilt := false, codeV := false, padV := false,
                                  tszV := false } }) ∧
    (∀ r v, s.script = .writeCsr r v :: rest → r = .status ∨ r = .hdr ∨ r = .dstLen →
      step s = .next { s with script := rest }) ∧
    (∀ j v, s.script = .writeObuf j v :: rest → j < s.params.obufCap.toNat → step s = .next { s with script := rest })

/-- R70: the host's reads while `BUSY` = 0; a read has no effect but the value it returns (R67), which the model keeps in
`hostRead`, its own field (log entry 15). `WAIT` (R102) reads `STATUS` once then. A field of `HDR` reads as it is while its
own flag is 1 (R28); a byte of OBUF's valid part reads as written (R61): below `DST_LEN`, and those HENC and TSER wrote on
their own (log entry 4). -/
def Obligations.HostReadsReturnTheState : Prop :=
  ∀ (s : State) (rest : List HostMove), s.job = .idle →
    (∀ r, s.script = .readCsr r :: rest → step s = .next { s with script := rest, hostRead := s.csrRead r }) ∧
    (∀ i, s.script = .readIbuf i :: rest → i < s.params.ibufCap.toNat →
      step s = .next { s with script := rest, hostRead := (s.ibufByte i).setWidth 32 }) ∧
    (∀ j, s.script = .readObuf j :: rest → j < s.params.obufCap.toNat →
      step s = .next { s with script := rest, hostRead := (s.obufByte j).setWidth 32 }) ∧
    s.csrRead .cmd = 0#32 ∧ s.csrRead .status = s.statusWord.setWidth 32 ∧
    s.csrRead .hdr = s.hdrRead.word.setWidth 32 ∧ s.csrRead .srcLen = s.srcLen ∧ s.csrRead .dstLen = s.dstLen ∧
    (s.script = .wait :: rest → step s = .next { s with script := rest, hostRead := s.statusWord.setWidth 32 }) ∧
    (s.status.padV = true → s.hdrRead.pad = s.hdr.pad) ∧ (s.status.tszV = true → s.hdrRead.tsize = s.hdr.tsize) ∧
    (∀ j b, j < s.dstLen.toNat ∨ j ∈ s.ownBytes → Mem.get s.obuf j = some b → s.obufByte j = b)

/-- R61, R68: after HENC and TSER on their own the host reads the header and the tree bytes they wrote, whatever `DST_LEN`
is. -/
def Obligations.OwnBytesReadAsWritten : Prop :=
  ∀ (s t : State), s.Ready →
    (exec .henc s = .next t → t.status.err = none →
      (t.obufByte 0).toNat * 256 + (t.obufByte 1).toNat = s.hdr.pad.toNat * 8192 + s.hdr.tsize.toNat) ∧
    (∀ r k v, exec .tser s = .next t → t.status.err = none → s.tree = some r → r.ser[k]? = some v →
      t.obufByte (2 + k) = v)

/-- R61, R76: a command but CLR that ends without error leaves exactly these bytes standing as HENC and TSER on their own
wrote them: those it has just written as one of the two, and the earlier ones it has not written over; and the host reads
the latter as before. That the bytes of any earlier TSER count, not of the last one alone, is read from R61 and U22 (DEDUCED,
log entry 4). -/
def Obligations.OwnBytesStayUntilWrittenOver : Prop :=
  ∀ (i : Instr) (s t : State), s.Ready → isCommand i = true → i ≠ .clr → exec i s = .next t → t.status.err = none →
    (∀ j, j ∈ t.ownBytes ↔ (i = .henc ∧ j < 2) ∨ (i = .tser ∧ 2 ≤ j ∧ j < 2 + t.hdr.tsize.toNat) ∨
      (j ∈ s.ownBytes ∧ ¬ writesAt i s t j)) ∧
    (∀ j b, j ∈ s.ownBytes → Mem.get s.obuf j = some b → ¬ writesAt i s t j → t.obufByte j = b)

/-- R71: while `BUSY` = 1 the host's writes are ignored and its other reads change nothing inside HBPU; `STATUS` can be
read. That the host has moves then is the model's choice (log entries 7 and 12). -/
def Obligations.BusyEngineIgnoresTheHost : Prop :=
  ∀ (s : State) (rest : List HostMove), s.job ≠ .idle →
    (∀ r v, s.script = .writeCsr r v :: rest → step s = .next { s with script := rest }) ∧
    (∀ i v, s.script = .writeIbuf i v :: rest → i < s.params.ibufCap.toNat → step s = .next { s with script := rest }) ∧
    (s.script = .readCsr .status :: rest →
      step s = .next { s with script := rest, hostRead := s.statusWord.setWidth 32 }) ∧
    (∀ r, r ≠ .status → s.script = .readCsr r :: rest →
      ∃ v, step s = .next { s with script := rest, hostRead := v, draws := s.draws + 1 }) ∧
    (∀ j v, s.script = .writeObuf j v :: rest → j < s.params.obufCap.toNat → step s = .next { s with script := rest }) ∧
    (∀ i, s.script = .readIbuf i :: rest → i < s.params.ibufCap.toNat →
      ∃ v, step s = .next { s with script := rest, hostRead := v, draws := s.draws + 1 }) ∧
    (∀ j, s.script = .readObuf j :: rest → j < s.params.obufCap.toNat →
      ∃ v, step s = .next { s with script := rest, hostRead := v, draws := s.draws + 1 })

/-- R39, R260: what reset leaves, at power-on and when the host resets the machine at any time, also while `BUSY` = 1. -/
def Obligations.ResetLeaves : Prop :=
  (∀ r, State.reset.csrRead r = 0#32) ∧ State.reset.tree = none ∧ State.reset.pq = [] ∧ State.reset.job = .idle ∧
  (∀ (s : State) (rest : List HostMove), s.script = .reset :: rest →
    ∃ t, step s = .next t ∧ (∀ r, t.csrRead r = 0#32) ∧ t.tree = none ∧ t.pq = [] ∧ t.job = .idle ∧
      t.script = rest ∧ t.params = s.params)

/-! ## The whole machine -/

/-- R29, R61: no instruction writes IBUF or `SRC_LEN`, nor the capacities. -/
def Obligations.EngineNeverWritesTheInput : Prop :=
  ∀ (i : Instr) (s t : State), exec i s = .next t →
    t.ibuf = s.ibuf ∧ t.ibufDraw = s.ibufDraw ∧ t.srcLen = s.srcLen ∧ t.params = s.params ∧ t.script = s.script ∧
    t.hostRead = s.hostRead

/-- R76: an instruction that ends without error changes OBUF only where its rule says it writes. -/
def Obligations.ObufChangesOnlyWhereWritten : Prop :=
  ∀ (i : Instr) (s t : State), i ≠ .clr → s.status.err = none → exec i s = .next t → t.status.err = none →
    s.job = .idle ∨ isCommand i = false →
    ∀ j, ¬ writesAt i s t j → Mem.get t.obuf j = Mem.get s.obuf j

/-- Every instruction that names no register of a group leaves it as it was, where it ends without error: which
instruction can change which register (the "Operands" parts of the operations' rules). -/
def Obligations.RegistersChangeOnlyWhereNamed : Prop :=
  ∀ (i : Instr) (s t : State), i ≠ .clr → s.status.err = none → exec i s = .next t → t.status.err = none →
    (i ≠ .freq → i ≠ .comp → t.freq = s.freq) ∧
    (i ≠ .cgen → i ≠ .comp → t.code = s.code) ∧
    (i ≠ .build → i ≠ .tdes → i ≠ .comp → i ≠ .decomp → (∀ b, i ≠ .tEsc b) → (∀ b, i ≠ .tLeaf b) → t.tree = s.tree) ∧
    (i ≠ .build → i ≠ .comp → t.pq = s.pq) ∧
    (i ≠ .padc → i ≠ .hdec → i ≠ .comp → i ≠ .decomp → (∀ p n, i ≠ .hdr p n) → t.hdr.pad = s.hdr.pad) ∧
    (i ≠ .tser → i ≠ .hdec → i ≠ .comp → i ≠ .decomp → (∀ p n, i ≠ .hdr p n) → t.hdr.tsize = s.hdr.tsize) ∧
    (i ≠ .pack → i ≠ .unpk → i ≠ .comp → i ≠ .decomp → t.dstLen = s.dstLen)

/-- The working registers an instruction that ends without error can change: those its unit uses (R21 to R23). That they
keep their values otherwise is the model's choice (R20 leaves it open; log entry 16). -/
def Obligations.WorkingRegistersChangeOnlyWhereUsed : Prop :=
  ∀ (i : Instr) (s t : State), i ≠ .clr → s.status.err = none → exec i s = .next t → t.status.err = none →
    (i ≠ .pack → i ≠ .comp → t.work.acc = s.work.acc ∧ t.work.cnt = s.work.cnt ∧ t.work.ipos = s.work.ipos) ∧
    (i ≠ .pack → i ≠ .comp → i ≠ .unpk → i ≠ .decomp → i ≠ .bLeft → i ≠ .bRight → t.work.opos = s.work.opos) ∧
    (i ≠ .unpk → i ≠ .decomp → i ≠ .bLeft → i ≠ .bRight →
      t.work.cur = s.work.cur ∧ t.work.spos = s.work.spos ∧ t.work.bidx = s.work.bidx) ∧
    (i ≠ .tser → i ≠ .tdes → i ≠ .comp → i ≠ .decomp → i.format ≠ .ttok → t.work.tpos = s.work.tpos) ∧
    (i ≠ .cgen → i ≠ .comp → t.work.path = s.work.path) ∧
    (i ≠ .cgen → i ≠ .tdes → i ≠ .comp → i ≠ .decomp → i.format ≠ .ttok → t.work.tstack = s.work.tstack)

/-- The operation in progress, item by item, is the atomic command (R13, R72): from the position before its first item the
steps end in the state the command answers. That the model has these positions is its own choice (log entry 12). -/
def Obligations.ItemsMakeUpTheCommand : Prop :=
  ∀ (s : State), s.Ready → s.script = [] →
    (∀ u, headerEntry s.accept = .ok u →
      (∃ n, core.run n { u with job := .header false } = exec .hdec s) ∧
      (∃ n, core.run n { u with job := .header true } = exec .decomp s)) ∧
    (∀ u, treeEntry s.accept = .ok u → ∃ n, core.run n { u with job := .tree false } = exec .tdes s) ∧
    (∀ u, streamEntry s.accept = .ok u → 0 < u.streamLen →
      ∃ n, core.run n { u with job := .stream false } = exec .unpk s)

/-- R266: `BUSY` always falls: from every state the steps of a busy engine, with no host move, reach an idle one. The steps
inside an operation are the model's choice (log entry 12). -/
def Obligations.BusyAlwaysFalls : Prop :=
  ∀ (s : State), s.script = [] → ∃ n t, core.run n s = .next t ∧ t.job = .idle

/-- The state after reset meets the invariant. -/
def Obligations.ResetMeetsTheInvariant : Prop := State.reset.Inv ∧ State.reset.FlagsTrue

/-- Every step, of the host or of the engine (log entry 12), keeps the invariant: canonical buffers inside their capacities, flags that go together, a clear machine
after an error, every valid OBUF index inside OBUF. -/
def Obligations.StepKeepsTheInvariant : Prop := ∀ (s t : State), s.Inv → step s = .next t → t.Inv

/-- Every step keeps the meaning of the validity flags (R27): `FREQ` holds the counts of the input, `TREE` and `CODE` are
what those counts give, `HDR.PAD` and `HDR.TSIZE` are those of that code and tree. That `codeTable` holds 0 in the `pat` of
a byte with no code is the model's choice (DESIGN CHOICE, log entry 20). -/
def Obligations.StepKeepsTheFlagsTrue : Prop :=
  ∀ (s t : State), s.Inv → s.FlagsTrue → step s = .next t → t.FlagsTrue
end

