-- ==== Sys2Proof/Laws/Buffers.lean ====
section
/-! SUPPORT. Sys2Proof/Laws/Buffers.lean: read after write for buffers and register files, and the canonical form of a
buffer under every operation that writes one. -/

namespace Sys2Proof.Machine

@[simp] theorem Mem.get_nil (a : Nat) : Mem.get [] a = none := rfl

/-- A byte written is read back. -/
@[simp] theorem Mem.get_set_same (m : List Host.Cell) (a : Nat) (v : Byte) : Mem.get (Mem.set m a v) a = some v := by
  induction m with
  | nil => simp [Mem.set, Mem.get]
  | cons x m ih =>
    obtain ⟨k, b⟩ := x
    unfold Mem.set
    split
    · simp [Mem.get]
    · split
      · simp [Mem.get]
      · rename_i h₁ h₂
        simp [Mem.get, ih, Ne.symm h₂]

/-- A write leaves every other index alone. -/
theorem Mem.get_set_ne (m : List Host.Cell) {a b : Nat} (v : Byte) (h : b ≠ a) :
    Mem.get (Mem.set m a v) b = Mem.get m b := by
  induction m with
  | nil => simp [Mem.set, Mem.get, h.symm]
  | cons x m ih =>
    obtain ⟨k, w⟩ := x
    unfold Mem.set
    split
    · simp [Mem.get, h.symm]
    · split
      · subst_vars
        simp [Mem.get, h.symm]
      · simp [Mem.get, ih]

/-- One spelling of both: what a buffer holds after a write. -/
theorem Mem.get_set (m : List Host.Cell) (a b : Nat) (v : Byte) :
    Mem.get (Mem.set m a v) b = if b = a then some v else Mem.get m b := by
  split
  · subst_vars; simp
  · exact Mem.get_set_ne m v ‹_›

/-- The cells after a write are the written one and cells that were there. -/
theorem Mem.mem_set {m : List Host.Cell} {a : Nat} {v : Byte} {c : Host.Cell} (h : c ∈ Mem.set m a v) :
    c = (a, v) ∨ c ∈ m := by
  induction m with
  | nil => simpa [Mem.set] using h
  | cons x m ih =>
    obtain ⟨k, w⟩ := x
    unfold Mem.set at h
    split at h
    · simpa using h
    · split at h
      · rcases List.mem_cons.1 h with h | h
        · exact .inl h
        · exact .inr (List.mem_cons_of_mem _ h)
      · rcases List.mem_cons.1 h with h | h
        · exact .inr (h ▸ List.mem_cons_self)
        · rcases ih h with h | h
          · exact .inl h
          · exact .inr (List.mem_cons_of_mem _ h)

/-- A write keeps the canonical form. -/
theorem Mem.set_wf {m : List Host.Cell} (h : Mem.wf m) (a : Nat) (v : Byte) : Mem.wf (Mem.set m a v) := by
  induction m with
  | nil => simp [Mem.set, Mem.wf]
  | cons x m ih =>
    obtain ⟨k, w⟩ := x
    obtain ⟨hx, hm⟩ := List.pairwise_cons.1 h
    unfold Mem.set
    split
    · rename_i hlt
      refine List.pairwise_cons.2 ⟨fun c hc => ?_, h⟩
      rcases List.mem_cons.1 hc with rfl | hc
      · exact hlt
      · exact Nat.lt_trans hlt (hx c hc)
    · split
      · subst_vars
        exact List.pairwise_cons.2 ⟨hx, hm⟩
      · refine List.pairwise_cons.2 ⟨fun c hc => ?_, ih hm⟩
        rcases Mem.mem_set hc with rfl | hc
        · simp only; omega
        · exact hx c hc

/-- A write inside the capacity keeps every listed index inside it. -/
theorem Mem.set_in {m : List Host.Cell} {n : Nat} (h : ∀ c ∈ m, c.1 < n) {a : Nat} (ha : a < n) (v : Byte) :
    ∀ c ∈ Mem.set m a v, c.1 < n := by
  intro c hc
  rcases Mem.mem_set hc with rfl | hc
  · exact ha
  · exact h c hc

/-- The empty buffer of reset is in canonical form. -/
theorem Mem.wf_nil : Mem.wf [] := List.Pairwise.nil

/-- The buffer after bytes are written at rising indices from `a` on. -/
def Mem.setMany : List Host.Cell → Nat → List Byte → List Host.Cell
  | m, _, [] => m
  | m, a, v :: vs => Mem.setMany (Mem.set m a v) (a + 1) vs

@[simp] theorem Mem.setMany_nil (m : List Host.Cell) (a : Nat) : Mem.setMany m a [] = m := rfl

theorem Mem.setMany_append (m : List Host.Cell) (a : Nat) (vs ws : List Byte) :
    Mem.setMany m a (vs ++ ws) = Mem.setMany (Mem.setMany m a vs) (a + vs.length) ws := by
  induction vs generalizing m a with
  | nil => simp
  | cons v vs ih => simp [Mem.setMany, ih, Nat.add_assoc, Nat.add_comm 1]

/-- What a buffer holds after bytes are written at rising indices. -/
theorem Mem.get_setMany (m : List Host.Cell) (a : Nat) (vs : List Byte) (j : Nat) :
    Mem.get (Mem.setMany m a vs) j = if a ≤ j ∧ j < a + vs.length then vs[j - a]? else Mem.get m j := by
  induction vs generalizing m a with
  | nil => simp [Mem.setMany]
  | cons v vs ih =>
    rw [Mem.setMany, ih, Mem.get_set]
    by_cases h : j = a
    · subst h
      simp
    · by_cases h' : a + 1 ≤ j ∧ j < a + 1 + vs.length
      · have h₁ : a ≤ j ∧ j < a + (v :: vs).length := by simp; omega
        have h₂ : j - a = (j - (a + 1)) + 1 := by omega
        rw [if_pos h', if_pos h₁, h₂, List.getElem?_cons_succ]
      · have h₁ : ¬ (a ≤ j ∧ j < a + (v :: vs).length) := by simp; omega
        rw [if_neg h', if_neg h₁, if_neg h]

@[simp] theorem Table.at_put_same {α : Type} (t : Table α) (b : Byte) (v : α) : Table.at (Table.put t b v) b = v := by
  simp [Table.at, Table.put]

theorem Table.at_put_ne {α : Type} (t : Table α) {a b : Byte} (v : α) (h : b ≠ a) :
    Table.at (Table.put t a v) b = Table.at t b := by
  have h' : a.toNat ≠ b.toNat := fun e => h (BitVec.eq_of_toNat_eq e.symm)
  simp [Table.at, Table.put, h']

/-- One spelling of both: an entry after a write. -/
theorem Table.at_put {α : Type} (t : Table α) (a b : Byte) (v : α) :
    Table.at (Table.put t a v) b = if b = a then v else Table.at t b := by
  split
  · subst_vars; simp
  · exact Table.at_put_ne t v ‹_›

@[simp] theorem Table.at_replicate {α : Type} (v : α) (b : Byte) : Table.at (Vector.replicate 256 v) b = v := by
  simp [Table.at]

/-- Two register files with equal entries are equal. -/
theorem Table.ext {α : Type} {t u : Table α} (h : ∀ b, Table.at t b = Table.at u b) : t = u := by
  apply Vector.ext
  intro i hi
  have := h (BitVec.ofNat 8 i)
  simpa [Table.at, Nat.mod_eq_of_lt hi] using this

end Sys2Proof.Machine
end

