-- ==== Sys2Proof/Laws/State.lean ====
section
/-! SUPPORT. Sys2Proof/Laws/State.lean: one lemma per field of State for each named update of it, true by rfl. -/

namespace Sys2Proof.Machine

/-! `State.accept` -/

@[simp] theorem State.accept_params (s : State) : s.accept.params = s.params := rfl
@[simp] theorem State.accept_status (s : State) : s.accept.status = { s.status with done := false } := rfl
@[simp] theorem State.accept_hdr (s : State) : s.accept.hdr = s.hdr := rfl
@[simp] theorem State.accept_srcLen (s : State) : s.accept.srcLen = s.srcLen := rfl
@[simp] theorem State.accept_dstLen (s : State) : s.accept.dstLen = s.dstLen := rfl
@[simp] theorem State.accept_freq (s : State) : s.accept.freq = s.freq := rfl
@[simp] theorem State.accept_code (s : State) : s.accept.code = s.code := rfl
@[simp] theorem State.accept_tree (s : State) : s.accept.tree = s.tree := rfl
@[simp] theorem State.accept_pq (s : State) : s.accept.pq = s.pq := rfl
@[simp] theorem State.accept_work (s : State) : s.accept.work = s.work := rfl
@[simp] theorem State.accept_job (s : State) : s.accept.job = s.job := rfl
@[simp] theorem State.accept_ibuf (s : State) : s.accept.ibuf = s.ibuf := rfl
@[simp] theorem State.accept_obuf (s : State) : s.accept.obuf = s.obuf := rfl
@[simp] theorem State.accept_script (s : State) : s.accept.script = s.script := rfl
@[simp] theorem State.accept_hostRead (s : State) : s.accept.hostRead = s.hostRead := rfl
@[simp] theorem State.accept_draws (s : State) : s.accept.draws = s.draws + 1 := rfl
@[simp] theorem State.accept_ibufDraw (s : State) : s.accept.ibufDraw = s.ibufDraw := rfl
@[simp] theorem State.accept_hdrZero (s : State) : s.accept.hdrZero = false := rfl
@[simp] theorem State.accept_ownBytes (s : State) : s.accept.ownBytes = s.ownBytes := rfl

/-! `State.finish` -/

@[simp] theorem State.finish_params (s : State) : s.finish.params = s.params := rfl
@[simp] theorem State.finish_status (s : State) : s.finish.status = { s.status with done := true } := rfl
@[simp] theorem State.finish_hdr (s : State) : s.finish.hdr = s.hdr := rfl
@[simp] theorem State.finish_srcLen (s : State) : s.finish.srcLen = s.srcLen := rfl
@[simp] theorem State.finish_dstLen (s : State) : s.finish.dstLen = s.dstLen := rfl
@[simp] theorem State.finish_freq (s : State) : s.finish.freq = s.freq := rfl
@[simp] theorem State.finish_code (s : State) : s.finish.code = s.code := rfl
@[simp] theorem State.finish_tree (s : State) : s.finish.tree = s.tree := rfl
@[simp] theorem State.finish_pq (s : State) : s.finish.pq = s.pq := rfl
@[simp] theorem State.finish_work (s : State) : s.finish.work = s.work := rfl
@[simp] theorem State.finish_job (s : State) : s.finish.job = .idle := rfl
@[simp] theorem State.finish_ibuf (s : State) : s.finish.ibuf = s.ibuf := rfl
@[simp] theorem State.finish_obuf (s : State) : s.finish.obuf = s.obuf := rfl
@[simp] theorem State.finish_script (s : State) : s.finish.script = s.script := rfl
@[simp] theorem State.finish_hostRead (s : State) : s.finish.hostRead = s.hostRead := rfl
@[simp] theorem State.finish_draws (s : State) : s.finish.draws = s.draws := rfl
@[simp] theorem State.finish_ibufDraw (s : State) : s.finish.ibufDraw = s.ibufDraw := rfl
@[simp] theorem State.finish_hdrZero (s : State) : s.finish.hdrZero = s.hdrZero := rfl
@[simp] theorem State.finish_ownBytes (s : State) : s.finish.ownBytes = s.ownBytes := rfl

/-! `State.scramble` -/

@[simp] theorem State.scramble_params (s : State) : s.scramble.params = s.params := rfl
@[simp] theorem State.scramble_status (s : State) : s.scramble.status = s.status := rfl
@[simp] theorem State.scramble_hdr (s : State) : s.scramble.hdr = s.hdr := rfl
@[simp] theorem State.scramble_srcLen (s : State) : s.scramble.srcLen = s.srcLen := rfl
@[simp] theorem State.scramble_dstLen (s : State) : s.scramble.dstLen = 0#32 := rfl
@[simp] theorem State.scramble_freq (s : State) : s.scramble.freq = Config.freeFreq s.draws := rfl
@[simp] theorem State.scramble_code (s : State) : s.scramble.code = Config.freeCode s.draws := rfl
@[simp] theorem State.scramble_tree (s : State) : s.scramble.tree = s.tree := rfl
@[simp] theorem State.scramble_pq (s : State) : s.scramble.pq = s.pq := rfl
@[simp] theorem State.scramble_work (s : State) : s.scramble.work = Config.freeWork s.draws := rfl
@[simp] theorem State.scramble_job (s : State) : s.scramble.job = .idle := rfl
@[simp] theorem State.scramble_ibuf (s : State) : s.scramble.ibuf = s.ibuf := rfl
@[simp] theorem State.scramble_obuf (s : State) : s.scramble.obuf = [] := rfl
@[simp] theorem State.scramble_script (s : State) : s.scramble.script = s.script := rfl
@[simp] theorem State.scramble_hostRead (s : State) : s.scramble.hostRead = s.hostRead := rfl
@[simp] theorem State.scramble_draws (s : State) : s.scramble.draws = s.draws + 1 := rfl
@[simp] theorem State.scramble_ibufDraw (s : State) : s.scramble.ibufDraw = s.ibufDraw := rfl
@[simp] theorem State.scramble_hdrZero (s : State) : s.scramble.hdrZero = s.hdrZero := rfl
@[simp] theorem State.scramble_ownBytes (s : State) : s.scramble.ownBytes = [] := rfl

/-! `State.raise` -/

@[simp] theorem State.raise_params (s : State) (e : ErrKind) : (s.raise e).params = s.params := rfl
@[simp] theorem State.raise_status (s : State) (e : ErrKind) : (s.raise e).status = { Status.zero with err := some e } := rfl
@[simp] theorem State.raise_hdr (s : State) (e : ErrKind) : (s.raise e).hdr = Config.freeHdr s.draws := rfl
@[simp] theorem State.raise_srcLen (s : State) (e : ErrKind) : (s.raise e).srcLen = s.srcLen := rfl
@[simp] theorem State.raise_dstLen (s : State) (e : ErrKind) : (s.raise e).dstLen = 0#32 := rfl
@[simp] theorem State.raise_freq (s : State) (e : ErrKind) : (s.raise e).freq = Config.freeFreq s.draws := rfl
@[simp] theorem State.raise_code (s : State) (e : ErrKind) : (s.raise e).code = Config.freeCode s.draws := rfl
@[simp] theorem State.raise_tree (s : State) (e : ErrKind) : (s.raise e).tree = Config.freeTree s.draws := rfl
@[simp] theorem State.raise_pq (s : State) (e : ErrKind) : (s.raise e).pq = Config.freeQueue s.draws := rfl
@[simp] theorem State.raise_work (s : State) (e : ErrKind) : (s.raise e).work = Config.freeWork s.draws := rfl
@[simp] theorem State.raise_job (s : State) (e : ErrKind) : (s.raise e).job = .idle := rfl
@[simp] theorem State.raise_ibuf (s : State) (e : ErrKind) : (s.raise e).ibuf = s.ibuf := rfl
@[simp] theorem State.raise_obuf (s : State) (e : ErrKind) : (s.raise e).obuf = [] := rfl
@[simp] theorem State.raise_script (s : State) (e : ErrKind) : (s.raise e).script = s.script := rfl
@[simp] theorem State.raise_hostRead (s : State) (e : ErrKind) : (s.raise e).hostRead = s.hostRead := rfl
@[simp] theorem State.raise_draws (s : State) (e : ErrKind) : (s.raise e).draws = s.draws + 1 := rfl
@[simp] theorem State.raise_ibufDraw (s : State) (e : ErrKind) : (s.raise e).ibufDraw = s.ibufDraw := rfl
@[simp] theorem State.raise_hdrZero (s : State) (e : ErrKind) : (s.raise e).hdrZero = false := rfl
@[simp] theorem State.raise_ownBytes (s : State) (e : ErrKind) : (s.raise e).ownBytes = [] := rfl

/-! `State.clear` -/

@[simp] theorem State.clear_params (s : State) : s.clear.params = s.params := rfl
@[simp] theorem State.clear_status (s : State) : s.clear.status = Status.zero := rfl
@[simp] theorem State.clear_hdr (s : State) : s.clear.hdr = { pad := 0#3, tsize := 0#13 } := rfl
@[simp] theorem State.clear_srcLen (s : State) : s.clear.srcLen = s.srcLen := rfl
@[simp] theorem State.clear_dstLen (s : State) : s.clear.dstLen = 0#32 := rfl
@[simp] theorem State.clear_freq (s : State) : s.clear.freq = Config.freeFreq s.draws := rfl
@[simp] theorem State.clear_code (s : State) : s.clear.code = Config.freeCode s.draws := rfl
@[simp] theorem State.clear_tree (s : State) : s.clear.tree = none := rfl
@[simp] theorem State.clear_pq (s : State) : s.clear.pq = [] := rfl
@[simp] theorem State.clear_work (s : State) : s.clear.work = Config.freeWork s.draws := rfl
@[simp] theorem State.clear_job (s : State) : s.clear.job = .idle := rfl
@[simp] theorem State.clear_ibuf (s : State) : s.clear.ibuf = s.ibuf := rfl
@[simp] theorem State.clear_obuf (s : State) : s.clear.obuf = [] := rfl
@[simp] theorem State.clear_script (s : State) : s.clear.script = s.script := rfl
@[simp] theorem State.clear_hostRead (s : State) : s.clear.hostRead = s.hostRead := rfl
@[simp] theorem State.clear_draws (s : State) : s.clear.draws = s.draws + 1 := rfl
@[simp] theorem State.clear_ibufDraw (s : State) : s.clear.ibufDraw = s.ibufDraw := rfl
@[simp] theorem State.clear_hdrZero (s : State) : s.clear.hdrZero = true := rfl
@[simp] theorem State.clear_ownBytes (s : State) : s.clear.ownBytes = [] := rfl

/-! `State.resetEvent` -/

@[simp] theorem State.resetEvent_params (s : State) : s.resetEvent.params = s.params := rfl
@[simp] theorem State.resetEvent_status (s : State) : s.resetEvent.status = Status.zero := rfl
@[simp] theorem State.resetEvent_hdr (s : State) : s.resetEvent.hdr = { pad := 0#3, tsize := 0#13 } := rfl
@[simp] theorem State.resetEvent_srcLen (s : State) : s.resetEvent.srcLen = 0#32 := rfl
@[simp] theorem State.resetEvent_dstLen (s : State) : s.resetEvent.dstLen = 0#32 := rfl
@[simp] theorem State.resetEvent_freq (s : State) : s.resetEvent.freq = Config.freeFreq s.draws := rfl
@[simp] theorem State.resetEvent_code (s : State) : s.resetEvent.code = Config.freeCode s.draws := rfl
@[simp] theorem State.resetEvent_tree (s : State) : s.resetEvent.tree = none := rfl
@[simp] theorem State.resetEvent_pq (s : State) : s.resetEvent.pq = [] := rfl
@[simp] theorem State.resetEvent_work (s : State) : s.resetEvent.work = Config.freeWork s.draws := rfl
@[simp] theorem State.resetEvent_job (s : State) : s.resetEvent.job = .idle := rfl
@[simp] theorem State.resetEvent_ibuf (s : State) : s.resetEvent.ibuf = [] := rfl
@[simp] theorem State.resetEvent_obuf (s : State) : s.resetEvent.obuf = [] := rfl
@[simp] theorem State.resetEvent_script (s : State) : s.resetEvent.script = s.script := rfl
@[simp] theorem State.resetEvent_hostRead (s : State) : s.resetEvent.hostRead = s.hostRead := rfl
@[simp] theorem State.resetEvent_draws (s : State) : s.resetEvent.draws = s.draws + 1 := rfl
@[simp] theorem State.resetEvent_ibufDraw (s : State) : s.resetEvent.ibufDraw = s.draws := rfl
@[simp] theorem State.resetEvent_hdrZero (s : State) : s.resetEvent.hdrZero = true := rfl
@[simp] theorem State.resetEvent_ownBytes (s : State) : s.resetEvent.ownBytes = [] := rfl

/-! `State.clearValid` -/

@[simp] theorem State.clearValid_params (s : State) : s.clearValid.params = s.params := rfl
@[simp] theorem State.clearValid_status (s : State) : s.clearValid.status = s.status.clearValid := rfl
@[simp] theorem State.clearValid_hdr (s : State) : s.clearValid.hdr = s.hdr := rfl
@[simp] theorem State.clearValid_srcLen (s : State) : s.clearValid.srcLen = s.srcLen := rfl
@[simp] theorem State.clearValid_dstLen (s : State) : s.clearValid.dstLen = s.dstLen := rfl
@[simp] theorem State.clearValid_freq (s : State) : s.clearValid.freq = s.freq := rfl
@[simp] theorem State.clearValid_code (s : State) : s.clearValid.code = s.code := rfl
@[simp] theorem State.clearValid_tree (s : State) : s.clearValid.tree = s.tree := rfl
@[simp] theorem State.clearValid_pq (s : State) : s.clearValid.pq = s.pq := rfl
@[simp] theorem State.clearValid_work (s : State) : s.clearValid.work = s.work := rfl
@[simp] theorem State.clearValid_job (s : State) : s.clearValid.job = s.job := rfl
@[simp] theorem State.clearValid_ibuf (s : State) : s.clearValid.ibuf = s.ibuf := rfl
@[simp] theorem State.clearValid_obuf (s : State) : s.clearValid.obuf = s.obuf := rfl
@[simp] theorem State.clearValid_script (s : State) : s.clearValid.script = s.script := rfl
@[simp] theorem State.clearValid_hostRead (s : State) : s.clearValid.hostRead = s.hostRead := rfl
@[simp] theorem State.clearValid_draws (s : State) : s.clearValid.draws = s.draws + 1 := rfl
@[simp] theorem State.clearValid_ibufDraw (s : State) : s.clearValid.ibufDraw = s.ibufDraw := rfl
@[simp] theorem State.clearValid_hdrZero (s : State) : s.clearValid.hdrZero = false := rfl
@[simp] theorem State.clearValid_ownBytes (s : State) : s.clearValid.ownBytes = s.ownBytes := rfl

/-- An idle engine is not busy. -/
@[simp] theorem State.busy_eq_false (s : State) : s.busy = false ↔ s.job = .idle := by simp [State.busy]

/-- A busy engine is at some position of an operation. -/
@[simp] theorem State.busy_eq_true (s : State) : s.busy = true ↔ s.job ≠ .idle := by simp [State.busy]

end Sys2Proof.Machine
end

