-- ==== Sys2Proof/Laws/Ops.lean ====
section
/-! SUPPORT. Sys2Proof/Laws/Ops.lean: for each shared operation, once, everything it can do. -/

namespace Sys2Proof.Machine

/-! ## Answers of a body -/

@[simp] theorem res_bind_ok {α β : Type} (a : α) (f : α → Except ErrKind β) : (Except.ok a >>= f) = f a := rfl

@[simp] theorem res_bind_error {α β : Type} (e : ErrKind) (f : α → Except ErrKind β) :
    ((Except.error e : Except ErrKind α) >>= f) = .error e := rfl

/-- A sequence that answers a value: both parts do. -/
theorem res_bind_eq_ok {α β : Type} {x : Except ErrKind α} {f : α → Except ErrKind β} {b : β} :
    (x >>= f) = .ok b ↔ ∃ a, x = .ok a ∧ f a = .ok b := by
  cases x <;> simp

/-- A sequence that raises an error: the first part does, or the second. -/
theorem res_bind_eq_error {α β : Type} {x : Except ErrKind α} {f : α → Except ErrKind β} {e : ErrKind} :
    (x >>= f) = .error e ↔ x = .error e ∨ ∃ a, x = .ok a ∧ f a = .error e := by
  cases x <;> simp

/-! ## The tests -/

/-- `MemWrite` answers a state: the index exists, and the byte is written (R66). -/
theorem memWrite_ok {j : Nat} {v : Byte} {s t : State} :
    memWrite j v s = .ok t ↔ j < s.params.obufCap.toNat ∧ t = { s with obuf := Mem.set s.obuf j v } := by
  unfold memWrite
  split <;> simp_all [eq_comm]

/-- `MemWrite` raises: the index does not exist (R66). -/
theorem memWrite_error {j : Nat} {v : Byte} {s : State} {e : ErrKind} :
    memWrite j v s = .error e ↔ s.params.obufCap.toNat ≤ j ∧ e = .allocationFailure := by
  unfold memWrite
  split <;> simp_all [eq_comm]

@[simp] theorem checkSource_ok {s : State} {u : Unit} :
    checkSource s = .ok u ↔ s.srcLen.toNat ≤ s.params.ibufCap.toNat := by
  unfold checkSource
  split <;> simp_all

@[simp] theorem checkSource_error {s : State} {e : ErrKind} :
    checkSource s = .error e ↔ s.params.ibufCap.toNat < s.srcLen.toNat ∧ e = .allocationFailure := by
  unfold checkSource
  split <;> simp_all [eq_comm]

@[simp] theorem require_ok {b : Bool} {u : Unit} : require b = .ok u ↔ b = true := by
  cases b <;> simp [require]

@[simp] theorem require_error {b : Bool} {e : ErrKind} : require b = .error e ↔ b = false ∧ e = .badSequence := by
  cases b <;> simp [require, eq_comm]

theorem requireTree_ok {b : Bool} {s : State} {t : Tree} :
    requireTree b s = .ok t ↔ b = true ∧ s.status.treeV = true ∧ s.tree = some t := by
  unfold requireTree
  split
  · rename_i h₁ h₂
    simp only [Bool.and_eq_true] at h₁
    simp [h₁, h₂]
  · rename_i h
    constructor
    · simp
    · rintro ⟨h₁, h₂, h₃⟩
      exact absurd h₃ (h t (by simp [h₁, h₂]))

theorem requireTree_error {b : Bool} {s : State} {e : ErrKind} :
    requireTree b s = .error e ↔ (b = false ∨ s.status.treeV = false ∨ s.tree = none) ∧ e = .badSequence := by
  unfold requireTree
  split
  · rename_i h₁ h₂
    simp only [Bool.and_eq_true] at h₁
    simp [h₁, h₂]
  · rename_i h
    have hc : b = false ∨ s.status.treeV = false ∨ s.tree = none := by
      rcases ht : s.tree with _ | t
      · simp
      · by_contra hn
        simp only [not_or, Bool.not_eq_false, reduceCtorEq, not_false_eq_true, and_true] at hn
        exact h t (by simp [hn.1, hn.2]) ht
    constructor
    · intro he
      exact ⟨hc, by simpa using he.symm⟩
    · rintro ⟨-, rfl⟩
      rfl

/-! ## The frame of a command and of an item -/

@[simp] theorem endWith_ok (s t : State) : endWith s (.ok t) = t.finish := rfl

@[simp] theorem endWith_error (s : State) (e : ErrKind) : endWith s (.error e) = s.raise e := rfl

/-- A command that is accepted (R239). -/
theorem runCommand_ready {body : State → Res} {s : State} (hj : s.job = .idle) (he : s.status.err = none) :
    runCommand body s = .next (endWith s.accept (body s.accept)) := by
  simp [runCommand, State.busy, hj, he]

/-- A command that is ignored: `BUSY` (R71). -/
theorem runCommand_busy {body : State → Res} {s : State} (hj : s.job ≠ .idle) : runCommand body s = .next s := by
  simp [runCommand, State.busy, hj]

/-- A command that is ignored: `ERROR` (R237). -/
theorem runCommand_err {body : State → Res} {s : State} (he : s.status.err.isSome = true) :
    runCommand body s = .next s := by
  simp [runCommand, he]

/-- Everything a command but CLR can do. -/
theorem runCommand_cases {body : State → Res} {s t : State} (h : runCommand body s = .next t) :
    ((s.job ≠ .idle ∨ s.status.err ≠ none) ∧ t = s) ∨
    (s.job = .idle ∧ s.status.err = none ∧
      ((∃ u, body s.accept = .ok u ∧ t = u.finish) ∨ (∃ e, body s.accept = .error e ∧ t = s.accept.raise e))) := by
  by_cases hj : s.job = .idle
  · by_cases he : s.status.err = none
    · right
      rw [runCommand_ready hj he] at h
      refine ⟨hj, he, ?_⟩
      cases hb : body s.accept with
      | ok u => exact .inl ⟨u, rfl, by simpa [hb] using h.symm⟩
      | error e => exact .inr ⟨e, rfl, by simpa [hb] using h.symm⟩
    · left
      rw [runCommand_err (Option.isSome_iff_ne_none.2 he)] at h
      exact ⟨.inr he, by simpa using h.symm⟩
  · left
    rw [runCommand_busy hj] at h
    exact ⟨.inl hj, by simpa using h.symm⟩

/-- A command always answers a next state. -/
theorem runCommand_next (body : State → Res) (s : State) : ∃ t, runCommand body s = .next t := by
  unfold runCommand
  split <;> exact ⟨_, rfl⟩

/-- Everything an item can do. -/
theorem runItem_cases {body : State → Res} {s t : State} (h : runItem body s = .next t) :
    body s = .ok t ∨ ∃ e, body s = .error e ∧ t = s.raise e := by
  unfold runItem at h
  split at h
  · rename_i u hb
    left
    simpa [hb] using h
  · rename_i e hb
    right
    exact ⟨e, hb, by simpa using h.symm⟩

theorem runItem_ok {body : State → Res} {s t : State} (h : body s = .ok t) : runItem body s = .next t := by
  simp [runItem, h]

theorem runItem_error {body : State → Res} {s : State} {e : ErrKind} (h : body s = .error e) :
    runItem body s = .next (s.raise e) := by
  simp [runItem, h]

/-- An item always answers a next state. -/
theorem runItem_next (body : State → Res) (s : State) : ∃ t, runItem body s = .next t := by
  unfold runItem
  split <;> exact ⟨_, rfl⟩

/-! ## What HENC and TSER on their own wrote -/

/-- The indices of both kinds: those just written, and the earlier ones. -/
@[simp] theorem Own.mem_add {a n j : Nat} {own : List Nat} :
    j ∈ Own.add a n own ↔ (a ≤ j ∧ j < a + n) ∨ j ∈ own := by
  simp only [Own.add, List.mem_append, List.mem_filter, List.mem_map, List.mem_range, decide_eq_true_eq]
  constructor
  · rintro ((h | ⟨k, hk, rfl⟩) | h)
    · exact .inr h.1
    · exact .inl (by omega)
    · exact .inr h.1
  · rintro (h | h)
    · exact .inl (.inr ⟨j - a, by omega, by omega⟩)
    · by_cases h₁ : j < a
      · exact .inl (.inl ⟨h, h₁⟩)
      · by_cases h₂ : a + n ≤ j
        · exact .inr ⟨h, h₂⟩
        · exact .inl (.inr ⟨j - a, by omega, by omega⟩)

@[simp] theorem Own.mem_drop {a b j : Nat} {own : List Nat} :
    j ∈ Own.drop a b own ↔ j ∈ own ∧ ¬ (a ≤ j ∧ j < b) := by
  simp only [Own.drop, List.mem_filter, Bool.or_eq_true, decide_eq_true_eq]
  constructor
  · rintro ⟨h, h'⟩
    exact ⟨h, by omega⟩
  · rintro ⟨h, h'⟩
    exact ⟨h, by omega⟩

/-- Both operations keep the indices rising. -/
theorem Own.add_sorted {own : List Nat} (h : own.Pairwise (· < ·)) (a n : Nat) : (Own.add a n own).Pairwise (· < ·) := by
  simp only [Own.add, List.pairwise_append, List.pairwise_map, List.mem_append, List.mem_filter, List.mem_map,
    List.mem_range, decide_eq_true_eq]
  refine ⟨⟨h.filter _, List.pairwise_lt_range.imp fun hk => by omega, ?_⟩, h.filter _, ?_⟩
  · rintro x ⟨-, hx⟩ y ⟨k, -, rfl⟩
    omega
  · rintro x (⟨-, hx⟩ | ⟨k, hk, rfl⟩) y ⟨-, hy⟩ <;> omega

theorem Own.drop_sorted {own : List Nat} (h : own.Pairwise (· < ·)) (a b : Nat) :
    (Own.drop a b own).Pairwise (· < ·) := h.filter _

/-- The valid part of OBUF (R61). -/
theorem State.obufValid_iff {s : State} {j : Nat} :
    s.obufValid j = true ↔ j < s.dstLen.toNat ∨ j ∈ s.ownBytes := by
  simp [State.obufValid]

/-- A valid byte that was written reads as written (R61). -/
theorem obufByte_listed {s : State} {j : Nat} {b : Byte} (hv : s.obufValid j = true) (h : Mem.get s.obuf j = some b) :
    s.obufByte j = b := by
  simp [State.obufByte, hv, h]

/-! ## What is read -/

/-- The byte the engine reads where the host wrote one. -/
theorem ibufByte_listed {s : State} {i : Nat} {b : Byte} (h : Mem.get s.ibuf i = some b) : s.ibufByte i = b := by
  simp [State.ibufByte, h]

/-- IBUF, as the engine reads it, is fixed by the bytes the host wrote and the reset they were written after. -/
theorem ibufByte_congr {s t : State} (h : t.ibuf = s.ibuf) (hd : t.ibufDraw = s.ibufDraw) (i : Nat) :
    t.ibufByte i = s.ibufByte i := by
  simp [State.ibufByte, h, hd]

/-- The input is fixed by `SRC_LEN` and IBUF. -/
theorem input_congr {s t : State} (h : t.ibuf = s.ibuf) (hd : t.ibufDraw = s.ibufDraw) (hl : t.srcLen = s.srcLen) :
    t.input = s.input := by
  unfold State.input
  rw [hl]
  exact List.map_congr_left fun i _ => ibufByte_congr h hd i

@[simp] theorem input_length (s : State) : s.input.length = s.srcLen.toNat := by simp [State.input]

@[simp] theorem ibufByte_accept (s : State) (i : Nat) : s.accept.ibufByte i = s.ibufByte i := rfl

@[simp] theorem input_accept (s : State) : s.accept.input = s.input := rfl

/-- IBUF after a host write. -/
theorem ibufByte_write (s : State) (i k : Nat) (v : Byte) :
    State.ibufByte { s with ibuf := Mem.set s.ibuf i v } k = if k = i then v else s.ibufByte k := by
  by_cases h : k = i
  · subst h
    simp [State.ibufByte]
  · simp [State.ibufByte, Mem.get_set_ne s.ibuf v h, h]

end Sys2Proof.Machine
end

