-- ==== Sys2Proof/Laws/TreeCodec.lean ====
section
/-! SUPPORT. Sys2Proof/Laws/TreeCodec.lean: what TSER's loop, the tree tokens and TDES's entry and exit can do. -/

namespace Sys2Proof.Machine

/-- TSER's loop with room for every byte (R141). -/
theorem writeTree_run (vs : List Byte) (s : State) (hs : s.work.tpos.toNat + vs.length ≤ 8191)
    (hc : 2 + s.work.tpos.toNat + vs.length ≤ s.params.obufCap.toNat) :
    writeTree vs s = .ok { s with
      obuf := Mem.setMany s.obuf (2 + s.work.tpos.toNat) vs
      work := { s.work with tpos := s.work.tpos + BitVec.ofNat 13 vs.length } } := by
  induction vs generalizing s with
  | nil => simp [writeTree]
  | cons v vs ih =>
    simp only [List.length_cons] at hs hc
    have h₁ : ¬ Config.tsizeMax ≤ s.work.tpos.toNat := by simp [Config.tsizeMax]; omega
    have h₂ : memWrite (2 + s.work.tpos.toNat) v s
        = .ok { s with obuf := Mem.set s.obuf (2 + s.work.tpos.toNat) v } := memWrite_ok.2 ⟨by omega, rfl⟩
    have h₃ : (s.work.tpos + 1#13).toNat = s.work.tpos.toNat + 1 := by
      rw [BitVec.toNat_add]; simp; omega
    rw [writeTree, if_neg h₁, h₂, res_bind_ok, ih _ (by simp only; omega) (by simp only; omega)]
    simp only [h₃, Mem.setMany, List.length_cons]
    have h₄ : s.work.tpos + 1#13 + BitVec.ofNat 13 vs.length = s.work.tpos + BitVec.ofNat 13 (vs.length + 1) := by
      rw [BitVec.ofNat_add, BitVec.add_assoc, BitVec.add_comm 1#13]
    rw [h₄, Nat.add_assoc]

/-- TSER's loop where a byte does not fit OBUF before the size limit is met (R141). -/
theorem writeTree_alloc (vs : List Byte) (s : State) (hs : s.params.obufCap.toNat < 2 + 8191)
    (ht : s.work.tpos.toNat ≤ 8191) (hc : s.params.obufCap.toNat < 2 + s.work.tpos.toNat + vs.length)
    (hr : 2 + s.work.tpos.toNat ≤ s.params.obufCap.toNat ∨ (s.work.tpos.toNat < 8191 ∧ vs ≠ [])) :
    writeTree vs s = .error .allocationFailure := by
  induction vs generalizing s with
  | nil =>
    exfalso
    simp at hc hr
    omega
  | cons v vs ih =>
    simp only [List.length_cons] at hc
    have h₁ : ¬ Config.tsizeMax ≤ s.work.tpos.toNat := by simp [Config.tsizeMax]; omega
    rw [writeTree, if_neg h₁]
    by_cases hw : 2 + s.work.tpos.toNat < s.params.obufCap.toNat
    · have h₃ : (s.work.tpos + 1#13).toNat = s.work.tpos.toNat + 1 := by
        rw [BitVec.toNat_add]; simp; omega
      rw [memWrite_ok.2 ⟨hw, rfl⟩, res_bind_ok]
      exact ih _ hs (by simp only; omega) (by simp only; omega) (.inl (by simp only; omega))
    · rw [memWrite_error.2 ⟨by omega, rfl⟩, res_bind_error]

/-- TSER's loop where the size limit is met (R141). -/
theorem writeTree_size (vs : List Byte) (s : State) (hs : 2 + 8191 ≤ s.params.obufCap.toNat)
    (ht : s.work.tpos.toNat ≤ 8191) (hc : 8191 < s.work.tpos.toNat + vs.length) :
    writeTree vs s = .error .unsupportedTreeSize := by
  induction vs generalizing s with
  | nil => simp at hc; omega
  | cons v vs ih =>
    simp only [List.length_cons] at hc
    rw [writeTree]
    by_cases h : s.work.tpos.toNat = 8191
    · rw [if_pos (by simp [Config.tsizeMax, h])]
    · have h₁ : ¬ Config.tsizeMax ≤ s.work.tpos.toNat := by simp [Config.tsizeMax]; omega
      have h₃ : (s.work.tpos + 1#13).toNat = s.work.tpos.toNat + 1 := by
        rw [BitVec.toNat_add]; simp; omega
      rw [if_neg h₁, memWrite_ok.2 ⟨by omega, rfl⟩, res_bind_ok]
      exact ih _ hs (by simp only; omega) (by simp only; omega)

/-- A serialized tree has at least one byte. -/
theorem ser_ne_nil (t : Tree) : t.ser ≠ [] := by
  cases t <;> simp [Tree.ser]
  split <;> simp

/-- Everything a leaf token can do. -/
theorem leafOf_ok {k : Nat} {sym : Byte} {s t : State} :
    leafOf k sym s = .ok t ↔ tokenFits k s = true ∧ t = { s with
      tree := (closeSubtree (.leaf sym) s.work.tstack).1.or s.tree
      work := { s.work with
        tpos := s.work.tpos + BitVec.ofNat 13 k, tstack := (closeSubtree (.leaf sym) s.work.tstack).2 } } := by
  unfold leafOf
  split
  · rename_i h
    cases hr : (closeSubtree (.leaf sym) s.work.tstack).1 <;> simp [h, hr, eq_comm]
  · simp_all

theorem leafOf_error {k : Nat} {sym : Byte} {s : State} {e : ErrKind} :
    leafOf k sym s = .error e ↔ tokenFits k s = false ∧ e = .malformedTree := by
  by_cases h : tokenFits k s = true <;> simp [leafOf, h, eq_comm]

/-- Everything a node token can do. -/
theorem nodeToken_ok {s t : State} :
    nodeToken s = .ok t ↔ tokenFits 1 s = true ∧ t = { s with
      work := { s.work with tpos := s.work.tpos + 1#13, tstack := .left :: s.work.tstack } } := by
  by_cases h : tokenFits 1 s = true <;> simp [nodeToken, h, eq_comm]

theorem nodeToken_error {s : State} {e : ErrKind} :
    nodeToken s = .error e ↔ tokenFits 1 s = false ∧ e = .malformedTree := by
  by_cases h : tokenFits 1 s = true <;> simp [nodeToken, h, eq_comm]

/-- What a token's size bound says. -/
theorem tokenFits_iff {k : Nat} {s : State} :
    tokenFits k s = true ↔ s.work.tstack ≠ [] ∧ s.work.tpos.toNat + k ≤ s.hdr.tsize.toNat := by
  simp [tokenFits]

/-- Closing a subtree empties the stack only by completing the root. -/
theorem closeSubtree_empty (t : Tree) (fs : List Frame) (h : (closeSubtree t fs).2 = []) :
    (closeSubtree t fs).1.isSome = true := by
  induction fs generalizing t with
  | nil => simp [closeSubtree]
  | cons f fs ih =>
    cases f with
    | root => simp [closeSubtree]
    | left => simp [closeSubtree] at h
    | right l => exact ih _ h

/-- Everything TDES's entry can do (R147). -/
theorem treeEntry_ok {s t : State} :
    treeEntry s = .ok t ↔ s.status.tszV = true ∧ s.srcLen.toNat ≤ s.params.ibufCap.toNat ∧
      2 + s.hdr.tsize.toNat ≤ s.srcLen.toNat ∧
      t = { s with work := { s.work with tpos := 0#13, tstack := [.root] } } := by
  by_cases h : s.srcLen.toNat < 2 + s.hdr.tsize.toNat
  · have h' : ¬ 2 + s.hdr.tsize.toNat ≤ s.srcLen.toNat := by omega
    simp [treeEntry, res_bind_eq_ok, h, h']
  · have h' : 2 + s.hdr.tsize.toNat ≤ s.srcLen.toNat := by omega
    simp [treeEntry, res_bind_eq_ok, h, h', eq_comm (a := t)]

/-- Everything TDES's exit can do (R148). -/
theorem treeExit_ok {s t : State} :
    treeExit s = .ok t ↔ s.work.tstack = [] ∧ s.work.tpos = s.hdr.tsize ∧
      t = { s with status := s.status.afterTdes } := by
  by_cases h₁ : s.work.tstack = [] <;> by_cases h₂ : s.work.tpos = s.hdr.tsize <;>
    simp [treeExit, h₁, h₂, eq_comm (a := t)]

theorem treeExit_error {s : State} {e : ErrKind} :
    treeExit s = .error e ↔ (s.work.tstack ≠ [] ∨ s.work.tpos ≠ s.hdr.tsize) ∧ e = .malformedTree := by
  by_cases h₁ : s.work.tstack = [] <;> by_cases h₂ : s.work.tpos = s.hdr.tsize <;>
    simp [treeExit, h₁, h₂, eq_comm (a := e)]

end Sys2Proof.Machine
end

