-- ==== Sys2Proof/Laws/Units.lean ====
section
/-! SUPPORT. Sys2Proof/Laws/Units.lean: everything FREQ, BUILD, CGEN, PADC, HENC and HDEC can do, one lemma per body. -/

namespace Sys2Proof.Machine

theorem freqBody_ok {s t : State} :
    freqBody s = .ok t ↔ s.srcLen.toNat ≤ s.params.ibufCap.toNat ∧
      t = { s with freq := countInto (Vector.replicate 256 0#32) s.input, status := s.status.afterFreq } := by
  simp [freqBody, res_bind_eq_ok, eq_comm (a := t)]

theorem freqBody_error {s : State} {e : ErrKind} :
    freqBody s = .error e ↔ s.params.ibufCap.toNat < s.srcLen.toNat ∧ e = .allocationFailure := by
  simp [freqBody, res_bind_eq_error]

theorem buildBody_ok {s t : State} :
    buildBody s = .ok t ↔ s.status.freqV = true ∧ ∃ e q, builtQueue s.freq = e :: q ∧
      t = { s with tree := some e.tree, pq := [], status := s.status.afterBuild } := by
  cases h : builtQueue s.freq <;> simp [buildBody, res_bind_eq_ok, h, eq_comm (a := t)]

theorem buildBody_error {s : State} {e : ErrKind} :
    buildBody s = .error e ↔ (s.status.freqV = false ∧ e = .badSequence) ∨
      (s.status.freqV = true ∧ builtQueue s.freq = [] ∧ e = .emptyInput) := by
  cases h : builtQueue s.freq <;> simp [buildBody, res_bind_eq_error, h, eq_comm (a := e)]

theorem cgenBody_ok {s t : State} :
    cgenBody s = .ok t ↔ s.status.treeBuilt = true ∧ s.status.treeV = true ∧ ∃ r, s.tree = some r ∧
      t = { s with
        code := codeTable r
        work := { s.work with path := [], tstack := [] }
        status := s.status.afterCgen } := by
  simp only [cgenBody, res_bind_eq_ok, requireTree_ok]
  constructor
  · rintro ⟨r, ⟨h₁, h₂, h₃⟩, h⟩
    exact ⟨h₁, h₂, r, h₃, by simpa using h.symm⟩
  · rintro ⟨h₁, h₂, r, h₃, rfl⟩
    exact ⟨r, ⟨h₁, h₂, h₃⟩, rfl⟩

theorem cgenBody_error {s : State} {e : ErrKind} :
    cgenBody s = .error e ↔
      (s.status.treeBuilt = false ∨ s.status.treeV = false ∨ s.tree = none) ∧ e = .badSequence := by
  simp [cgenBody, res_bind_eq_error, requireTree_error]

theorem padcBody_ok {s t : State} :
    padcBody s = .ok t ↔ s.status.freqV = true ∧ s.status.codeV = true ∧
      t = { s with hdr := { s.hdr with pad := padOf s.freq s.code }, status := s.status.afterPadc } := by
  simp [padcBody, res_bind_eq_ok, and_assoc, eq_comm (a := t)]

theorem padcBody_error {s : State} {e : ErrKind} :
    padcBody s = .error e ↔ (s.status.freqV = true → s.status.codeV = false) ∧ e = .badSequence := by
  simp [padcBody, res_bind_eq_error]

theorem hencBody_ok {s t : State} :
    hencBody s = .ok t ↔ s.status.padV = true ∧ s.status.tszV = true ∧ 2 ≤ s.params.obufCap.toNat ∧
      t = { s with obuf := Mem.set (Mem.set s.obuf 0 s.hdr.hiByte) 1 s.hdr.loByte, ownBytes := Own.add 0 2 s.ownBytes } := by
  simp only [hencBody, res_bind_eq_ok, require_ok, memWrite_ok, Bool.and_eq_true]
  constructor
  · rintro ⟨-, ⟨h₁, h₂⟩, _, ⟨-, rfl⟩, _, ⟨h₃, rfl⟩, h⟩
    exact ⟨h₁, h₂, h₃, by simpa using h.symm⟩
  · rintro ⟨h₁, h₂, h₃, rfl⟩
    exact ⟨(), ⟨h₁, h₂⟩, _, ⟨by omega, rfl⟩, _, ⟨h₃, rfl⟩, rfl⟩

theorem hencBody_error {s : State} {e : ErrKind} :
    hencBody s = .error e ↔ ((s.status.padV = true → s.status.tszV = false) ∧ e = .badSequence) ∨
      (s.status.padV = true ∧ s.status.tszV = true ∧ s.params.obufCap.toNat < 2 ∧ e = .allocationFailure) := by
  simp only [hencBody, res_bind_eq_error, require_ok, require_error, memWrite_ok, memWrite_error, Bool.and_eq_true,
    Bool.and_eq_false_imp, reduceCtorEq, and_false, exists_false, or_false]
  constructor
  · rintro (h | ⟨-, ⟨h₁, h₂⟩, ⟨h₃, rfl⟩ | ⟨_, ⟨h₃, rfl⟩, h₄, rfl⟩⟩)
    · exact .inl h
    · exact .inr ⟨h₁, h₂, by omega, rfl⟩
    · exact .inr ⟨h₁, h₂, by simp only at h₄; omega, rfl⟩
  · rintro (h | ⟨h₁, h₂, h₃, rfl⟩)
    · exact .inl h
    · refine .inr ⟨(), ⟨h₁, h₂⟩, ?_⟩
      by_cases h : s.params.obufCap.toNat = 0
      · exact .inl ⟨by omega, rfl⟩
      · exact .inr ⟨_, ⟨by omega, rfl⟩, by simp only; omega, rfl⟩

theorem headerEntry_ok {s t : State} :
    headerEntry s = .ok t ↔ s.srcLen.toNat ≤ s.params.ibufCap.toNat ∧ 2 ≤ s.srcLen.toNat ∧ t = s := by
  by_cases h : s.srcLen.toNat < 2
  · have h' : ¬ 2 ≤ s.srcLen.toNat := by omega
    simp [headerEntry, res_bind_eq_ok, h, h']
  · have h' : 2 ≤ s.srcLen.toNat := by omega
    simp [headerEntry, res_bind_eq_ok, h, h', eq_comm (a := t)]

theorem headerEntry_error {s : State} {e : ErrKind} :
    headerEntry s = .error e ↔ (s.params.ibufCap.toNat < s.srcLen.toNat ∧ e = .allocationFailure) ∨
      (s.srcLen.toNat ≤ s.params.ibufCap.toNat ∧ s.srcLen.toNat < 2 ∧ e = .malformedHeader) := by
  by_cases h : s.srcLen.toNat < 2 <;> simp [headerEntry, res_bind_eq_error, h, eq_comm (a := e)]

theorem hdrItem_ok {pad : BitVec 3} {tsize : BitVec 13} {s t : State} :
    hdrItem pad tsize s = .ok t ↔ hdrConsistent pad.toNat tsize.toNat s.srcLen.toNat = true ∧
      t = { s with hdr := { pad := pad, tsize := tsize } } := by
  by_cases h : hdrConsistent pad.toNat tsize.toNat s.srcLen.toNat = true <;> simp [hdrItem, h, eq_comm (a := t)]

theorem hdrItem_error {pad : BitVec 3} {tsize : BitVec 13} {s : State} {e : ErrKind} :
    hdrItem pad tsize s = .error e ↔ hdrConsistent pad.toNat tsize.toNat s.srcLen.toNat = false ∧
      e = .malformedHeader := by
  by_cases h : hdrConsistent pad.toNat tsize.toNat s.srcLen.toNat = true <;> simp [hdrItem, h, eq_comm (a := e)]

/-- What header consistency says (R178). -/
theorem hdrConsistent_iff {pad tsize n : Nat} :
    hdrConsistent pad tsize n = true ↔ 2 ≤ n ∧ 2 + tsize ≤ n ∧ (n = 2 + tsize → pad = 0) := by
  simp [hdrConsistent, and_assoc, imp_iff_not_or]

/-- The header's fields, as HDEC reads them from two bytes. -/
def headerOf (b0 b1 : Byte) : Hdr := { pad := (b0 ++ b1).extractLsb' 13 3, tsize := (b0 ++ b1).extractLsb' 0 13 }

theorem headerWord_eq (s : State) :
    headerWord s = hdrItem (headerOf (s.ibufByte 0) (s.ibufByte 1)).pad
      (headerOf (s.ibufByte 0) (s.ibufByte 1)).tsize s := rfl

/-- The two header bytes as a number (R94, R177). -/
theorem headerOf_toNat (b0 b1 : Byte) :
    (headerOf b0 b1).pad.toNat * 8192 + (headerOf b0 b1).tsize.toNat = b0.toNat * 256 + b1.toNat := by
  have h0 := b0.isLt
  have h1 := b1.isLt
  simp only [headerOf, BitVec.extractLsb'_toNat, BitVec.toNat_append, Nat.shiftRight_eq_div_pow]
  rw [show b0.toNat <<< 8 ||| b1.toNat = b0.toNat * 256 + b1.toNat by
    rw [Nat.shiftLeft_eq, Nat.mul_comm, ← Nat.two_pow_add_eq_or_of_lt h1]]
  omega

/-- The header fields are fixed by that number. -/
theorem headerOf_unique {b0 b1 : Byte} {pad : BitVec 3} {tsize : BitVec 13}
    (h : pad.toNat * 8192 + tsize.toNat = b0.toNat * 256 + b1.toNat) :
    headerOf b0 b1 = { pad := pad, tsize := tsize } := by
  have hk := headerOf_toNat b0 b1
  have hp := pad.isLt
  have ht := tsize.isLt
  have ht' := (headerOf b0 b1).tsize.isLt
  have hp' := (headerOf b0 b1).pad.isLt
  cases hh : headerOf b0 b1 with
  | mk p t =>
    rw [hh] at hk ht' hp'
    simp only at hk ht' hp'
    congr 1 <;> apply BitVec.eq_of_toNat_eq <;> omega

theorem hdecBody_ok {s t : State} :
    hdecBody s = .ok t ↔ s.srcLen.toNat ≤ s.params.ibufCap.toNat ∧
      hdrConsistent (headerOf (s.ibufByte 0) (s.ibufByte 1)).pad.toNat
        (headerOf (s.ibufByte 0) (s.ibufByte 1)).tsize.toNat s.srcLen.toNat = true ∧
      t = { s with hdr := headerOf (s.ibufByte 0) (s.ibufByte 1), status := s.status.afterHdec } := by
  simp only [hdecBody, res_bind_eq_ok, headerEntry_ok, headerWord_eq, hdrItem_ok]
  constructor
  · rintro ⟨_, ⟨h₁, h₂, rfl⟩, _, ⟨h₃, rfl⟩, h⟩
    exact ⟨h₁, h₃, by simpa [headerExit] using h.symm⟩
  · rintro ⟨h₁, h₃, rfl⟩
    exact ⟨s, ⟨h₁, (hdrConsistent_iff.1 h₃).1, rfl⟩, _, ⟨h₃, rfl⟩, rfl⟩

theorem hdecBody_error {s : State} {e : ErrKind} :
    hdecBody s = .error e ↔ (s.params.ibufCap.toNat < s.srcLen.toNat ∧ e = .allocationFailure) ∨
      (s.srcLen.toNat ≤ s.params.ibufCap.toNat ∧
        hdrConsistent (headerOf (s.ibufByte 0) (s.ibufByte 1)).pad.toNat
          (headerOf (s.ibufByte 0) (s.ibufByte 1)).tsize.toNat s.srcLen.toNat = false ∧ e = .malformedHeader) := by
  simp only [hdecBody, res_bind_eq_error, headerEntry_ok, headerEntry_error, headerWord_eq, hdrItem_ok, hdrItem_error,
    reduceCtorEq, and_false, exists_false, or_false]
  constructor
  · rintro ((h | ⟨h₁, h₂, rfl⟩) | ⟨_, ⟨h₁, h₂, rfl⟩, h₃, rfl⟩)
    · exact .inl h
    · refine .inr ⟨h₁, ?_, rfl⟩
      rw [Bool.eq_false_iff, ne_eq, hdrConsistent_iff]
      omega
    · exact .inr ⟨h₁, h₃, rfl⟩
  · rintro (h | ⟨h₁, h₃, rfl⟩)
    · exact .inl (.inl h)
    · by_cases h₂ : s.srcLen.toNat < 2
      · exact .inl (.inr ⟨h₁, h₂, rfl⟩)
      · exact .inr ⟨s, ⟨h₁, by omega, rfl⟩, h₃, rfl⟩

end Sys2Proof.Machine
end

