-- ==== Sys2Proof/Laws/Streams.lean ====
section
/-! SUPPORT. Sys2Proof/Laws/Streams.lean: what PACK.BIT, the walker's step and the loops over them can do: which fields
they touch, and how many bytes they need. -/

namespace Sys2Proof.Machine

/-- Everything PACK.BIT can do (R186). -/
theorem packBit_ok {d : Bool} {s t : State} :
    packBit d s = .ok t ↔
      (s.work.cnt ≠ 7#3 ∧ t = { s with
        work := { s.work with acc := placeBit s.work.acc s.work.cnt d, cnt := s.work.cnt + 1#3 } }) ∨
      (s.work.cnt = 7#3 ∧ s.work.opos.toNat < s.params.obufCap.toNat ∧ t = { s with
        obuf := Mem.set s.obuf s.work.opos.toNat (placeBit s.work.acc s.work.cnt d)
        work := { s.work with acc := 0#8, cnt := 0#3, opos := s.work.opos + 1#32 } }) := by
  by_cases h : s.work.cnt = 7#3
  · rw [packBit, if_pos h, res_bind_eq_ok]
    simp only [memWrite_ok]
    constructor
    · rintro ⟨_, ⟨h₁, rfl⟩, h₂⟩
      exact .inr ⟨h, h₁, by simpa using h₂.symm⟩
    · rintro (⟨h₁, -⟩ | ⟨-, h₁, rfl⟩)
      · exact absurd h h₁
      · exact ⟨_, ⟨h₁, rfl⟩, rfl⟩
  · simp [packBit, h, eq_comm (a := t)]

/-- PACK.BIT's one error (R186). -/
theorem packBit_error {d : Bool} {s : State} {e : ErrKind} :
    packBit d s = .error e ↔
      s.work.cnt = 7#3 ∧ s.params.obufCap.toNat ≤ s.work.opos.toNat ∧ e = .allocationFailure := by
  by_cases h : s.work.cnt = 7#3 <;> simp [packBit, h, res_bind_eq_error, memWrite_error]

/-- The packer's loops touch OBUF and the packer's registers, nothing else. -/
structure PackFrame (s t : State) : Prop where
  rest : t = { s with
    obuf := t.obuf
    work := { s.work with acc := t.work.acc, cnt := t.work.cnt, ipos := t.work.ipos, opos := t.work.opos } }
  room : s.work.opos.toNat ≤ s.params.obufCap.toNat → t.work.opos.toNat ≤ s.params.obufCap.toNat
  wf : Mem.wf s.obuf → Mem.wf t.obuf
  inside : (∀ c ∈ s.obuf, c.1 < s.params.obufCap.toNat) → ∀ c ∈ t.obuf, c.1 < s.params.obufCap.toNat

theorem PackFrame.refl (s : State) : PackFrame s s := ⟨rfl, id, id, id⟩

theorem PackFrame.params {s t : State} (h : PackFrame s t) : t.params = s.params := by rw [h.rest]

theorem PackFrame.trans {s t u : State} (h : PackFrame s t) (k : PackFrame t u) : PackFrame s u := by
  have hp := h.params
  refine ⟨?_, fun r => ?_, fun w => k.wf (h.wf w), fun i => ?_⟩
  · have h₁ := k.rest
    rw [h.rest] at h₁
    exact h₁
  · have := k.room
    rw [hp] at this
    exact this (h.room r)
  · have := k.inside
    rw [hp] at this
    exact this (h.inside i)

/-- The next output index, one write on, is still a 32-bit number inside the capacity (R24). -/
theorem opos_step {o c : Word} (h : o.toNat < c.toNat) : (o + 1#32).toNat = o.toNat + 1 := by
  have := c.isLt
  rw [BitVec.toNat_add]
  simp
  omega

theorem packBit_frame {d : Bool} {s t : State} (h : packBit d s = .ok t) : PackFrame s t := by
  rcases packBit_ok.1 h with ⟨-, rfl⟩ | ⟨-, hw, rfl⟩
  · exact ⟨rfl, id, id, id⟩
  · refine ⟨rfl, fun _ => ?_, fun w => Mem.set_wf w _ _, fun i => Mem.set_in i hw _⟩
    simp only [opos_step hw]
    omega

theorem packBits_frame {ds : List Bool} {s t : State} (h : packBits ds s = .ok t) : PackFrame s t := by
  induction ds generalizing s with
  | nil =>
    simp only [packBits, Except.ok.injEq] at h
    subst h
    exact .refl _
  | cons d ds ih =>
    simp only [packBits, res_bind_eq_ok] at h
    obtain ⟨u, hu, h⟩ := h
    exact (packBit_frame hu).trans (ih h)

/-- Everything one input byte can do (R187). -/
theorem packByte_ok {b : Byte} {s t : State} :
    packByte b s = .ok t ↔ (Table.at s.code b).len ≠ 0#8 ∧ ∃ u, packBits (Table.at s.code b).bits s = .ok u ∧
      t = { u with work := { u.work with ipos := u.work.ipos + 1#32 } } := by
  by_cases h : (Table.at s.code b).len = 0#8
  · simp [packByte, h]
  · simp [packByte, h, res_bind_eq_ok, eq_comm (a := t)]

theorem packInput_frame {bs : List Byte} {s t : State} (h : packInput bs s = .ok t) : PackFrame s t := by
  induction bs generalizing s with
  | nil =>
    simp only [packInput, Except.ok.injEq] at h
    subst h
    exact .refl _
  | cons b bs ih =>
    simp only [packInput, res_bind_eq_ok, packByte_ok] at h
    obtain ⟨_, ⟨-, u, hu, rfl⟩, h⟩ := h
    exact ((packBits_frame hu).trans (u := { u with work := { u.work with ipos := u.work.ipos + 1#32 } })
      ⟨rfl, id, id, id⟩).trans (ih h)

/-- Everything the flush can do (R187). -/
theorem packFlush_ok {s t : State} :
    packFlush s = .ok t ↔ (s.work.cnt = 0#3 ∧ t = s) ∨
      (s.work.cnt ≠ 0#3 ∧ s.work.opos.toNat < s.params.obufCap.toNat ∧ t = { s with
        obuf := Mem.set s.obuf s.work.opos.toNat s.work.acc
        work := { s.work with opos := s.work.opos + 1#32 } }) := by
  by_cases h : s.work.cnt = 0#3
  · simp [packFlush, h, eq_comm (a := t)]
  · rw [packFlush, if_neg h, res_bind_eq_ok]
    simp only [memWrite_ok]
    constructor
    · rintro ⟨_, ⟨h₁, rfl⟩, h₂⟩
      exact .inr ⟨h, h₁, by simpa using h₂.symm⟩
    · rintro (⟨h₁, -⟩ | ⟨-, h₁, rfl⟩)
      · exact absurd h₁ h
      · exact ⟨_, ⟨h₁, rfl⟩, rfl⟩

theorem packFlush_frame {s t : State} (h : packFlush s = .ok t) : PackFrame s t := by
  rcases packFlush_ok.1 h with ⟨-, rfl⟩ | ⟨-, hw, rfl⟩
  · exact .refl _
  · refine ⟨rfl, fun _ => ?_, fun w => Mem.set_wf w _ _, fun i => Mem.set_in i hw _⟩
    simp only [opos_step hw]
    omega

/-- The packer's registers as PACK sets them (R187). -/
def packStart (s : State) : State :=
  { s with work := { s.work with acc := 0#8, cnt := 0#3, ipos := 0#32, opos := 2#32 + s.hdr.tsize.setWidth 32 } }

/-- The stream index behind the tree is not reduced (R24). -/
theorem streamStart_toNat (n : BitVec 13) : (2#32 + n.setWidth 32).toNat = 2 + n.toNat := by
  have := n.isLt
  rw [BitVec.toNat_add, BitVec.toNat_setWidth]
  simp
  omega

/-- Everything PACK can do (R187). -/
theorem packBody_ok {s t : State} :
    packBody s = .ok t ↔ s.status.codeV = true ∧ s.status.tszV = true ∧ s.srcLen.toNat ≤ s.params.ibufCap.toNat ∧
      ∃ u v, packInput s.input (packStart s) = .ok u ∧ packFlush u = .ok v ∧
        t = { v with
          dstLen := v.work.opos
          ownBytes := Own.drop (2 + v.hdr.tsize.toNat) v.work.opos.toNat v.ownBytes } := by
  simp only [packBody, res_bind_eq_ok, require_ok, checkSource_ok, Bool.and_eq_true]
  constructor
  · rintro ⟨-, ⟨h₁, h₂⟩, -, h₃, u, hu, v, hv, h⟩
    exact ⟨h₁, h₂, h₃, u, v, hu, hv, by simpa using h.symm⟩
  · rintro ⟨h₁, h₂, h₃, u, v, hu, hv, rfl⟩
    exact ⟨(), ⟨h₁, h₂⟩, (), h₃, u, hu, v, hv, rfl⟩

/-- Everything an emitted symbol can do (R197). -/
theorem emit_ok {sym : Byte} {s t : State} :
    emit sym s = .ok t ↔ s.work.opos.toNat < s.params.obufCap.toNat ∧ t = { s with
      obuf := Mem.set s.obuf s.work.opos.toNat sym
      work := { s.work with opos := s.work.opos + 1#32 } } := by
  simp only [emit, res_bind_eq_ok, memWrite_ok]
  constructor
  · rintro ⟨_, ⟨h₁, rfl⟩, h₂⟩
    exact ⟨h₁, by simpa using h₂.symm⟩
  · rintro ⟨h₁, rfl⟩
    exact ⟨_, ⟨h₁, rfl⟩, rfl⟩

theorem emit_error {sym : Byte} {s : State} {e : ErrKind} :
    emit sym s = .error e ↔ s.params.obufCap.toNat ≤ s.work.opos.toNat ∧ e = .allocationFailure := by
  simp [emit, res_bind_eq_error, memWrite_error]

/-- The walker touches OBUF and the walker's registers, nothing else. -/
structure WalkFrame (s t : State) : Prop where
  rest : t = { s with
    obuf := t.obuf
    work := { s.work with cur := t.work.cur, opos := t.work.opos, spos := t.work.spos, bidx := t.work.bidx } }
  room : s.work.opos.toNat ≤ s.params.obufCap.toNat → t.work.opos.toNat ≤ s.params.obufCap.toNat
  wf : Mem.wf s.obuf → Mem.wf t.obuf
  inside : (∀ c ∈ s.obuf, c.1 < s.params.obufCap.toNat) → ∀ c ∈ t.obuf, c.1 < s.params.obufCap.toNat

theorem WalkFrame.refl (s : State) : WalkFrame s s := ⟨rfl, id, id, id⟩

theorem WalkFrame.params {s t : State} (h : WalkFrame s t) : t.params = s.params := by rw [h.rest]

theorem WalkFrame.trans {s t u : State} (h : WalkFrame s t) (k : WalkFrame t u) : WalkFrame s u := by
  have hp := h.params
  refine ⟨?_, fun r => ?_, fun w => k.wf (h.wf w), fun i => ?_⟩
  · have h₁ := k.rest
    rw [h.rest] at h₁
    exact h₁
  · have := k.room
    rw [hp] at this
    exact this (h.room r)
  · have := k.inside
    rw [hp] at this
    exact this (h.inside i)

theorem emit_frame {sym : Byte} {s t : State} (h : emit sym s = .ok t) : WalkFrame s t := by
  obtain ⟨hw, rfl⟩ := emit_ok.1 h
  refine ⟨rfl, fun _ => ?_, fun w => Mem.set_wf w _ _, fun i => Mem.set_in i hw _⟩
  simp only [opos_step hw]
  omega

theorem walkNode_frame {d : Bool} {r : Tree} {s t : State} (h : walkNode d r s = .ok t) : WalkFrame s t := by
  unfold walkNode at h
  split at h
  · simp at h
  · split at h
    · obtain ⟨u, hu, h⟩ := res_bind_eq_ok.1 h
      have hf := emit_frame hu
      simp only [Except.ok.injEq] at h
      subst h
      exact hf.trans ⟨rfl, id, id, id⟩
    · simp only [Except.ok.injEq] at h
      subst h
      exact ⟨rfl, id, id, id⟩

/-- A code bit, by the tree it walks (R197, R199). -/
theorem walkStep_node {d : Bool} {s : State} {l r : Tree} (ht : s.tree = some (.node l r)) :
    walkStep d s = (walkNode d (.node l r) s >>= fun u => .ok (advanceBit u)) := by
  simp [walkStep, ht]

theorem walkStep_leaf {d : Bool} {s : State} {sym : Byte} (ht : s.tree = some (.leaf sym)) :
    walkStep d s = (oneLeafStep d sym s >>= fun u => .ok (advanceBit u)) := by
  simp [walkStep, ht]

theorem walkStep_none {d : Bool} {s : State} (ht : s.tree = none) : walkStep d s = .error .malformedStream := by
  simp [walkStep, ht]

theorem walkStep_frame {d : Bool} {s t : State} (h : walkStep d s = .ok t) : WalkFrame s t := by
  rcases ht : s.tree with _ | r
  · simp [walkStep_none ht] at h
  · cases r with
    | leaf sym =>
      rw [walkStep_leaf ht, res_bind_eq_ok] at h
      obtain ⟨u, hu, h⟩ := h
      simp only [Except.ok.injEq] at h
      subst h
      unfold oneLeafStep at hu
      split at hu
      · simp at hu
      · exact (emit_frame hu).trans ⟨rfl, id, id, id⟩
    | node l r =>
      rw [walkStep_node ht, res_bind_eq_ok] at h
      obtain ⟨u, hu, h⟩ := h
      simp only [Except.ok.injEq] at h
      subst h
      exact (walkNode_frame hu).trans ⟨rfl, id, id, id⟩

theorem readStream_frame {k : Nat} {s t : State} (h : readStream k s = .ok t) : WalkFrame s t := by
  induction k generalizing s with
  | zero =>
    simp only [readStream, Except.ok.injEq] at h
    subst h
    exact .refl _
  | succ k ih =>
    simp only [readStream, res_bind_eq_ok] at h
    obtain ⟨u, hu, h⟩ := h
    exact (walkStep_frame hu).trans (ih h)

/-- The walker's registers as UNPK sets them (R198). -/
def streamStart (t : Tree) (s : State) : State :=
  { s with work := { s.work with cur := t, opos := 0#32, spos := 2#32 + s.hdr.tsize.setWidth 32, bidx := 0#3 } }

/-- Everything UNPK's entry can do (R198). -/
theorem streamEntry_ok {s t : State} :
    streamEntry s = .ok t ↔ s.status.treeV = true ∧ s.status.padV = true ∧ s.status.tszV = true ∧
      s.srcLen.toNat ≤ s.params.ibufCap.toNat ∧
      hdrConsistent s.hdr.pad.toNat s.hdr.tsize.toNat s.srcLen.toNat = true ∧
      ∃ r, s.tree = some r ∧ t = streamStart r s := by
  simp only [streamEntry, res_bind_eq_ok, requireTree_ok, checkSource_ok, Bool.and_eq_true]
  constructor
  · rintro ⟨r, ⟨⟨h₁, h₂⟩, h₃, h₄⟩, -, h₅, h⟩
    split at h
    · rename_i h₆
      exact ⟨h₃, h₁, h₂, h₅, h₆, r, h₄, by simpa [streamStart] using h.symm⟩
    · simp at h
  · rintro ⟨h₃, h₁, h₂, h₅, h₆, r, h₄, rfl⟩
    exact ⟨r, ⟨⟨h₁, h₂⟩, h₃, h₄⟩, (), h₅, by simp [h₆, streamStart]⟩

theorem streamEntry_error {s : State} {e : ErrKind} :
    streamEntry s = .error e ↔
      ((s.status.padV = false ∨ s.status.tszV = false ∨ s.status.treeV = false ∨ s.tree = none) ∧ e = .badSequence) ∨
      (s.status.padV = true ∧ s.status.tszV = true ∧ s.status.treeV = true ∧ s.tree.isSome = true ∧
        ((s.params.ibufCap.toNat < s.srcLen.toNat ∧ e = .allocationFailure) ∨
          (s.srcLen.toNat ≤ s.params.ibufCap.toNat ∧
            hdrConsistent s.hdr.pad.toNat s.hdr.tsize.toNat s.srcLen.toNat = false ∧ e = .malformedHeader))) := by
  simp only [streamEntry, res_bind_eq_error, requireTree_ok, requireTree_error, checkSource_ok, checkSource_error,
    Bool.and_eq_true, Bool.and_eq_false_iff]
  constructor
  · rintro (⟨h | h | h, rfl⟩ | ⟨r, ⟨⟨h₁, h₂⟩, h₃, h₄⟩, ⟨h₅, rfl⟩ | ⟨-, h₅, h⟩⟩)
    · exact .inl ⟨h.elim .inl (.inr ∘ .inl), rfl⟩
    · exact .inl ⟨.inr (.inr (.inl h)), rfl⟩
    · exact .inl ⟨.inr (.inr (.inr h)), rfl⟩
    · exact .inr ⟨h₁, h₂, h₃, by simp [h₄], .inl ⟨h₅, rfl⟩⟩
    · split at h
      · simp at h
      · rename_i h₆
        exact .inr ⟨h₁, h₂, h₃, by simp [h₄], .inr ⟨h₅, by simpa using h₆, by simpa using h.symm⟩⟩
  · rintro (⟨h | h | h | h, rfl⟩ | ⟨h₁, h₂, h₃, h₄, ⟨h₅, rfl⟩ | ⟨h₅, h₆, rfl⟩⟩)
    · exact .inl ⟨.inl (.inl h), rfl⟩
    · exact .inl ⟨.inl (.inr h), rfl⟩
    · exact .inl ⟨.inr (.inl h), rfl⟩
    · exact .inl ⟨.inr (.inr h), rfl⟩
    · obtain ⟨r, h₄⟩ := Option.isSome_iff_exists.1 h₄
      exact .inr ⟨r, ⟨⟨h₁, h₂⟩, h₃, h₄⟩, .inl ⟨h₅, rfl⟩⟩
    · obtain ⟨r, h₄⟩ := Option.isSome_iff_exists.1 h₄
      exact .inr ⟨r, ⟨⟨h₁, h₂⟩, h₃, h₄⟩, .inr ⟨(), h₅, by simp [h₆]⟩⟩

/-- Everything UNPK's exit can do (R198, R200). -/
theorem streamExit_ok {s t : State} :
    streamExit s = .ok t ↔ s.tree = some s.work.cur ∧
      t = { s with dstLen := s.work.opos, ownBytes := Own.drop 0 s.work.opos.toNat s.ownBytes } := by
  by_cases h : s.tree = some s.work.cur <;> simp [streamExit, h, eq_comm (a := t)]

theorem streamExit_error {s : State} {e : ErrKind} :
    streamExit s = .error e ↔ s.tree ≠ some s.work.cur ∧ e = .malformedStream := by
  by_cases h : s.tree = some s.work.cur <;> simp [streamExit, h, eq_comm (a := e)]

/-- The tree tokens touch `TREE` and the codec's registers, nothing else. -/
structure TokenFrame (s t : State) : Prop where
  rest : t = { s with tree := t.tree, work := { s.work with tpos := t.work.tpos, tstack := t.work.tstack } }
  held : s.tree.isSome = true → t.tree.isSome = true
  root : t.work.tstack = [] → t.tree.isSome = true ∨ s.work.tstack = []

theorem leafOf_frame {k : Nat} {sym : Byte} {s t : State} (h : leafOf k sym s = .ok t) : TokenFrame s t := by
  obtain ⟨-, rfl⟩ := leafOf_ok.1 h
  refine ⟨rfl, fun hs => ?_, fun he => ?_⟩
  · simp only
    cases (closeSubtree (.leaf sym) s.work.tstack).1 <;> simp [hs]
  · left
    obtain ⟨r, hr⟩ := Option.isSome_iff_exists.1 (closeSubtree_empty _ _ he)
    simp [hr]

theorem nodeToken_frame {s t : State} (h : nodeToken s = .ok t) : TokenFrame s t := by
  obtain ⟨-, rfl⟩ := nodeToken_ok.1 h
  exact ⟨rfl, id, fun he => by simp at he⟩

theorem treeToken_frame {s t : State} (h : treeToken s = .ok t) : TokenFrame s t := by
  unfold treeToken at h
  split at h
  · exact leafOf_frame h
  · exact nodeToken_frame h
  · exact leafOf_frame h
  · simp at h

theorem readTree_frame {k : Nat} {s t : State} (h : readTree k s = .ok t) : TokenFrame s t := by
  induction k generalizing s with
  | zero =>
    simp only [readTree, Except.ok.injEq] at h
    subst h
    exact ⟨rfl, id, .inr⟩
  | succ k ih =>
    unfold readTree at h
    split at h
    · simp only [Except.ok.injEq] at h
      subst h
      exact ⟨rfl, id, .inr⟩
    · rename_i he
      obtain ⟨u, hu, h⟩ := res_bind_eq_ok.1 h
      have h₁ := treeToken_frame hu
      have h₂ := ih h
      refine ⟨?_, fun hs => h₂.held (h₁.held hs), fun ht => ?_⟩
      · have := h₂.rest
        rw [h₁.rest] at this
        exact this
      · rcases h₂.root ht with h₃ | h₃
        · exact .inl h₃
        · rcases h₁.root h₃ with h₄ | h₄
          · exact .inl (h₂.held h₄)
          · exact absurd (by simp [h₄]) he

/-- Everything TDES can do (R147), with the tree it leaves. -/
theorem tdesBody_ok {s t : State} (h : tdesBody s = .ok t) :
    s.status.tszV = true ∧ s.srcLen.toNat ≤ s.params.ibufCap.toNat ∧ 2 + s.hdr.tsize.toNat ≤ s.srcLen.toNat ∧
      t.tree.isSome = true ∧ t.work.tstack = [] ∧
      t = { s with
        tree := t.tree
        work := { s.work with tpos := s.hdr.tsize, tstack := [] }
        status := s.status.afterTdes } := by
  simp only [tdesBody, res_bind_eq_ok] at h
  obtain ⟨u, hu, v, hv, h⟩ := h
  obtain ⟨h₁, h₂, h₃, rfl⟩ := treeEntry_ok.1 hu
  obtain ⟨h₄, h₅, rfl⟩ := treeExit_ok.1 h
  have hf := readTree_frame hv
  have hh : v.hdr = s.hdr := by rw [hf.rest]
  refine ⟨h₁, h₂, h₃, ?_, h₄, ?_⟩
  · rcases hf.root h₄ with h₆ | h₆
    · exact h₆
    · simp at h₆
  · have := hf.rest
    simp only [h₄, h₅, hh] at this
    rw [this]

/-- Everything UNPK can do (R198). -/
theorem unpkBody_ok {s t : State} :
    unpkBody s = .ok t ↔ ∃ u v, streamEntry s = .ok u ∧ readStream u.streamLen u = .ok v ∧ streamExit v = .ok t := by
  simp [unpkBody, res_bind_eq_ok]

end Sys2Proof.Machine
end

