-- ==== Sys2Proof/Laws/Engine.lean ====
section
/-! SUPPORT. Sys2Proof/Laws/Engine.lean: everything the orchestrators, the host's moves, the engine between two items and
one step can do, one lemma each. -/

namespace Sys2Proof.Machine

/-- Everything COMP can do (R210): the states after each unit. -/
theorem compBody_ok {s t : State} :
    compBody s = .ok t ↔ s.srcLen ≠ 0#32 ∧ ∃ s₁ s₂ s₃ s₄ s₅ s₆ s₇, freqBody s = .ok s₁ ∧ buildBody s₁ = .ok s₂ ∧
      cgenBody s₂ = .ok s₃ ∧ padcBody s₃ = .ok s₄ ∧ tserBody s₄ = .ok s₅ ∧ hencBody s₅ = .ok s₆ ∧
      packBody s₆ = .ok s₇ ∧ t = { s₇ with ownBytes := Own.drop 0 s₇.dstLen.toNat s₇.ownBytes } := by
  by_cases h : s.srcLen = 0#32
  · simp [compBody, h]
  · simp only [compBody, h, if_false, res_bind_eq_ok, ne_eq, not_false_eq_true, true_and]
    constructor
    · rintro ⟨s₁, h₁, s₂, h₂, s₃, h₃, s₄, h₄, s₅, h₅, s₆, h₆, s₇, h₇, h⟩
      exact ⟨s₁, s₂, s₃, s₄, s₅, s₆, s₇, h₁, h₂, h₃, h₄, h₅, h₆, h₇, by simpa using h.symm⟩
    · rintro ⟨s₁, s₂, s₃, s₄, s₅, s₆, s₇, h₁, h₂, h₃, h₄, h₅, h₆, h₇, rfl⟩
      exact ⟨s₁, h₁, s₂, h₂, s₃, h₃, s₄, h₄, s₅, h₅, s₆, h₆, s₇, h₇, rfl⟩

/-- Where COMP's error comes from (R210): the first unit that raises one. -/
theorem compBody_error {s : State} {e : ErrKind} :
    compBody s = .error e ↔ (s.srcLen = 0#32 ∧ e = .emptyInput) ∨ (s.srcLen ≠ 0#32 ∧ (freqBody s = .error e ∨
      ∃ s₁, freqBody s = .ok s₁ ∧ (buildBody s₁ = .error e ∨ ∃ s₂, buildBody s₁ = .ok s₂ ∧ (cgenBody s₂ = .error e ∨
      ∃ s₃, cgenBody s₂ = .ok s₃ ∧ (padcBody s₃ = .error e ∨ ∃ s₄, padcBody s₃ = .ok s₄ ∧ (tserBody s₄ = .error e ∨
      ∃ s₅, tserBody s₄ = .ok s₅ ∧ (hencBody s₅ = .error e ∨ ∃ s₆, hencBody s₅ = .ok s₆ ∧
      packBody s₆ = .error e))))))) := by
  by_cases h : s.srcLen = 0#32
  · simp [compBody, h, eq_comm (a := e)]
  · simp only [compBody, h, if_false, res_bind_eq_error, ne_eq, not_false_eq_true, true_and, false_and, false_or,
      reduceCtorEq, and_false, exists_false, or_false]

/-- Everything DECOMP can do (R211): the states after each unit. -/
theorem decompBody_ok {s t : State} :
    decompBody s = .ok t ↔ ∃ s₁ s₂, hdecBody s = .ok s₁ ∧ tdesBody s₁ = .ok s₂ ∧ unpkBody s₂ = .ok t := by
  simp only [decompBody, res_bind_eq_ok]
  constructor
  · rintro ⟨s₁, h₁, s₂, h₂, h₃⟩
    exact ⟨s₁, s₂, h₁, h₂, h₃⟩
  · rintro ⟨s₁, s₂, h₁, h₂, h₃⟩
    exact ⟨s₁, h₁, s₂, h₂, h₃⟩

/-- Where DECOMP's error comes from (R211): the first unit that raises one. -/
theorem decompBody_error {s : State} {e : ErrKind} :
    decompBody s = .error e ↔ hdecBody s = .error e ∨ ∃ s₁, hdecBody s = .ok s₁ ∧ (tdesBody s₁ = .error e ∨
      ∃ s₂, tdesBody s₁ = .ok s₂ ∧ unpkBody s₂ = .error e) := by
  simp only [decompBody, res_bind_eq_error]

/-- Everything CLR can do (R212). -/
theorem execClr_cases {s t : State} (h : execClr s = .next t) :
    (s.busy = true ∧ t = s) ∨ (s.busy = false ∧ t = s.clear) := by
  by_cases hb : s.busy = true
  · simp only [execClr, hb, if_true, Host.Outcome.next.injEq] at h
    exact .inl ⟨hb, h.symm⟩
  · simp only [execClr, hb] at h
    exact .inr ⟨by simpa using hb, by simpa using h.symm⟩

/-- Everything a reserved command code can do (R233, R239). -/
theorem illegalCommand_cases {s t : State} (h : illegalCommand s = .next t) :
    t = s ∨ (s.job = .idle ∧ s.status.err = none ∧ t = s.raise .illegalCommand) := by
  by_cases hb : (s.busy || s.status.err.isSome) = true
  · simp only [illegalCommand, hb, if_true, Host.Outcome.next.injEq] at h
    exact .inl h.symm
  · simp only [illegalCommand, hb] at h
    refine .inr ⟨?_, ?_, by simpa using h.symm⟩
    · simpa [State.busy] using (by simpa using hb : s.busy = false ∧ s.status.err = none).1
    · exact (by simpa using hb : s.busy = false ∧ s.status.err = none).2

/-- Everything a write to `CMD` can do (R26): a decoded command runs, or the code is reserved. -/
theorem writeCmd_cases {v : Word} {s t : State} (h : writeCmd v s = .next t) :
    (∃ i r, decode .cmd8 [v.setWidth 8] = .ok (i, r) ∧ exec i s = .next t) ∨
      ((∃ e, decode .cmd8 [v.setWidth 8] = .error e) ∧ illegalCommand s = .next t) := by
  unfold writeCmd at h
  split at h
  · next i r hd => exact .inl ⟨i, r, hd, h⟩
  · next e hd => exact .inr ⟨⟨e, hd⟩, h⟩

/-- Everything a host move can do while `BUSY` = 0 (R70): a buffer or length write clears the validity flags, a command
runs, a read only sets `hostRead`, reset resets; the rest changes nothing. -/
theorem hostMove_cases {m : HostMove} {s t : State} (h : hostMove m s = .next t) :
    t = s ∨ (∃ i v, i < s.params.ibufCap.toNat ∧ t = { s.clearValid with ibuf := Mem.set s.ibuf i v }) ∨
      (∃ v, t = { s.clearValid with srcLen := v }) ∨ (∃ v, writeCmd v s = .next t) ∨
      (∃ v, t = { s with hostRead := v }) ∨ t = s.resetEvent := by
  cases m with
  | writeIbuf i v =>
    simp only [hostMove] at h
    split at h
    · next hi => exact .inr (.inl ⟨i, v, hi, by simpa using h.symm⟩)
    · cases h
  | writeObuf j v =>
    simp only [hostMove] at h
    split at h
    · exact .inl (by simpa using h.symm)
    · cases h
  | writeCsr r v =>
    cases r with
    | cmd => exact .inr (.inr (.inr (.inl ⟨v, h⟩)))
    | srcLen => exact .inr (.inr (.inl ⟨v, by simpa [hostMove, writeCsr] using h.symm⟩))
    | status | hdr | dstLen => exact .inl (by simpa [hostMove, writeCsr] using h.symm)
  | readCsr r => exact .inr (.inr (.inr (.inr (.inl ⟨_, by simpa [hostMove] using h.symm⟩))))
  | readObuf j =>
    simp only [hostMove] at h
    split at h
    · exact .inr (.inr (.inr (.inr (.inl ⟨_, by simpa using h.symm⟩))))
    · cases h
  | readIbuf i =>
    simp only [hostMove] at h
    split at h
    · exact .inr (.inr (.inr (.inr (.inl ⟨_, by simpa using h.symm⟩))))
    · cases h
  | reset => exact .inr (.inr (.inr (.inr (.inr (by simpa [hostMove] using h.symm)))))
  | wait => exact .inr (.inr (.inr (.inr (.inl ⟨_, by simpa [hostMove] using h.symm⟩))))

/-- Everything a host move can do while `BUSY` = 1 (R71): nothing inside HBPU, but for reset. -/
theorem hostMoveBusy_cases {m : HostMove} {s t : State} (h : hostMoveBusy m s = .next t) :
    t = s ∨ (∃ v, t = { s with hostRead := v }) ∨ t = busyRead s ∨ t = s.resetEvent := by
  cases m with
  | writeIbuf i v =>
    simp only [hostMoveBusy] at h
    split at h
    · exact .inl (by simpa using h.symm)
    · cases h
  | writeObuf j v =>
    simp only [hostMoveBusy] at h
    split at h
    · exact .inl (by simpa using h.symm)
    · cases h
  | writeCsr r v => exact .inl (by simpa [hostMoveBusy] using h.symm)
  | readCsr r =>
    cases r with
    | status => exact .inr (.inl ⟨_, by simpa [hostMoveBusy] using h.symm⟩)
    | cmd | hdr | srcLen | dstLen => exact .inr (.inr (.inl (by simpa [hostMoveBusy] using h.symm)))
  | readObuf j =>
    simp only [hostMoveBusy] at h
    split at h
    · exact .inr (.inr (.inl (by simpa using h.symm)))
    · cases h
  | readIbuf i =>
    simp only [hostMoveBusy] at h
    split at h
    · exact .inr (.inr (.inl (by simpa using h.symm)))
    · cases h
  | reset => exact .inr (.inr (.inr (by simpa [hostMoveBusy] using h.symm)))
  | wait => exact .inr (.inl ⟨_, by simpa [hostMoveBusy] using h.symm⟩)

/-- Everything that can follow a code bit (R195, R200). -/
theorem settleStream_cases (w : Bool) (s : State) :
    (s.streamPos < s.streamLen ∧ settleStream w s = { s with job := .stream w }) ∨
      (s.streamLen ≤ s.streamPos ∧ ((∃ u, streamExit s = .ok u ∧ settleStream w s = u.finish) ∨
        ∃ e, streamExit s = .error e ∧ settleStream w s = s.raise e)) := by
  by_cases h : s.streamPos < s.streamLen
  · exact .inl ⟨h, by simp [settleStream, h]⟩
  · refine .inr ⟨by omega, ?_⟩
    cases he : streamExit s with
    | ok u => exact .inl ⟨u, rfl, by simp [settleStream, h, he, goOn]⟩
    | error e => exact .inr ⟨e, rfl, by simp [settleStream, h, he, goOn]⟩

/-- Everything that can follow a tree token (R145, R211). -/
theorem settleTree_cases (w : Bool) (s : State) :
    (s.work.tstack ≠ [] ∧ s.work.tpos.toNat < s.hdr.tsize.toNat ∧ settleTree w s = { s with job := .tree w }) ∨
      (∃ e, treeExit s = .error e ∧ settleTree w s = s.raise e) ∨
      (∃ u, treeExit s = .ok u ∧ ((w = false ∧ settleTree w s = u.finish) ∨
        (w = true ∧ ((∃ v, streamEntry u = .ok v ∧ settleTree w s = settleStream true v) ∨
          ∃ e, streamEntry u = .error e ∧ settleTree w s = u.raise e)))) := by
  by_cases h : (!s.work.tstack.isEmpty && decide (s.work.tpos.toNat < s.hdr.tsize.toNat)) = true
  · refine .inl ⟨?_, ?_, by simp only [settleTree, h, if_true]⟩
    · simpa using (by simpa using h : s.work.tstack ≠ [] ∧ s.work.tpos.toNat < s.hdr.tsize.toNat).1
    · exact (by simpa using h : s.work.tstack ≠ [] ∧ s.work.tpos.toNat < s.hdr.tsize.toNat).2
  · refine .inr ?_
    cases he : treeExit s with
    | error e => exact .inl ⟨e, rfl, by rw [settleTree, if_neg h, he]; rfl⟩
    | ok u =>
      refine .inr ⟨u, rfl, ?_⟩
      cases w with
      | false => exact .inl ⟨rfl, by rw [settleTree, if_neg h, he]; rfl⟩
      | true =>
        refine .inr ⟨rfl, ?_⟩
        cases hs : streamEntry u with
        | ok v => exact .inl ⟨v, rfl, by rw [settleTree, if_neg h, he]; simp [goOn, hs]⟩
        | error e => exact .inr ⟨e, rfl, by rw [settleTree, if_neg h, he]; simp [goOn, hs]⟩

/-- Everything that can follow the header word (R179, R211). -/
theorem settleHeader_cases (w : Bool) (s : State) :
    (w = false ∧ settleHeader w s = (headerExit s).finish) ∨
      (w = true ∧ ((∃ u, treeEntry (headerExit s) = .ok u ∧ settleHeader w s = { u with job := .tree true }) ∨
        ∃ e, treeEntry (headerExit s) = .error e ∧ settleHeader w s = s.raise e)) := by
  cases w with
  | false => exact .inl ⟨rfl, rfl⟩
  | true =>
    refine .inr ⟨rfl, ?_⟩
    cases he : treeEntry (headerExit s) with
    | ok u => exact .inl ⟨u, rfl, by simp [settleHeader, he, goOn]⟩
    | error e => exact .inr ⟨e, rfl, by simp [settleHeader, he, goOn]⟩

@[simp] theorem settle_idle {s : State} (h : s.job = .idle) : settle s = s := by simp [settle, h]

@[simp] theorem settleOutcome_next (s : State) : settleOutcome (.next s) = .next (settle s) := rfl

/-- Everything one item of an operation can do: it is executed and the engine moves on, or the bytes end inside a token. -/
theorem engineStep_cases {s t : State} (h : engineStep s = .next t) :
    (∃ i u, fetchItem s = .ok i ∧ exec i s = .next u ∧ t = settle u) ∨
      ((∃ e, fetchItem s = .error e) ∧ t = s.raise .malformedTree) := by
  unfold engineStep at h
  split at h
  · next i hi =>
    cases he : exec i s with
    | next u =>
      rw [he] at h
      exact .inl ⟨i, u, hi, he, by simpa using h.symm⟩
    | fault r => rw [he] at h; cases h
    | refused r => rw [he] at h; cases h
  · next e he => exact .inr ⟨⟨e, he⟩, by simpa using h.symm⟩

/-- Everything one step can do: nothing, with no host move and the engine idle; a host move; or one item. -/
theorem step_cases {s t : State} (h : step s = .next t) :
    (s.job = .idle ∧ s.script = [] ∧ t = s) ∨
      (∃ m rest, s.job = .idle ∧ s.script = m :: rest ∧ hostMove m { s with script := rest } = .next t) ∨
      (∃ m rest, s.job ≠ .idle ∧ s.script = m :: rest ∧ hostMoveBusy m { s with script := rest } = .next t) ∨
      (s.job ≠ .idle ∧ engineStep s = .next t) := by
  unfold step machineStep at h
  split at h
  · next hj =>
    split at h
    · next hs => exact .inl ⟨hj, hs, by simpa using h.symm⟩
    · next m rest hs => exact .inr (.inl ⟨m, rest, hj, hs, h⟩)
  · next hj =>
    split at h
    · exact .inr (.inr (.inr ⟨hj, h⟩))
    · exact .inr (.inr (.inr ⟨hj, h⟩))
    · next m rest _ hs => exact .inr (.inr (.inl ⟨m, rest, hj, hs, h⟩))

/-- A write to OBUF keeps its canonical form and its bounds. -/
theorem memWrite_wf {j : Nat} {v : Byte} {s t : State} (h : memWrite j v s = .ok t) (hw : Mem.wf s.obuf) :
    Mem.wf t.obuf := by
  obtain ⟨-, rfl⟩ := memWrite_ok.1 h
  exact Mem.set_wf hw _ _

/-- The buffers are in canonical form after reset. -/
theorem reset_wf : Mem.wf State.reset.ibuf ∧ Mem.wf State.reset.obuf := ⟨Mem.wf_nil, Mem.wf_nil⟩

/-- Placing bytes in IBUF keeps its canonical form. -/
theorem withIbuf_wf {bytes : List Byte} {s : State} {i : Nat} (h : Mem.wf s.ibuf) : Mem.wf (s.withIbuf i bytes).ibuf := by
  induction bytes generalizing s i with
  | nil => exact h
  | cons b bs ih => exact ih (s := { s with ibuf := Mem.set s.ibuf i b }) (Mem.set_wf h i b)

end Sys2Proof.Machine
end

