-- ==== Sys2Proof/Laws/PerInstr.lean ====
section
/-! SUPPORT. Sys2Proof/Laws/PerInstr.lean: the statements made per instruction: its encoding has the length its format
gives it, and begins with the byte its decoder tells it by. -/

namespace Sys2Proof.Laws.EncodedLength

/-- The encoding of `i` is `i.size` bytes long (R90), and a well-formed tree token whose encoding begins with the node
marker is `T.NODE`, one that begins with the escape marker is `T.ESC` (R96). -/
def Statement (i : Instr) : Prop :=
  (encode i).length = i.size ∧
    (i.format = .ttok → i.wf = true →
      ((encode i).head? = some Config.markNode ↔ i = .tNode) ∧
      ((encode i).head? = some Config.markEsc ↔ ∃ sym, i = .tEsc sym))

theorem freq : Statement .freq := ⟨rfl, fun h => absurd h (by decide)⟩

theorem build : Statement .build := ⟨rfl, fun h => absurd h (by decide)⟩

theorem tser : Statement .tser := ⟨rfl, fun h => absurd h (by decide)⟩

theorem tdes : Statement .tdes := ⟨rfl, fun h => absurd h (by decide)⟩

theorem cgen : Statement .cgen := ⟨rfl, fun h => absurd h (by decide)⟩

theorem padc : Statement .padc := ⟨rfl, fun h => absurd h (by decide)⟩

theorem henc : Statement .henc := ⟨rfl, fun h => absurd h (by decide)⟩

theorem hdec : Statement .hdec := ⟨rfl, fun h => absurd h (by decide)⟩

theorem pack : Statement .pack := ⟨rfl, fun h => absurd h (by decide)⟩

theorem unpk : Statement .unpk := ⟨rfl, fun h => absurd h (by decide)⟩

theorem comp : Statement .comp := ⟨rfl, fun h => absurd h (by decide)⟩

theorem decomp : Statement .decomp := ⟨rfl, fun h => absurd h (by decide)⟩

theorem clr : Statement .clr := ⟨rfl, fun h => absurd h (by decide)⟩

theorem hdr (pad : BitVec 3) (tsize : BitVec 13) : Statement (.hdr pad tsize) :=
  ⟨rfl, fun h => absurd h (by simp [Instr.format])⟩

theorem tEsc (sym : Byte) : Statement (.tEsc sym) :=
  ⟨rfl, fun _ _ => ⟨by simp [encode, Config.markNode, Config.markEsc], by simp [encode]⟩⟩

theorem tNode : Statement .tNode := ⟨rfl, fun _ _ => ⟨by simp [encode], by simp [encode, Config.markNode, Config.markEsc]⟩⟩

theorem tLeaf (sym : Byte) : Statement (.tLeaf sym) := by
  refine ⟨rfl, fun _ h => ?_⟩
  simp only [Instr.wf, Bool.and_eq_true, bne_iff_ne, ne_eq] at h
  simp [encode, Config.markNode, Config.markEsc, h.1, h.2]

theorem bLeft : Statement .bLeft := ⟨rfl, fun h => absurd h (by decide)⟩

theorem bRight : Statement .bRight := ⟨rfl, fun h => absurd h (by decide)⟩

end Sys2Proof.Laws.EncodedLength
end

