-- ==== Sys2Proof/Tests/Slice0.lean ====
section
/-! SUPPORT. Sys2Proof/Tests/Slice0.lean: the tests of the model: ill-formed terms refused, words written out from the
spec's encodings decoded, one or two vectors of spec/95_test_vectors.md per instruction (V and P numbers), and for every
statement with hypotheses a witness that meets them, clause by clause. -/

namespace Sys2Proof.Tests

set_option Elab.async false

open Sys2Proof Sys2Proof.Machine

/-! ## Well-formedness -/

theorem test_wf_refuses_node_marker : Instr.wf (.tLeaf 0x2A#8) = false := by decide
theorem test_wf_refuses_escape_marker : Instr.wf (.tLeaf 0x5C#8) = false := by decide
theorem test_wf_accepts_neighbours : Instr.wf (.tLeaf 0x2B#8) = true ∧ Instr.wf (.tLeaf 0x5B#8) = true := by decide

/-! ## Decoding: the words of R91, R93 (pad 7:5, tsize 12:8 in byte 0), R96 and R98 -/

theorem test_decode_freq : decode .cmd8 [0b00000001#8] = .ok (.freq, []) := by decide
theorem test_decode_build : decode .cmd8 [0b00000010#8] = .ok (.build, []) := by decide
theorem test_decode_tser : decode .cmd8 [0b00000011#8] = .ok (.tser, []) := by decide
theorem test_decode_tdes : decode .cmd8 [0b00000100#8] = .ok (.tdes, []) := by decide
theorem test_decode_cgen : decode .cmd8 [0b00000101#8] = .ok (.cgen, []) := by decide
theorem test_decode_padc : decode .cmd8 [0b00000110#8] = .ok (.padc, []) := by decide
theorem test_decode_henc : decode .cmd8 [0b00000111#8] = .ok (.henc, []) := by decide
theorem test_decode_hdec : decode .cmd8 [0b00001000#8] = .ok (.hdec, []) := by decide
theorem test_decode_pack : decode .cmd8 [0b00001001#8] = .ok (.pack, []) := by decide
theorem test_decode_unpk : decode .cmd8 [0b00001010#8] = .ok (.unpk, []) := by decide
theorem test_decode_comp : decode .cmd8 [0b00010000#8] = .ok (.comp, []) := by decide
theorem test_decode_decomp : decode .cmd8 [0b00010001#8] = .ok (.decomp, []) := by decide
theorem test_decode_clr : decode .cmd8 [0b00011111#8] = .ok (.clr, []) := by decide
theorem test_decode_reserved : decode .cmd8 [0x0B#8] = .error (.reservedCommand 0x0B#8) := by decide
/-- V33, V35: 22 01 is pad 1, tsize 513. -/
theorem test_decode_hdr : decode .hdr16 [0b00100010#8, 0b00000001#8] = .ok (.hdr 1#3 513#13, []) := by decide
/-- V34: E0 00 is pad 7, tsize 0; 1F FF is pad 0, tsize 8191. -/
theorem test_decode_hdr_ends : decode .hdr16 [0xE0#8, 0x00#8] = .ok (.hdr 7#3 0#13, []) ∧
    decode .hdr16 [0x1F#8, 0xFF#8] = .ok (.hdr 0#3 8191#13, []) := by decide
theorem test_decode_tEsc : decode .ttok [0b01011100#8, 0b00101010#8, 0x41#8] = .ok (.tEsc 0x2A#8, [0x41#8]) := by decide
theorem test_decode_tNode : decode .ttok [0b00101010#8, 0x42#8] = .ok (.tNode, [0x42#8]) := by decide
theorem test_decode_tLeaf : decode .ttok [0b01000001#8] = .ok (.tLeaf 0x41#8, []) := by decide
/-- V61: an escape byte with no byte after it is no token. -/
theorem test_decode_tEsc_cut : decode .ttok [0x5C#8] = .error .missingByte := by decide
theorem test_decode_bLeft : decode .cbit [0#8] = .ok (.bLeft, []) := by decide
theorem test_decode_bRight : decode .cbit [1#8] = .ok (.bRight, []) := by decide
/-- V32: pad 4, tsize 3 is 80 03. -/
theorem test_encode_hdr : encode (.hdr 4#3 3#13) = [0x80#8, 0x03#8] := by decide
/-- A placed word is the instruction the next step runs: 0x08 (HDEC) on the empty input of reset is MalformedHeader (V37),
and the header 80 03 in front of nothing is too. -/
theorem test_fetchWord : (match step (State.reset.withFetchWord 8 0x08) with | .next t => t.statusWord | _ => 0#16) = 0x0034#16 ∧
    (match step (State.reset.withFetchWord 16 0x8003) with | .next t => t.statusWord | _ => 0#16) = 0x0034#16 := by decide

/-! ## Small states -/

/-- Sixteen bytes of each buffer, as the programs of the spec assume. -/
def base : State := { State.reset with params := { ibufCap := 16#32, obufCap := 16#32 } }

/-- The input bytes, and `SRC_LEN` their number. -/
def loaded (bytes : List Byte) (s : State) : State :=
  { s with ibuf := bytes.zipIdx.map fun b => (b.2, b.1), srcLen := BitVec.ofNat 32 bytes.length }

/-- The six validity flags. -/
def flagged (freqV treeV treeBuilt codeV padV tszV : Bool) (s : State) : State :=
  { s with status := { s.status with freqV := freqV, treeV := treeV, treeBuilt := treeBuilt, codeV := codeV, padV := padV,
                                     tszV := tszV } }

/-- The capacities. -/
def capped (ibufCap obufCap : Nat) (s : State) : State :=
  { s with params := { ibufCap := BitVec.ofNat 32 ibufCap, obufCap := BitVec.ofNat 32 obufCap } }

/-- A tree, a header, a list of host moves. -/
def treed (t : Machine.Tree) (s : State) : State := { s with tree := some t }
def headed (pad : BitVec 3) (tsize : BitVec 13) (s : State) : State := { s with hdr := { pad := pad, tsize := tsize } }
def scripted (ms : List HostMove) (s : State) : State := { s with script := ms }
def failed (e : ErrKind) (s : State) : State := { s with status := { Status.zero with err := some e } }

/-- The state after an instruction. -/
def run (i : Instr) (s : State) : State := match exec i s with | .next t => t | _ => s

/-- Whether an outcome is a next state. -/
def isNext : Host.Outcome State Fault Refusal → Bool
  | .next _ => true
  | _ => false

theorem next_run {i : Instr} {s : State} (h : isNext (exec i s) = true) : exec i s = .next (run i s) := by
  unfold run
  cases he : exec i s <;> simp_all [isNext]

/-- The state after one step. -/
def stepped (s : State) : State := match step s with | .next t => t | _ => s

theorem next_stepped {s : State} (h : isNext (step s) = true) : step s = .next (stepped s) := by
  unfold stepped
  cases he : step s <;> simp_all [isNext]

/-- V1's tree, input, state after BUILD, CGEN and TSER, and compressed buffer. -/
def v1Tree : Machine.Tree := .node (.leaf 0x42#8) (.leaf 0x41#8)
def v1 : State := loaded [0x41#8, 0x41#8, 0x41#8, 0x42#8] base
def v1Freq : Table Word := Table.put (Table.put (Vector.replicate 256 0#32) 0x41#8 3#32) 0x42#8 1#32
def v1Code : Table Code :=
  Table.put (Table.put (Vector.replicate 256 Code.none) 0x41#8 { len := 1#8, pat := 1#255 }) 0x42#8 { len := 1#8, pat := 0#255 }
def v1Ready : State := flagged true true true true true true
  (headed 4#3 3#13 (treed v1Tree { v1 with freq := v1Freq, code := v1Code }))
def v1File : State := loaded [0x80#8, 0x03#8, 0x2A#8, 0x42#8, 0x41#8, 0xE0#8] base

theorem v1Freq_eq : v1Freq = countTable v1Ready.input := by
  rw [show v1Ready.input = [0x41#8, 0x41#8, 0x41#8, 0x42#8] by decide +kernel]
  refine Table.ext fun b => ?_
  by_cases h₁ : b = 0x42#8
  · subst h₁
    decide +kernel
  · by_cases h₂ : b = 0x41#8
    · subst h₂
      decide +kernel
    · rw [v1Freq, Table.at_put_ne _ _ h₁, Table.at_put_ne _ _ h₂, Table.at_replicate]
      simp [countTable, Table.at, List.count_cons, Ne.symm h₁, Ne.symm h₂]

/-- V1's compressed buffer after HDEC and TDES. -/
def v1Read : State := flagged false true false false true true (headed 4#3 3#13 (treed v1Tree v1File))

/-! ## One or two vectors per instruction -/

/-- V1: 41 41 41 42. -/
theorem test_freq_counts : Table.at (run .freq v1).freq 0x41#8 = 3#32 ∧ Table.at (run .freq v1).freq 0x42#8 = 1#32 ∧
    Table.at (run .freq v1).freq 0x43#8 = 0#32 ∧ (run .freq v1).statusWord = 0x0102#16 := by decide +kernel
/-- V13: `SRC_LEN` = `IBUF_CAP` + 1. -/
theorem test_freq_too_long : (run .freq (capped 3 16 v1)).statusWord = 0x0014#16 := by decide +kernel
/-- V22: 41 42 43, a tie behind which the merged node goes. -/
theorem test_build_ties : (run .build (run .freq (loaded [0x41#8, 0x42#8, 0x43#8] base))).tree =
    some (.node (.leaf 0x43#8) (.node (.leaf 0x41#8) (.leaf 0x42#8))) := by decide +kernel
/-- V28, P2: all counts 0; the status after BUILD. -/
theorem test_build_status : (run .build (run .freq base)).statusWord = 0x0024#16 ∧
    (run .build (run .freq v1)).statusWord = 0x0702#16 := by decide +kernel
/-- V44: the tree of 2A 5C, both leaves escaped. -/
theorem test_tser_escapes :
    let t := run .tser (flagged false true false false false false (treed (.node (.leaf 0x2A#8) (.leaf 0x5C#8)) base))
    t.hdr.tsize = 5#13 ∧ (List.range 5).map (fun k => Mem.get t.obuf (2 + k)) =
      [some 0x2A#8, some 0x5C#8, some 0x2A#8, some 0x5C#8, some 0x5C#8] := by decide +kernel
/-- V49: OBUF[4] does not fit. -/
theorem test_tser_full : (run .tser (capped 16 4 v1Ready)).statusWord = 0x0014#16 := by decide +kernel
/-- V55: 2A 5C 2A 2A 41 5C 5C. -/
theorem test_tdes_escapes : (run .tdes (flagged false false false false true true (headed 0#3 7#13
    (loaded [0#8, 7#8, 0x2A#8, 0x5C#8, 0x2A#8, 0x2A#8, 0x41#8, 0x5C#8, 0x5C#8] base)))).tree =
      some (.node (.leaf 0x2A#8) (.node (.leaf 0x41#8) (.leaf 0x5C#8))) := by decide +kernel
/-- V60, V63: the right subtree missing; a byte left over. -/
theorem test_tdes_malformed :
    (run .tdes (flagged false false false false true true (headed 0#3 2#13 (loaded [0#8, 2#8, 0x2A#8, 0x41#8, 0#8] base)))).statusWord
      = 0x0044#16 ∧
    (run .tdes (flagged false false false false true true
      (headed 0#3 4#13 (loaded [0#8, 4#8, 0x2A#8, 0x41#8, 0x42#8, 0x43#8] base)))).statusWord = 0x0044#16 := by decide +kernel
/-- V66: the codes "0", "10", "11". -/
theorem test_cgen_paths :
    let t := run .cgen (flagged true true true false false false
      (treed (.node (.leaf 0x43#8) (.node (.leaf 0x41#8) (.leaf 0x42#8))) base))
    Table.at t.code 0x43#8 = { len := 1#8, pat := 0#255 } ∧ Table.at t.code 0x41#8 = { len := 2#8, pat := 0b10#255 } ∧
      Table.at t.code 0x42#8 = { len := 2#8, pat := 0b11#255 } ∧ (Table.at t.code 0x44#8).len = 0#8 := by decide +kernel
/-- V64, V71: one leaf; a tree that BUILD did not make. -/
theorem test_cgen_one_leaf :
    Table.at (run .cgen (flagged true true true false false false (treed (.leaf 0x41#8) base))).code 0x41#8 =
      { len := 1#8, pat := 0#255 } ∧
    (run .cgen (flagged false true false false true true (treed v1Tree base))).statusWord = 0x0084#16 := by decide +kernel
/-- V73. -/
theorem test_padc : (run .padc v1Ready).hdr.pad = 4#3 := by decide +kernel
/-- V75: one symbol, N = 3. -/
theorem test_padc_wraps : (run .padc (flagged true true true true false false { base with
    freq := Table.put (Vector.replicate 256 0#32) 0x41#8 3#32, code := codeTable (.leaf 0x41#8) })).hdr.pad = 5#3 := by
  decide +kernel
/-- V1, V39. -/
theorem test_henc : (List.range 2).map (Mem.get (run .henc v1Ready).obuf) = [some 0x80#8, some 0x03#8] ∧
    (run .henc (flagged true true true true false true v1Ready)).statusWord = 0x0084#16 := by decide +kernel
/-- V36. -/
theorem test_hdec : (run .hdec v1File).hdr.word = 0x8003#16 ∧ (run .hdec v1File).statusWord = 0x3002#16 := by decide +kernel
/-- V37: pad 4 and an empty stream. -/
theorem test_hdec_empty_stream :
    (run .hdec (loaded [0x80#8, 0x03#8, 0x2A#8, 0x42#8, 0x41#8] base)).statusWord = 0x0034#16 := by decide +kernel
/-- V84. -/
theorem test_pack : Mem.get (run .pack v1Ready).obuf 5 = some 0xE0#8 ∧ (run .pack v1Ready).dstLen = 6#32 ∧
    (run .pack v1Ready).work.cnt = 4#3 := by decide +kernel
/-- The last line under V99: OBUF[5] does not fit. -/
theorem test_pack_full : (run .pack (capped 16 5 v1Ready)).statusWord = 0x0014#16 := by decide +kernel
/-- V100, V101: the padding bits are not read. -/
theorem test_unpk : (List.range 4).map (Mem.get (run .unpk
    { v1Read with ibuf := Mem.set v1Read.ibuf 5 0xEF#8 }).obuf) = [some 0x41#8, some 0x41#8, some 0x41#8, some 0x42#8] ∧
    (run .unpk v1Read).statusWord = 0x3202#16 := by decide +kernel
/-- After HENC on its own, and HDEC and TDES of 00 03 2A 42 41. -/
def v1Henced : State :=
  { flagged false true false false true true
      (headed 0#3 3#13 (treed v1Tree (loaded [0x00#8, 0x03#8, 0x2A#8, 0x42#8, 0x41#8] base))) with
    obuf := [(0, 0x00#8), (1, 0x03#8)], ownBytes := [0, 1] }

/-- V113: the fourth byte does not fit. R61: the two bytes of HENC outlive an UNPK of an empty stream. -/
theorem test_unpk_full : (run .unpk (capped 16 3 v1Read)).statusWord = 0x0014#16 ∧
    (run .unpk v1Henced).dstLen = 0#32 ∧ (List.range 2).map (run .unpk v1Henced).obufByte = [0x00#8, 0x03#8] := by
  decide +kernel
/-- V122: 5C 2A 2A. -/
theorem test_comp : let t := run .comp (loaded [0x5C#8, 0x2A#8, 0x2A#8] base)
    (List.range 8).map t.obufByte = [0xA0#8, 0x05#8, 0x2A#8, 0x5C#8, 0x5C#8, 0x5C#8, 0x2A#8, 0x60#8] ∧ t.dstLen = 8#32 ∧
      t.statusWord = 0x3F02#16 := by decide +kernel
/-- V4, V1 with `OBUF_CAP` = 5. -/
theorem test_comp_errors : (run .comp base).statusWord = 0x0024#16 ∧
    (run .comp (capped 16 5 v1)).statusWord = 0x0014#16 := by decide +kernel
/-- V107: one leaf 2A, five times. -/
theorem test_decomp : let t := run .decomp (loaded [0x60#8, 0x02#8, 0x5C#8, 0x2A#8, 0x00#8] base)
    (List.range 5).map t.obufByte = [0x2A#8, 0x2A#8, 0x2A#8, 0x2A#8, 0x2A#8] ∧ t.dstLen = 5#32 := by decide +kernel
/-- V109: the stream ends inside a code. -/
theorem test_decomp_cut : (run .decomp (loaded [0xE0#8, 0x05#8, 0x2A#8, 0x43#8, 0x2A#8, 0x41#8, 0x42#8, 0x80#8] base)).statusWord
    = 0x0054#16 := by decide +kernel
/-- V132. -/
theorem test_clr : (run .clr (failed .malformedTree v1)).statusWord = 0x0000#16 ∧
    (run .clr (failed .malformedTree v1)).srcLen = 4#32 := by decide +kernel
/-- V36's header word. -/
theorem test_hdr : (run (.hdr 4#3 3#13) v1File).hdr.word = 0x8003#16 := by decide +kernel

/-- The engine inside TDES, with the open places `fs`, `tpos` of `tsize` bytes read. -/
def inTree (tpos tsize : BitVec 13) (fs : List Frame) : State :=
  { headed 0#3 tsize base with job := .tree false, work := { Work.zero with tpos := tpos, tstack := fs } }

/-- V53: 5C 41 is a leaf 41. -/
theorem test_tEsc : (run (.tEsc 0x41#8) (inTree 0#13 2#13 [.root])).tree = some (.leaf 0x41#8) := by decide +kernel
/-- V54, the first token of 2A 42 41: the left place opens. -/
theorem test_tNode : (run .tNode (inTree 0#13 3#13 [.root])).work.tstack = [.left, .root] := by decide +kernel
/-- V54, the last token: the right subtree completes the root. -/
theorem test_tLeaf : (run (.tLeaf 0x41#8) (inTree 2#13 3#13 [.right (.leaf 0x42#8), .root])).tree = some v1Tree := by
  decide +kernel

/-- The engine inside UNPK at the first stream bit, the cursor at the root. -/
def inStream (t : Machine.Tree) (ocap : Nat) : State :=
  { treed t (capped 16 ocap v1File) with job := .stream false, work := { Work.zero with cur := t, spos := 5#32 } }

/-- V100's tree: 0 goes to L(42). -/
theorem test_bLeft : Mem.get (run .bLeft (inStream v1Tree 4)).obuf 0 = some 0x42#8 := by decide +kernel
/-- V100's tree: 1 goes to L(41); V108: a 1 under one leaf. -/
theorem test_bRight : Mem.get (run .bRight (inStream v1Tree 4)).obuf 0 = some 0x41#8 ∧
    (run .bRight (inStream (.leaf 0x41#8) 4)).statusWord = 0x0054#16 := by decide +kernel
/-- V95: the barrel shifter. -/
theorem test_packCode : (match packCode { len := 10#8, pat := 0x3FE#255 }
      { base with work := { Work.zero with acc := 0xA0#8, cnt := 3#3 } } with
    | .ok t => (Mem.get t.obuf 0, t.work.cnt, t.work.acc) | .error _ => (none, 0#3, 0#8)) = (some 0xBF#8, 5#3, 0xF0#8) := by
  decide +kernel
/-- V134, V136: a reserved code; an error is sticky. -/
theorem test_illegal : (stepped (scripted [.writeCsr .cmd 0#32] base)).statusWord = 0x0074#16 ∧
    (stepped (scripted [.writeCsr .cmd 0x10#32] (failed .illegalCommand v1))).statusWord = 0x0074#16 := by decide +kernel
/-- V137: a write to IBUF clears the validity flags and keeps `DONE`. -/
theorem test_write_clears_flags : (stepped (scripted [.writeIbuf 0 0x41#8] { v1Ready with status :=
    { v1Ready.status with done := true } })).statusWord = 0x0002#16 := by decide +kernel

/-! ## Witnesses: a state and operands that meet the hypotheses of each statement, clause by clause, at the ends of the
ranges -/

theorem witness_DecodeReadsBackEncode : Instr.wf (.tLeaf 0x00#8) = true ∧ Instr.wf (.hdr 7#3 8191#13) = true := by decide

theorem witness_EncodeGivesBackDecodedBytes : decode .ttok [0x5C#8, 0x5C#8, 0xFF#8] = .ok (.tEsc 0x5C#8, [0xFF#8]) := by
  decide

theorem witness_HeaderCodecsAreInverse : encodeHdr 7#3 8191#13 = [0xFF#8, 0xFF#8] := by decide

theorem witness_StepRunsTheWrittenCommand :
    let s := scripted [.writeCsr .cmd 0x0110#32, .wait] v1
    s.job = .idle ∧ s.script = .writeCsr .cmd 0x0110#32 :: [.wait] ∧
      decode .cmd8 [(0x0110#32).setWidth 8] = .ok (.comp, []) := by decide

/-- A header word, a token that is the last byte, a code bit, and the same with the host waiting. -/
theorem witness_StepRunsTheFetchedItem :
    let s := { v1File with job := .header true }
    let t := { inTree 2#13 3#13 [.right (.leaf 0x42#8), .root] with ibuf := v1File.ibuf }
    let u := inStream v1Tree 4
    (s.job ≠ .idle ∧ s.script = [] ∧ fetchItem s = .ok (.hdr 4#3 3#13)) ∧
      (t.job ≠ .idle ∧ t.script = [] ∧ fetchItem t = .ok (.tLeaf 0x41#8)) ∧
      (u.job ≠ .idle ∧ u.script = [] ∧ fetchItem u = .ok .bRight) ∧
      ((scripted [.wait] u).job ≠ .idle ∧ (scripted [.wait] u).script = .wait :: [] ∧
        fetchItem (scripted [.wait] u) = .ok .bRight) := by decide +kernel

/-- The reserved codes on either side of the defined ones (R92), and one whose bits above 7 are not 0. -/
theorem witness_ReservedCodeRaisesIllegalCommand :
    (∀ v, (scripted [.writeCsr .cmd v] base).Ready ∧
      (scripted [.writeCsr .cmd v] base).script = .writeCsr .cmd v :: []) ∧
    ∀ v ∈ [0x00, 0x0B, 0x0F, 0x12, 0x1E, 0x20, 0xFF, 0x100],
      (BitVec.ofNat 32 v).toNat % 256 ∉ [0x01, 0x02, 0x03, 0x04, 0x05, 0x06, 0x07, 0x08, 0x09, 0x0A, 0x10, 0x11, 0x1F] :=
  ⟨fun _ => ⟨⟨rfl, rfl⟩, rfl⟩, by decide⟩

theorem witness_ErrorIgnoresCommands :
    let s := scripted [.writeCsr .cmd 0x00#32] (failed .badSequence v1)
    s.job = .idle ∧ s.status.err.isSome = true ∧ isCommand .comp = true ∧ Instr.comp ≠ .clr ∧
      s.script = .writeCsr .cmd 0x00#32 :: [] ∧ (0x00#32).setWidth 8 ≠ 0x1F#8 := by decide

theorem witness_BusyIgnoresCommands : (inStream v1Tree 4).job ≠ .idle ∧ isCommand .clr = true := by decide

/-- A command that fails, and an item. -/
theorem witness_ErrorEntryLeaves :
    (base.status.err = none ∧ exec .comp base = .next (run .comp base) ∧
      (run .comp base).status.err = some .emptyInput) ∧
    ((inTree 0#13 1#13 []).status.err = none ∧
      exec .tNode (inTree 0#13 1#13 []) = .next (run .tNode (inTree 0#13 1#13 [])) ∧
      (run .tNode (inTree 0#13 1#13 [])).status.err = some .malformedTree) :=
  ⟨⟨rfl, next_run (by decide +kernel), by decide +kernel⟩, ⟨rfl, next_run (by decide +kernel), by decide +kernel⟩⟩

theorem witness_CommandsRaiseTheirOwnErrors :
    isCommand .build = true ∧ base.status.err = none ∧ exec .build base = .next (run .build base) ∧
      (run .build base).status.err = some .badSequence :=
  ⟨rfl, rfl, next_run (by decide +kernel), by decide +kernel⟩

/-- Each single flag at 0 with the others at 1; a command that requires none; then a byte without a code, the first one met, with room for exactly the
bytes before it. -/
theorem witness_MissingFlagRaisesBadSequence :
    (v1Ready.Ready ∧ (flagged false true true true true true v1Ready).status.freqV = false ∧
      (flagged true false true true true true v1Ready).status.treeV = false ∧
      (flagged true true false true true true v1Ready).status.treeBuilt = false ∧
      (flagged true true true false true true v1Ready).status.codeV = false ∧
      (flagged true true true true false true v1Ready).status.padV = false ∧
      (flagged true true true true true false v1Ready).status.tszV = false ∧
      isNext (exec .hdec v1Ready) = true) ∧
    (let s := capped 16 5 { v1Ready with code := Table.put v1Code 0x42#8 Code.none }
     s.Ready ∧ s.status.codeV = true ∧ s.status.tszV = true ∧ s.SourceFits ∧
      s.input = [0x41#8, 0x41#8, 0x41#8] ++ 0x42#8 :: [] ∧
      (∀ x ∈ [0x41#8, 0x41#8, 0x41#8], (Table.at s.code x).len ≠ 0#8) ∧ (Table.at s.code 0x42#8).len = 0#8 ∧
      2 + s.hdr.tsize.toNat + (bitsOf s.code [0x41#8, 0x41#8, 0x41#8]).length / 8 ≤ s.params.obufCap.toNat) := by
  unfold State.Ready State.SourceFits
  decide +kernel

theorem witness_SourceTooLongRaisesAllocationFailure :
    let s := capped 3 16 v1Ready
    s.Ready ∧ s.params.ibufCap.toNat < s.srcLen.toNat ∧ s.status.tszV = true ∧ s.status.codeV = true ∧
      s.status.treeV = true ∧ s.status.padV = true ∧ s.tree.isSome = true := by
  unfold State.Ready
  decide +kernel

/-- `SRC_LEN` = `IBUF_CAP`, `SRC_LEN` = `IBUF_CAP` + 1, and an empty input. -/
theorem witness_FreqCountsTheInput :
    (capped 4 16 v1).Ready ∧ (capped 4 16 v1).SourceFits ∧ ¬ (capped 3 16 v1).SourceFits ∧ base.SourceFits := by
  unfold State.Ready State.SourceFits
  decide

theorem witness_InsertGoesBehindEqualFrequencies :
    [QEntry.mk 1 (.leaf 0x41#8), ⟨2, .leaf 0x42#8⟩, ⟨2, .leaf 0x43#8⟩, ⟨5, .leaf 0x44#8⟩].Pairwise
      fun x y => x.freq ≤ y.freq := by decide

theorem witness_BuildMergesTheSeededQueue :
    (v1Ready.Ready ∧ v1Ready.status.freqV = true ∧ ∃ b, 0 < (Table.at v1Ready.freq b).toNat) ∧
    ((flagged true false false false false false base).status.freqV = true ∧
      ∀ b, (Table.at base.freq b).toNat = 0) ∧
    base.Ready ∧ base.status.freqV = false :=
  ⟨⟨⟨rfl, rfl⟩, rfl, 0x42#8, by decide +kernel⟩, ⟨rfl, fun b => by simp [base, State.reset]⟩, ⟨rfl, rfl⟩, rfl⟩

theorem witness_BuiltTreeHasTheCountedLeaves : ∃ b, 0 < (Table.at v1Freq b).toNat := ⟨0x42#8, by decide +kernel⟩

/-- The full tree of a depth. -/
def full : Nat → Machine.Tree
  | 0 => .leaf 0x41#8
  | n + 1 => .node (full n) (full n)

theorem full_ser_length (n : Nat) : (full n).ser.length + 1 = 2 ^ (n + 1) := by
  induction n with
  | zero => rfl
  | succ n ih =>
    simp only [full, Tree.ser, List.length_cons, List.length_append]
    rw [Nat.pow_succ]
    omega

/-- OBUF that holds the tree exactly, one byte less, and a tree of 16383 bytes. -/
theorem witness_TserWritesTheSerializedTree :
    ((capped 16 5 v1Ready).Ready ∧ (capped 16 5 v1Ready).status.treeV = true ∧
      (capped 16 5 v1Ready).tree = some v1Tree ∧ v1Tree.ser.length ≤ 8191 ∧
      2 + v1Tree.ser.length ≤ (capped 16 5 v1Ready).params.obufCap.toNat) ∧
    ((capped 16 4 v1Ready).params.obufCap.toNat < 2 + v1Tree.ser.length ∧
      (capped 16 4 v1Ready).params.obufCap.toNat < 2 + 8191) ∧
    ((treed (full 13) (capped 16 8193 v1Ready)).tree = some (full 13) ∧ 8191 < (full 13).ser.length ∧
      2 + 8191 ≤ (treed (full 13) (capped 16 8193 v1Ready)).params.obufCap.toNat) ∧
    base.status.treeV = false := by
  refine ⟨⟨⟨rfl, rfl⟩, rfl, rfl, by decide, by decide⟩, by decide, ⟨rfl, ?_, by decide⟩, rfl⟩
  have := full_ser_length 13
  omega

theorem witness_SerializedLengthCounts : builtTree v1Freq = some v1Tree := by decide +kernel

/-- With a needed escape, and with one nobody needed (V53). -/
theorem witness_TreeCodecsAreInverse :
    des [0x2A#8, 0x5C#8, 0x2A#8, 0x41#8] = some (.node (.leaf 0x2A#8) (.leaf 0x41#8)) ∧
      des [0x5C#8, 0x41#8] = some (.leaf 0x41#8) := by decide

/-- The tree bytes end the input; one byte fewer; `SRC_LEN` over the capacity; a tree cut short; a good tree. -/
theorem witness_TdesStoresTheDeserializedTree :
    let s := capped 5 16 (loaded [0x80#8, 0x03#8, 0x2A#8, 0x42#8, 0x41#8] v1Read)
    (s.Ready ∧ s.status.tszV = true ∧ s.SourceFits ∧ 2 + s.hdr.tsize.toNat ≤ s.srcLen.toNat ∧
      des s.treeInput = some v1Tree) ∧
    (let u := headed 0#3 4#13 s
     u.SourceFits ∧ u.srcLen.toNat < 2 + u.hdr.tsize.toNat) ∧
    ¬ (capped 4 16 s).SourceFits ∧ des (headed 0#3 2#13 s).treeInput = none ∧ base.status.tszV = false := by
  unfold State.Ready State.SourceFits
  decide +kernel

theorem witness_TreeTokensTakeEffect :
    (let s := inTree 1#13 3#13 [.left, .root]
     s.work.tstack ≠ [] ∧ s.work.tpos.toNat + 2 ≤ s.hdr.tsize.toNat) ∧
    (let s := inTree 2#13 3#13 [.right (.leaf 0x42#8), .root]
     s.work.tstack ≠ [] ∧ s.work.tpos.toNat + 1 ≤ s.hdr.tsize.toNat ∧ s.hdr.tsize.toNat < s.work.tpos.toNat + 2) ∧
    (let s := inTree 3#13 3#13 [.left]
     s.hdr.tsize.toNat < s.work.tpos.toNat + 1) ∧
    (inTree 1#13 3#13 []).work.tstack = [] := by decide

theorem witness_CgenGivesEachLeafItsPath :
    (v1Ready.Ready ∧ v1Ready.status.treeV = true ∧ v1Ready.status.treeBuilt = true ∧ v1Ready.tree = some v1Tree ∧
      v1Tree.leaves.Nodup ∧ v1Tree.depth ≤ 255) ∧ v1Read.Ready ∧ v1Read.status.treeBuilt = false ∧
      base.status.treeV = false := by
  unfold State.Ready
  decide +kernel

theorem witness_NoCodeIsAnothersBeginning :
    v1Tree.leaves.Nodup ∧ (0x42#8, [false]) ∈ v1Tree.codes ∧ (0x41#8, [true]) ∈ v1Tree.codes ∧
      ([false] <+: [false]) := by decide

theorem witness_PadcComputesThePadding :
    v1Ready.Ready ∧ v1Ready.status.freqV = true ∧ v1Ready.status.codeV = true ∧
      (flagged true true true false true true v1Ready).status.codeV = false ∧ base.status.freqV = false := by
  unfold State.Ready
  decide

theorem witness_PackerAgreesWithTheCalculator :
    v1Ready.Ready ∧ exec .pack v1Ready = .next (run .pack v1Ready) ∧ (run .pack v1Ready).status.err = none ∧
      v1Ready.freq = countTable v1Ready.input :=
  ⟨⟨rfl, rfl⟩, next_run (by decide +kernel), by decide +kernel, v1Freq_eq⟩

theorem witness_HencStoresTheHeader :
    v1Ready.Ready ∧ v1Ready.status.padV = true ∧ v1Ready.status.tszV = true ∧
      2 ≤ (capped 16 2 v1Ready).params.obufCap.toNat ∧ (capped 16 1 v1Ready).params.obufCap.toNat < 2 ∧
      base.status.padV = false := by
  unfold State.Ready
  decide

/-- The tree bytes and nothing after them with padding 0, and with padding 4; a length over the capacity. -/
theorem witness_HdecTakesTheHeader :
    (let s := capped 5 16 (loaded [0x00#8, 0x03#8, 0x2A#8, 0x42#8, 0x41#8] base)
     s.Ready ∧ 0 * 8192 + 3 = (s.ibufByte 0).toNat * 256 + (s.ibufByte 1).toNat ∧ s.SourceFits ∧
      2 ≤ s.srcLen.toNat ∧ 2 + 3 ≤ s.srcLen.toNat ∧ ¬ (capped 4 16 s).SourceFits) ∧
    (let s := loaded [0x80#8, 0x03#8, 0x2A#8, 0x42#8, 0x41#8] base
     s.Ready ∧ 4 * 8192 + 3 = (s.ibufByte 0).toNat * 256 + (s.ibufByte 1).toNat ∧ s.SourceFits ∧
      ¬ (2 ≤ s.srcLen.toNat ∧ 2 + 3 ≤ s.srcLen.toNat ∧ (s.srcLen.toNat = 2 + 3 → 4#3 = 0#3))) := by
  unfold State.Ready State.SourceFits
  decide +kernel

theorem witness_HeaderWordTakesEffect :
    (let s := loaded [0x00#8, 0x03#8, 0x2A#8, 0x42#8, 0x41#8] base
     2 ≤ s.srcLen.toNat ∧ 2 + (3#13).toNat ≤ s.srcLen.toNat ∧ (s.srcLen.toNat = 2 + (3#13).toNat → 0#3 = 0#3)) ∧
    ¬ (2 ≤ base.srcLen.toNat) := by decide

/-- Exactly enough room; one byte less; a byte without a code with room and without; a length over the capacity. -/
theorem witness_PackWritesThePackedBits :
    (let s := capped 4 6 v1Ready
     s.Ready ∧ s.status.codeV = true ∧ s.status.tszV = true ∧ s.SourceFits ∧
      (∀ b ∈ s.input, (Table.at s.code b).len ≠ 0#8) ∧
      2 + s.hdr.tsize.toNat + (packBytes (bitsOf s.code s.input)).length ≤ s.params.obufCap.toNat ∧
      packBytes (bitsOf s.code s.input) ≠ [] ∧
      (capped 4 5 s).params.obufCap.toNat < 2 + s.hdr.tsize.toNat + (packBytes (bitsOf s.code s.input)).length) ∧
    (let s := { v1Ready with code := Table.put (codeTable (.leaf 0x41#8)) 0x41#8 { len := 3#8, pat := 5#255 } }
     s.SourceFits ∧ s.input = [0x41#8, 0x41#8, 0x41#8] ++ 0x42#8 :: [] ∧
      (∀ x ∈ [0x41#8, 0x41#8, 0x41#8], (Table.at s.code x).len ≠ 0#8) ∧ (Table.at s.code 0x42#8).len = 0#8 ∧
      2 + s.hdr.tsize.toNat + (bitsOf s.code [0x41#8, 0x41#8, 0x41#8]).length / 8 ≤ (capped 4 6 s).params.obufCap.toNat ∧
      (capped 4 5 s).params.obufCap.toNat < 2 + s.hdr.tsize.toNat + (bitsOf s.code [0x41#8, 0x41#8, 0x41#8]).length / 8 ∧
      8 ≤ (bitsOf s.code [0x41#8, 0x41#8, 0x41#8]).length) ∧
    ¬ (capped 3 16 v1Ready).SourceFits ∧ base.status.codeV = false := by
  unfold State.Ready State.SourceFits
  decide +kernel

/-- The eighth bit, and the first. -/
theorem witness_PackBitKeepsFreeBitsZero :
    let s := { base with work := { Work.zero with acc := 0xFE#8, cnt := 7#3 } }
    (∀ k, k < 8 - s.work.cnt.toNat → s.work.acc.getLsbD k = false) ∧ (∃ t, packBit true s = .ok t) ∧
      (∀ k, k < 8 - base.work.cnt.toNat → base.work.acc.getLsbD k = false) ∧ ∃ t, packBit true base = .ok t :=
  ⟨by decide, ⟨_, rfl⟩, by decide, ⟨_, rfl⟩⟩

/-- V95, and the longest code. -/
theorem witness_BarrelShifterEqualsBitSerial :
    let s := { base with work := { Work.zero with acc := 0xA0#8, cnt := 3#3 } }
    (10#8 ≠ 0#8 ∧ (0x3FE#255).toNat < 2 ^ (10#8).toNat ∧
      ∀ k, k < 8 - s.work.cnt.toNat → s.work.acc.getLsbD k = false) ∧
    (255#8 ≠ 0#8 ∧ (BitVec.allOnes 255).toNat < 2 ^ (255#8).toNat) := by decide +kernel

/-- To a leaf with room for exactly one byte and for none, to an inner node, and under one leaf. -/
theorem witness_CodeBitsWalkTheTree :
    let t : Machine.Tree := .node (.leaf 0x43#8) (.node (.leaf 0x41#8) (.leaf 0x42#8))
    ((inStream t 1).tree = some t ∧ (inStream t 1).work.cur = t ∧
      (if false then Machine.Tree.node (.leaf 0x41#8) (.leaf 0x42#8) else .leaf 0x43#8) = .leaf 0x43#8 ∧
      (inStream t 1).work.opos.toNat < (inStream t 1).params.obufCap.toNat) ∧
    ((inStream t 0).params.obufCap.toNat ≤ (inStream t 0).work.opos.toNat) ∧
    ((if true then Machine.Tree.node (.leaf 0x41#8) (.leaf 0x42#8) else .leaf 0x43#8) =
      .node (.leaf 0x41#8) (.leaf 0x42#8)) ∧
    ((inStream (.leaf 0x41#8) 1).tree = some (.leaf 0x41#8) ∧
      (inStream (.leaf 0x41#8) 1).work.opos.toNat < (inStream (.leaf 0x41#8) 1).params.obufCap.toNat) ∧
    (inStream (.leaf 0x41#8) 0).params.obufCap.toNat ≤ (inStream (.leaf 0x41#8) 0).work.opos.toNat := by decide +kernel

/-- Exactly enough room, one byte less, an inconsistent header, a length over the capacity, a stream that ends inside a
code, a 1 bit under one leaf with room for the bytes before it and without, a required flag at 0. -/
theorem witness_UnpkEmitsTheDecodedBytes :
    (let s := capped 6 4 v1Read
     s.Ready ∧ s.status.treeV = true ∧ s.status.padV = true ∧ s.status.tszV = true ∧ s.tree = some v1Tree ∧ s.SourceFits ∧
      hdrConsistent s.hdr.pad.toNat s.hdr.tsize.toNat s.srcLen.toNat = true ∧
      unpackBits v1Tree s.streamInput = some [0x41#8, 0x41#8, 0x41#8, 0x42#8] ∧
      [0x41#8, 0x41#8, 0x41#8, 0x42#8].length ≤ s.params.obufCap.toNat ∧
      (capped 6 3 s).params.obufCap.toNat < [0x41#8, 0x41#8, 0x41#8, 0x42#8].length ∧ ¬ (capped 5 4 s).SourceFits) ∧
    (let s := headed 4#3 4#13 v1Read
     s.SourceFits ∧ hdrConsistent s.hdr.pad.toNat s.hdr.tsize.toNat s.srcLen.toNat = false) ∧
    (let t : Machine.Tree := .node (.leaf 0x43#8) (.node (.leaf 0x41#8) (.leaf 0x42#8))
     let s := { headed 7#3 3#13 (treed t v1Read) with ibuf := Mem.set v1Read.ibuf 5 0x80#8 }
     s.SourceFits ∧ hdrConsistent s.hdr.pad.toNat s.hdr.tsize.toNat s.srcLen.toNat = true ∧
      unpackBits t s.streamInput = none ∧ (emitsOf t s.streamInput).length ≤ (capped 16 0 s).params.obufCap.toNat) ∧
    (let s := { headed 0#3 3#13 (treed (.leaf 0x41#8) v1Read) with ibuf := Mem.set v1Read.ibuf 5 0x01#8 }
     s.SourceFits ∧ hdrConsistent s.hdr.pad.toNat s.hdr.tsize.toNat s.srcLen.toNat = true ∧
      unpackBits (.leaf 0x41#8) s.streamInput = none ∧
      (emitsOf (.leaf 0x41#8) s.streamInput).length ≤ (capped 16 7 s).params.obufCap.toNat ∧
      (capped 16 6 s).params.obufCap.toNat < (emitsOf (.leaf 0x41#8) s.streamInput).length) ∧
    base.status.treeV = false := by
  unfold State.Ready State.SourceFits
  decide +kernel

theorem witness_UnpackUndoesPack :
    v1Ready.input ≠ [] ∧ v1Ready.input.length < 2 ^ 32 ∧ builtTree (countTable v1Ready.input) = some v1Tree :=
  ⟨by decide +kernel, by decide +kernel, by rw [← v1Freq_eq]; exact witness_SerializedLengthCounts⟩

theorem witness_PaddingBitsAreNotRead :
    2 + v1Read.hdr.tsize.toNat < v1Read.srcLen.toNat ∧
    (∀ k, v1Read.hdr.pad.toNat ≤ k → k < 8 → (0xEF#8).getLsbD k = (v1Read.ibufByte (v1Read.srcLen.toNat - 1)).getLsbD k) ∧
    exec .unpk v1Read = .next (run .unpk v1Read) := by
  refine ⟨by decide +kernel, fun k h₁ h₂ => ?_, next_run (by decide +kernel)⟩
  have : ∀ k, k < 8 → v1Read.hdr.pad.toNat ≤ k →
      (0xEF#8).getLsbD k = (v1Read.ibufByte (v1Read.srcLen.toNat - 1)).getLsbD k := by decide +kernel
  exact this k h₂ h₁

/-- Exactly enough room, one byte less, a length over the capacity, an empty input. -/
theorem witness_CompProducesTheFile :
    (capped 4 6 v1).Ready ∧ v1.srcLen ≠ 0#32 ∧ (capped 4 6 v1).SourceFits ∧
      (compressed v1.input).length ≤ (capped 4 6 v1).params.obufCap.toNat ∧
      (capped 4 5 v1).params.obufCap.toNat < (compressed v1.input).length ∧ ¬ (capped 3 6 v1).SourceFits ∧
      base.srcLen = 0#32 := by
  unfold State.Ready State.SourceFits
  decide +kernel

/-- V100 with exactly enough room and one byte less, V62, V109, a truncated buffer, a length over the capacity, and a 1 bit
under one leaf behind seven bytes where six have room. -/
theorem witness_DecompExpandsTheFile :
    (let s := capped 6 4 v1File
     let u := headed 4#3 3#13 s
     s.Ready ∧ (4#3).toNat * 8192 + (3#13).toNat = (s.ibufByte 0).toNat * 256 + (s.ibufByte 1).toNat ∧
      u = { s with hdr := { pad := 4#3, tsize := 3#13 } } ∧ s.SourceFits ∧ hdrConsistent 4 3 s.srcLen.toNat = true ∧
      des u.treeInput = some v1Tree ∧ unpackBits v1Tree u.streamInput = some [0x41#8, 0x41#8, 0x41#8, 0x42#8] ∧
      4 ≤ s.params.obufCap.toNat ∧ (capped 6 3 s).params.obufCap.toNat < 4 ∧ ¬ (capped 5 4 s).SourceFits ∧
      hdrConsistent 4 3 (4#32).toNat = false) ∧
    (let u := headed 0#3 3#13 (loaded [0x00#8, 0x03#8, 0x41#8, 0x42#8, 0x43#8, 0x00#8] base)
     u.SourceFits ∧ hdrConsistent 0 3 u.srcLen.toNat = true ∧ des u.treeInput = none) ∧
    (let u := headed 7#3 5#13 (loaded [0xE0#8, 0x05#8, 0x2A#8, 0x43#8, 0x2A#8, 0x41#8, 0x42#8, 0x80#8] base)
     let t : Machine.Tree := .node (.leaf 0x43#8) (.node (.leaf 0x41#8) (.leaf 0x42#8))
     des u.treeInput = some t ∧ unpackBits t u.streamInput = none ∧
      (emitsOf t u.streamInput).length ≤ u.params.obufCap.toNat) ∧
    (let u := headed 0#3 1#13 (loaded [0x00#8, 0x01#8, 0x41#8, 0x01#8] (capped 16 6 base))
     des u.treeInput = some (.leaf 0x41#8) ∧ unpackBits (.leaf 0x41#8) u.streamInput = none ∧
      u.params.obufCap.toNat < (emitsOf (.leaf 0x41#8) u.streamInput).length) := by
  unfold State.SourceFits
  exact ⟨⟨⟨rfl, rfl⟩, by decide +kernel, rfl, by decide +kernel⟩, by decide +kernel, by decide +kernel, by decide +kernel⟩

theorem witness_DecompUndoesComp :
    let t := run .comp v1
    let u := capped 6 4 v1File
    v1.Ready ∧ exec .comp v1 = .next t ∧ t.status.done = true ∧ u.Ready ∧ u.srcLen = t.dstLen ∧
      (∀ j, j < t.dstLen.toNat → u.ibufByte j = t.obufByte j) ∧ u.SourceFits ∧
      v1.srcLen.toNat ≤ u.params.obufCap.toNat :=
  ⟨⟨rfl, rfl⟩, next_run (by decide +kernel), by decide +kernel, ⟨rfl, rfl⟩, by decide +kernel, by decide +kernel,
    by unfold State.SourceFits; decide +kernel, by decide +kernel⟩

theorem witness_OutputSizes :
    (v1.Ready ∧ exec .comp v1 = .next (run .comp v1) ∧ (run .comp v1).status.done = true) ∧
    (v1File.Ready ∧ exec .decomp v1File = .next (run .decomp v1File) ∧ (run .decomp v1File).status.done = true) :=
  ⟨⟨⟨rfl, rfl⟩, next_run (by decide +kernel), by decide +kernel⟩,
    ⟨⟨rfl, rfl⟩, next_run (by decide +kernel), by decide +kernel⟩⟩

/-- Two machines that differ in what COMP and DECOMP do not read, for each of the two. -/
theorem witness_CallsAreIndependent :
    v1.Ready ∧ v1Ready.Ready ∧ v1.params = v1Ready.params ∧ v1.srcLen = v1Ready.srcLen ∧
      (∀ k, k < v1.srcLen.toNat → v1.ibufByte k = v1Ready.ibufByte k) ∧ exec .comp v1 = .next (run .comp v1) ∧
      exec .comp v1Ready = .next (run .comp v1Ready) ∧ v1 ≠ v1Ready ∧
    v1File.Ready ∧ v1Read.Ready ∧ v1File.params = v1Read.params ∧ v1File.srcLen = v1Read.srcLen ∧
      (∀ k, k < v1File.srcLen.toNat → v1File.ibufByte k = v1Read.ibufByte k) ∧
      exec .decomp v1File = .next (run .decomp v1File) ∧ exec .decomp v1Read = .next (run .decomp v1Read) ∧
      v1File ≠ v1Read :=
  ⟨⟨rfl, rfl⟩, ⟨rfl, rfl⟩, rfl, rfl, by decide +kernel, next_run (by decide +kernel), next_run (by decide +kernel),
    by decide +kernel, ⟨rfl, rfl⟩, ⟨rfl, rfl⟩, rfl, rfl, by decide +kernel, next_run (by decide +kernel),
    next_run (by decide +kernel), by decide +kernel⟩

theorem witness_ClrRestoresTheResetState : (failed .badSequence v1).job = .idle ∧ v1Ready.job = .idle := by decide

theorem witness_HostWritesTakeEffect :
    base.job = .idle ∧ (scripted [.writeIbuf 15 0x41#8] base).script = .writeIbuf 15 0x41#8 :: [] ∧
      15 < base.params.ibufCap.toNat ∧ (scripted [.writeCsr .srcLen 17#32] base).script = .writeCsr .srcLen 17#32 :: [] ∧
      (scripted [.writeCsr .hdr 1#32] base).script = .writeCsr .hdr 1#32 :: [] ∧
      (scripted [.writeObuf 15 0x41#8] base).script = .writeObuf 15 0x41#8 :: [] ∧ 15 < base.params.obufCap.toNat := by decide

theorem witness_HostReadsReturnTheState :
    base.job = .idle ∧ (scripted [.readCsr .status] base).script = .readCsr .status :: [] ∧
      (scripted [.readIbuf 15] base).script = .readIbuf 15 :: [] ∧ 15 < base.params.ibufCap.toNat ∧
      (scripted [.readObuf 15] base).script = .readObuf 15 :: [] ∧ 15 < base.params.obufCap.toNat ∧
      (scripted [.wait] base).script = .wait :: [] ∧
      (flagged true true true true true false v1Ready).status.padV = true ∧
      (flagged true true true false false true v1Ready).status.tszV = true ∧
      (5 < (run .comp v1).dstLen.toNat ∧ Mem.get (run .comp v1).obuf 5 = some 0xE0#8) ∧
      ((run .henc v1Ready).dstLen = 0#32 ∧ 1 ∈ (run .henc v1Ready).ownBytes ∧
        Mem.get (run .henc v1Ready).obuf 1 = some 0x03#8) ∧
      (4 ∈ (run .tser v1Ready).ownBytes ∧ Mem.get (run .tser v1Ready).obuf 4 = some 0x41#8) := by decide +kernel

theorem witness_OwnBytesReadAsWritten :
    v1Ready.Ready ∧ (exec .henc v1Ready = .next (run .henc v1Ready) ∧ (run .henc v1Ready).status.err = none) ∧
    (exec .tser v1Ready = .next (run .tser v1Ready) ∧ (run .tser v1Ready).status.err = none ∧
      v1Ready.tree = some v1Tree ∧ v1Tree.ser[0]? = some 0x2A#8 ∧ v1Tree.ser[2]? = some 0x41#8) :=
  ⟨⟨rfl, rfl⟩, ⟨next_run (by decide +kernel), by decide +kernel⟩, next_run (by decide +kernel), by decide +kernel, rfl,
    by decide, by decide⟩

/-- UNPK of an empty stream writes nothing; an own byte just below PACK's stream, which begins at 5. -/
theorem witness_OwnBytesStayUntilWrittenOver :
    (v1Henced.Ready ∧ isCommand .unpk = true ∧ Instr.unpk ≠ .clr ∧ exec .unpk v1Henced = .next (run .unpk v1Henced) ∧
      (run .unpk v1Henced).status.err = none ∧ 1 ∈ v1Henced.ownBytes ∧ Mem.get v1Henced.obuf 1 = some 0x03#8 ∧
      ¬ writesAt .unpk v1Henced (run .unpk v1Henced) 1) ∧
    (let s := { v1Ready with obuf := [(4, 0x41#8), (5, 0x00#8)], ownBytes := [4, 5] }
     exec .pack s = .next (run .pack s) ∧ (run .pack s).status.err = none ∧ 4 ∈ s.ownBytes ∧
      Mem.get s.obuf 4 = some 0x41#8 ∧ ¬ writesAt .pack s (run .pack s) 4 ∧ writesAt .pack s (run .pack s) 5) :=
  ⟨⟨⟨rfl, rfl⟩, rfl, by decide, next_run (by decide +kernel), by decide +kernel, by decide, rfl,
      by unfold writesAt; decide +kernel⟩,
    next_run (by decide +kernel), by decide +kernel, by decide, rfl, by unfold writesAt; decide +kernel,
    by unfold writesAt; decide +kernel⟩

theorem witness_BusyEngineIgnoresTheHost :
    let s := inStream v1Tree 4
    s.job ≠ .idle ∧ (scripted [.writeCsr .cmd 0x1F#32] s).script = .writeCsr .cmd 0x1F#32 :: [] ∧
      (scripted [.writeIbuf 15 0#8] s).script = .writeIbuf 15 0#8 :: [] ∧ 15 < s.params.ibufCap.toNat ∧
      (scripted [.readCsr .status] s).script = .readCsr .status :: [] ∧ Csr.hdr ≠ .status ∧
      (scripted [.readCsr .hdr] s).script = .readCsr .hdr :: [] ∧
      (scripted [.writeObuf 3 0#8] s).script = .writeObuf 3 0#8 :: [] ∧ 3 < s.params.obufCap.toNat ∧
      (scripted [.readIbuf 15] s).script = .readIbuf 15 :: [] ∧
      (scripted [.readObuf 3] s).script = .readObuf 3 :: [] := by decide

/-- Idle, and in the middle of an operation. -/
theorem witness_ResetLeaves :
    (scripted [.reset] v1Ready).script = .reset :: [] ∧ (scripted [.reset] (inStream v1Tree 4)).script = .reset :: [] := by
  decide

theorem witness_EngineNeverWritesTheInput : exec .freq v1 = .next (run .freq v1) := next_run (by decide +kernel)

theorem witness_ObufChangesOnlyWhereWritten :
    Instr.tser ≠ .clr ∧ v1Ready.status.err = none ∧ exec .tser v1Ready = .next (run .tser v1Ready) ∧
      (run .tser v1Ready).status.err = none ∧ v1Ready.job = .idle ∧ ¬ writesAt .tser v1Ready (run .tser v1Ready) 1 ∧
      ¬ writesAt .tser v1Ready (run .tser v1Ready) 5 :=
  ⟨by decide, rfl, next_run (by decide +kernel), by decide +kernel, rfl, by unfold writesAt; decide +kernel,
    by unfold writesAt; decide +kernel⟩

theorem witness_RegistersChangeOnlyWhereNamed :
    Instr.pack ≠ .clr ∧ v1Ready.status.err = none ∧ exec .pack v1Ready = .next (run .pack v1Ready) ∧
      (run .pack v1Ready).status.err = none ∧ Instr.pack ≠ .freq ∧ Instr.pack ≠ .comp :=
  ⟨by decide, rfl, next_run (by decide +kernel), by decide +kernel, by decide, by decide⟩

theorem witness_WorkingRegistersChangeOnlyWhereUsed :
    Instr.henc ≠ .clr ∧ v1Ready.status.err = none ∧ exec .henc v1Ready = .next (run .henc v1Ready) ∧
      (run .henc v1Ready).status.err = none ∧ Instr.henc ≠ .pack ∧ Instr.henc.format ≠ .ttok :=
  ⟨by decide, rfl, next_run (by decide +kernel), by decide +kernel, by decide, by decide⟩

theorem witness_ItemsMakeUpTheCommand :
    (v1File.Ready ∧ v1File.script = [] ∧ ∃ u, headerEntry v1File.accept = .ok u) ∧
    (v1Read.Ready ∧ v1Read.script = [] ∧ ∃ u, treeEntry v1Read.accept = .ok u) ∧
    (∃ u, streamEntry v1Read.accept = .ok u ∧ 0 < u.streamLen) :=
  ⟨⟨⟨rfl, rfl⟩, rfl, _, rfl⟩, ⟨⟨rfl, rfl⟩, rfl, _, rfl⟩, ⟨_, rfl, by decide +kernel⟩⟩

theorem witness_BusyAlwaysFalls : (inStream v1Tree 4).script = [] ∧ (inStream v1Tree 4).job ≠ .idle := by decide

/-- V1 after CGEN, PADC and TSER, the host about to write PACK. -/
theorem witness_StepKeepsTheInvariant :
    let s := scripted [.writeCsr .cmd 0x09#32] v1Ready
    s.Inv ∧ step s = .next (stepped s) := by
  refine ⟨?_, next_stepped (by decide +kernel)⟩
  constructor <;> decide +kernel

theorem witness_StepKeepsTheFlagsTrue :
    let s := scripted [.writeCsr .cmd 0x09#32] v1Ready
    s.Inv ∧ s.FlagsTrue ∧ step s = .next (stepped s) := by
  refine ⟨witness_StepKeepsTheInvariant.1, ?_, witness_StepKeepsTheInvariant.2⟩
  constructor
  · exact fun _ => v1Freq_eq
  · exact fun _ _ => witness_SerializedLengthCounts.symm
  · exact fun _ => ⟨v1Tree, witness_SerializedLengthCounts, by decide +kernel⟩
  · exact fun _ _ => by decide +kernel
  · exact fun _ _ => ⟨v1Tree, witness_SerializedLengthCounts, by decide +kernel⟩

end Sys2Proof.Tests
end

section
/-! SUPPORT. The engine item by item (log entry 12): a step at a position inside HDEC, TDES or UNPK as one equation, and
from it the agreement of the items with the atomic commands. -/

namespace Sys2Proof.Machine

/-! ## The position of the engine, and the operations that do not look at it -/

/-- The state with the engine placed at the position `j` of an operation. -/
def State.atJob (s : State) (j : Job) : State := { s with job := j }

@[simp] theorem State.atJob_job (s : State) (j : Job) : (s.atJob j).job = j := rfl
@[simp] theorem State.atJob_script (s : State) (j : Job) : (s.atJob j).script = s.script := rfl
@[simp] theorem State.atJob_finish (s : State) (j : Job) : (s.atJob j).finish = s.finish := rfl
@[simp] theorem State.atJob_raise (s : State) (j : Job) (e : ErrKind) : (s.atJob j).raise e = s.raise e := rfl
@[simp] theorem State.atJob_atJob (s : State) (i j : Job) : (s.atJob i).atJob j = s.atJob j := rfl

/-- `f` neither reads nor changes the engine's position. -/
def IgnoresJob (f : State → Res) : Prop := ∀ (s : State) (j : Job), f (s.atJob j) = (f s).map (·.atJob j)

theorem IgnoresJob.ok {f : State → State} (hf : ∀ s j, f (State.atJob s j) = (f s).atJob j) :
    IgnoresJob fun s => .ok (f s) := fun s j => congrArg Except.ok (hf s j)

theorem IgnoresJob.error (e : ErrKind) : IgnoresJob fun _ => .error e := fun _ _ => rfl

theorem IgnoresJob.bind {f g : State → Res} (hf : IgnoresJob f) (hg : IgnoresJob g) :
    IgnoresJob fun s => f s >>= g := by
  intro s j
  simp only [hf s j]
  cases f s with
  | ok t => exact hg t j
  | error e => rfl

/-- A test or a read before the rest of an operation. -/
theorem IgnoresJob.bindTest {α : Type} {f : State → Except ErrKind α} {g : α → State → Res}
    (hf : ∀ s j, f (State.atJob s j) = f s) (hg : ∀ a, IgnoresJob (g a)) :
    IgnoresJob fun s => f s >>= fun a => g a s := by
  intro s j
  simp only [hf s j]
  cases f s with
  | ok a => exact hg a s j
  | error e => rfl

theorem IgnoresJob.ite {c : State → Prop} [DecidablePred c] {f g : State → Res}
    (hc : ∀ s j, c (State.atJob s j) ↔ c s) (hf : IgnoresJob f) (hg : IgnoresJob g) :
    IgnoresJob fun s => if c s then f s else g s := by
  intro s j
  by_cases h : c s
  · simp only [hc s j, h, if_true, hf s j]
  · simp only [hc s j, h, if_false, hg s j]

theorem memWrite_ignoresJob (i : Nat) (v : Byte) : IgnoresJob (memWrite i v) :=
  .ite (fun _ _ => .rfl) (.ok fun _ _ => rfl) (.error _)

theorem emit_ignoresJob (sym : Byte) : IgnoresJob (emit sym) := by
  intro s j
  exact ((memWrite_ignoresJob s.work.opos.toNat sym).bind (.ok fun _ _ => rfl)) s j

theorem walkNode_ignoresJob (d : Bool) (r : Tree) : IgnoresJob (walkNode d r) := by
  intro s j
  cases hc : s.work.cur with
  | leaf sym => simp [walkNode, State.atJob, hc, Except.map]
  | node l r' =>
    cases hd : (if d then r' else l) with
    | leaf sym =>
      simp only [walkNode, hc, hd, show (s.atJob j).work = s.work from rfl]
      exact ((emit_ignoresJob sym).bind (.ok fun _ _ => rfl)) s j
    | node l' r'' => simp [walkNode, State.atJob, hc, hd, Except.map]

theorem oneLeafStep_ignoresJob (d : Bool) (sym : Byte) : IgnoresJob (oneLeafStep d sym) :=
  .ite (fun _ _ => .rfl) (.error _) (emit_ignoresJob sym)

theorem walkStep_ignoresJob (d : Bool) : IgnoresJob (walkStep d) := by
  intro s j
  have advance : IgnoresJob fun s => .ok (advanceBit s) := .ok fun _ _ => rfl
  cases ht : s.tree with
  | none => rw [walkStep_none ht, walkStep_none (s := s.atJob j) ht, Except.map]
  | some r =>
    cases r with
    | leaf sym =>
      rw [walkStep_leaf ht, walkStep_leaf (s := s.atJob j) ht]
      exact (oneLeafStep_ignoresJob d sym).bind advance s j
    | node l r =>
      rw [walkStep_node ht, walkStep_node (s := s.atJob j) ht]
      exact (walkNode_ignoresJob d _).bind advance s j

theorem leafOf_ignoresJob (k : Nat) (sym : Byte) : IgnoresJob (leafOf k sym) := by
  intro s j
  have hf : tokenFits k (s.atJob j) = tokenFits k s := rfl
  cases h : tokenFits k s with
  | true => rw [leafOf_ok.2 ⟨h, rfl⟩, leafOf_ok.2 ⟨hf.trans h, rfl⟩]; rfl
  | false => rw [leafOf_error.2 ⟨h, rfl⟩, leafOf_error.2 ⟨hf.trans h, rfl⟩]; rfl

theorem nodeToken_ignoresJob : IgnoresJob nodeToken :=
  .ite (fun _ _ => .rfl) (.ok fun _ _ => rfl) (.error _)

theorem hdrItem_ignoresJob (pad : BitVec 3) (tsize : BitVec 13) : IgnoresJob (hdrItem pad tsize) :=
  .ite (fun _ _ => .rfl) (.ok fun _ _ => rfl) (.error _)

theorem treeEntry_ignoresJob : IgnoresJob treeEntry :=
  .bindTest (fun _ _ => rfl) fun _ => .bindTest (fun _ _ => rfl) fun _ =>
    .ite (fun _ _ => .rfl) (.error _) (.ok fun _ _ => rfl)

theorem treeExit_ignoresJob : IgnoresJob treeExit :=
  .ite (fun _ _ => .rfl) (.ok fun _ _ => rfl) (.error _)

theorem streamEntry_ignoresJob : IgnoresJob streamEntry :=
  .bindTest (fun _ _ => rfl) fun _ => .bindTest (fun _ _ => rfl) fun _ =>
    .ite (fun _ _ => .rfl) (.ok fun _ _ => rfl) (.error _)

theorem streamExit_ignoresJob : IgnoresJob streamExit :=
  .ite (fun _ _ => .rfl) (.ok fun _ _ => rfl) (.error _)

/-! ## Where the engine goes does not depend on where it stood -/

theorem goOn_atJob {f : State → Res} {next : State → State} (hf : IgnoresJob f)
    (hn : ∀ s j, next (State.atJob s j) = next s) (s : State) (j : Job) :
    goOn (s.atJob j) next (f (s.atJob j)) = goOn s next (f s) := by
  rw [hf s j]
  cases f s with
  | ok t => exact hn t j
  | error e => rfl

theorem settleStream_atJob (whole : Bool) (s : State) (j : Job) :
    settleStream whole (s.atJob j) = settleStream whole s := by
  by_cases h : s.streamPos < s.streamLen
  · rw [settleStream, settleStream, if_pos h, if_pos (show (s.atJob j).streamPos < (s.atJob j).streamLen from h)]
    rfl
  · rw [settleStream, settleStream, if_neg h, if_neg (show ¬ (s.atJob j).streamPos < (s.atJob j).streamLen from h)]
    exact goOn_atJob streamExit_ignoresJob (fun _ _ => rfl) s j

/-- What follows TDES's exit: inside DECOMP the stream, else the end. -/
def afterTree (whole : Bool) (t : State) : State :=
  if whole then goOn t (settleStream true) (streamEntry t) else t.finish

theorem afterTree_atJob (whole : Bool) (s : State) (j : Job) : afterTree whole (s.atJob j) = afterTree whole s := by
  cases whole with
  | false => rfl
  | true => exact goOn_atJob streamEntry_ignoresJob (settleStream_atJob true) s j

/-- The tokens go on: a subtree is expected and declared bytes are left (R145). -/
def State.tokensLeft (s : State) : Bool := !s.work.tstack.isEmpty && decide (s.work.tpos.toNat < s.hdr.tsize.toNat)

theorem State.tokensLeft_iff {s : State} :
    s.tokensLeft = true ↔ s.work.tstack ≠ [] ∧ s.work.tpos.toNat < s.hdr.tsize.toNat := by
  simp [State.tokensLeft]

theorem settleTree_eq (whole : Bool) (s : State) :
    settleTree whole s = if s.tokensLeft then s.atJob (.tree whole) else goOn s (afterTree whole) (treeExit s) := rfl

theorem settleTree_atJob (whole : Bool) (s : State) (j : Job) : settleTree whole (s.atJob j) = settleTree whole s := by
  rw [settleTree_eq, settleTree_eq, show (s.atJob j).tokensLeft = s.tokensLeft from rfl, State.atJob_atJob,
    goOn_atJob treeExit_ignoresJob (afterTree_atJob whole)]

theorem settleHeader_atJob (whole : Bool) (s : State) (j : Job) :
    settleHeader whole (s.atJob j) = settleHeader whole s := by
  cases whole with
  | false => rfl
  | true =>
    have entry : IgnoresJob fun s => treeEntry (headerExit s) := fun s j => treeEntry_ignoresJob (headerExit s) j
    exact goOn_atJob (next := (State.atJob · (.tree true))) entry (fun _ _ => rfl) s j

/-! ## One step at each kind of position -/

/-- An engine inside an operation, with no host move, goes on by itself. -/
theorem step_of_busy {s : State} (hj : s.job ≠ .idle) (hs : s.script = []) : step s = engineStep s := by
  unfold step machineStep
  split
  · contradiction
  · simp [hs]

/-- An item at the position `j`, and where the engine goes from there. -/
theorem settleOutcome_runItem {f : State → Res} (hf : IgnoresJob f) (s : State) (j : Job) :
    settleOutcome (runItem f (s.atJob j)) = .next (goOn s (fun t => settle (t.atJob j)) (f s)) := by
  rw [runItem, hf s j]
  cases f s with
  | ok t => rfl
  | error e => exact congrArg _ (settle_idle (s.raise_job e))

/-- At a header position: the header word, then the next position. -/
theorem engineStep_header (whole : Bool) (s : State) :
    engineStep (s.atJob (.header whole)) = .next (goOn s (settleHeader whole) (headerWord s)) := by
  rw [headerWord_eq]
  refine (settleOutcome_runItem (hdrItem_ignoresJob _ _) s _).trans ?_
  simp only [settle, State.atJob_job, settleHeader_atJob]
  rfl

/-- What the token decoder can answer (R96). -/
theorem decodeToken_cases {bs rest : List Byte} {i : Instr} (h : decodeToken bs = .ok (i, rest)) :
    (∃ sym, i = .tEsc sym) ∨ i = .tNode ∨ ∃ sym, i = .tLeaf sym := by
  unfold decodeToken at h
  split at h
  · cases h
  · split at h
    · split at h
      · cases h
      · cases h; exact .inl ⟨_, rfl⟩
    · split at h
      · cases h; exact .inr (.inl rfl)
      · cases h; exact .inr (.inr ⟨_, rfl⟩)

/-- At a tree position: one token, then the next position. -/
theorem engineStep_tree (whole : Bool) (s : State) :
    engineStep (s.atJob (.tree whole)) = .next (goOn s (settleTree whole) (treeToken s)) := by
  have item {i : Instr} {rest : List Byte} {f : State → Res} (hd : decode .ttok (treeBytes s) = .ok (i, rest))
      (hi : exec i = runItem f) (hf : IgnoresJob f) (ht : treeToken s = f s) :
      engineStep (s.atJob (.tree whole)) = .next (goOn s (settleTree whole) (treeToken s)) := by
    have hfetch : fetchItem (s.atJob (.tree whole)) = .ok i := by
      show (decode .ttok (treeBytes s)).map _ = _
      rw [hd]; rfl
    rw [engineStep, hfetch, ht]
    simp only [hi, settleOutcome_runItem hf, settle, State.atJob_job, settleTree_atJob]
  cases hd : decode .ttok (treeBytes s) with
  | ok ir =>
    obtain ⟨i, rest⟩ := ir
    rcases decodeToken_cases hd with ⟨sym, rfl⟩ | rfl | ⟨sym, rfl⟩
    · exact item hd rfl (leafOf_ignoresJob 2 sym) (by simp [treeToken, hd, escToken])
    · exact item hd rfl nodeToken_ignoresJob (by simp [treeToken, hd])
    · exact item hd rfl (leafOf_ignoresJob 1 sym) (by simp [treeToken, hd, leafToken])
  | error e =>
    have hfetch : fetchItem (s.atJob (.tree whole)) = .error e := by
      show (decode .ttok (treeBytes s)).map _ = _
      rw [hd]; rfl
    rw [engineStep, hfetch]
    simp [treeToken, hd, goOn]

/-- At a stream position: one code bit, then the next position. -/
theorem engineStep_stream (whole : Bool) (s : State) :
    engineStep (s.atJob (.stream whole)) = .next (goOn s (settleStream whole) (walkStep (streamBit s) s)) := by
  have hfetch : fetchItem (s.atJob (.stream whole)) = .ok (if streamBit s then .bRight else .bLeft) := by
    show (decode .cbit [(BitVec.ofBool (streamBit s)).setWidth 8]).map _ = _
    cases streamBit s <;> rfl
  have hexec : exec (if streamBit s then .bRight else .bLeft) = runItem (walkStep (streamBit s)) := by
    cases streamBit s <;> rfl
  rw [engineStep, hfetch]
  simp only [hexec, settleOutcome_runItem (walkStep_ignoresJob _), settle, State.atJob_job, settleStream_atJob]

/-! ## Runs -/

/-- Some number of steps of the machine leads from `s` to `t`. -/
def Reaches (s t : State) : Prop := ∃ n, core.run n s = .next t

theorem Reaches.refl (s : State) : Reaches s s := ⟨0, rfl⟩

theorem run_succ_of_next {M : Host.Core} {s u : M.State} (h : M.step s = .next u) (n : Nat) :
    M.run (n + 1) s = M.run n u := by rw [Host.Core.run, h]

theorem Reaches.head {s u t : State} (h : step s = .next u) (k : Reaches u t) : Reaches s t := by
  obtain ⟨n, hn⟩ := k
  exact ⟨n + 1, (run_succ_of_next (M := core) h n).trans hn⟩

/-- One item of an operation, no host move coming, and the run from there. -/
theorem Reaches.item {s u t : State} {j : Job} (hs : s.script = []) (hj : j ≠ .idle)
    (h : engineStep (s.atJob j) = .next u) (k : Reaches u t) : Reaches (s.atJob j) t :=
  .head ((step_of_busy (s := s.atJob j) hj hs).trans h) k

/-- `s` is a state of an operation that began in `s₀`: no host move is coming, and an error from here leaves what an
error from `s₀` leaves (R236). -/
structure Within (s₀ s : State) : Prop where
  script_nil : s.script = []
  raises : ∀ e, s.raise e = s₀.raise e

theorem TokenFrame.within {s₀ s t : State} (h : TokenFrame s t) (hw : Within s₀ s) : Within s₀ t := by
  refine ⟨?_, fun e => ?_⟩ <;> rw [h.rest]
  · exact hw.script_nil
  · exact hw.raises e

theorem WalkFrame.within {s₀ s t : State} (h : WalkFrame s t) (hw : Within s₀ s) : Within s₀ t := by
  refine ⟨?_, fun e => ?_⟩ <;> rw [h.rest]
  · exact hw.script_nil
  · exact hw.raises e

theorem goOn_error {s₀ s : State} {next : State → State} {e : ErrKind} (hw : Within s₀ s) :
    goOn s next (.error e) = s₀.raise e := hw.raises e

/-- The last exit of an operation ends it as the atomic command ends. -/
theorem goOn_finish {s₀ s : State} (hw : Within s₀ s) (r : Res) : goOn s State.finish r = endWith s₀ r := by
  cases r with
  | ok t => rfl
  | error e => exact goOn_error hw

/-! ## The stream -/

/-- A code bit moves the walker's cursor on and leaves the header and the length (R22). -/
theorem walkStep_cursor {d : Bool} {s t : State} (h : walkStep d s = .ok t) :
    t.work.spos = (advanceBit s).work.spos ∧ t.work.bidx = (advanceBit s).work.bidx := by
  have emitted {sym : Byte} {u : State} (hu : emit sym s = .ok u) :
      u.work.spos = s.work.spos ∧ u.work.bidx = s.work.bidx := by
    obtain ⟨-, rfl⟩ := emit_ok.1 hu
    exact ⟨rfl, rfl⟩
  have advanced {u : State} (hu : u.work.spos = s.work.spos ∧ u.work.bidx = s.work.bidx) :
      (advanceBit u).work.spos = (advanceBit s).work.spos ∧ (advanceBit u).work.bidx = (advanceBit s).work.bidx := by
    simp [advanceBit, hu]
  cases ht : s.tree with
  | none => simp [walkStep_none ht] at h
  | some r =>
    cases r with
    | leaf sym =>
      rw [walkStep_leaf ht, res_bind_eq_ok] at h
      obtain ⟨u, hu, h⟩ := h
      cases h
      cases d with
      | true => cases hu
      | false => exact advanced (emitted hu)
    | node l r =>
      rw [walkStep_node ht, res_bind_eq_ok] at h
      obtain ⟨u, hu, h⟩ := h
      cases h
      refine advanced ?_
      unfold walkNode at hu
      split at hu
      · cases hu
      · split at hu
        · obtain ⟨v, hv, hu⟩ := res_bind_eq_ok.1 hu
          simp only [Except.ok.injEq] at hu
          subst hu
          have he := emitted hv
          exact he
        · cases hu
          exact ⟨rfl, rfl⟩

theorem WalkFrame.streamLen {s t : State} (h : WalkFrame s t) : t.streamLen = s.streamLen := by rw [h.rest]; rfl

/-- The cursor stands behind the tree bytes. -/
def State.InStream (s : State) : Prop := 2 + s.hdr.tsize.toNat ≤ s.work.spos.toNat

/-- The stream ends inside the buffer (R195). -/
theorem streamLen_le (s : State) : s.streamLen ≤ 8 * (s.srcLen.toNat - (2 + s.hdr.tsize.toNat)) := by
  simp only [State.streamLen, streamBits]
  split <;> omega

/-- A code bit that belongs to the stream counts one (R196). -/
theorem walkStep_streamPos {d : Bool} {s t : State} (h : walkStep d s = .ok t) (hi : s.InStream)
    (hl : s.streamPos < s.streamLen) : t.InStream ∧ t.streamPos = s.streamPos + 1 := by
  obtain ⟨hspos, hbidx⟩ := walkStep_cursor h
  have hhdr : t.hdr = s.hdr := by rw [(walkStep_frame h).rest]
  have hlen := streamLen_le s
  unfold State.InStream State.streamPos at *
  rw [hhdr, hspos, hbidx]
  by_cases h7 : s.work.bidx = 7#3
  · have h7n : (7#3).toNat = 7 := rfl
    rw [h7, h7n] at hl
    have hs := opos_step (o := s.work.spos) (c := s.srcLen) (by omega)
    have hb : (7#3 + 1#3).toNat = 0 := rfl
    simp only [advanceBit, h7, if_true, hs, hb, h7n]
    omega
  · have hb : (s.work.bidx + 1#3).toNat = s.work.bidx.toNat + 1 := by
      have := s.work.bidx.isLt
      have : s.work.bidx.toNat ≠ 7 := fun hn => h7 (BitVec.eq_of_toNat_eq hn)
      rw [BitVec.toNat_add]
      simp
      omega
    simp only [advanceBit, h7, if_false, hb]
    omega

/-- While bits are left the engine stands at the next one (R195). -/
theorem settleStream_of_left {whole : Bool} {s : State} (h : s.streamPos < s.streamLen) :
    settleStream whole s = s.atJob (.stream whole) := if_pos h

/-- The code bits one by one are UNPK's walk over the rest of the stream, and its exit. -/
theorem settleStream_reaches (whole : Bool) {s₀ : State} (k : Nat) {s : State} (hw : Within s₀ s) (hi : s.InStream)
    (hk : s.streamPos + k = s.streamLen) :
    Reaches (settleStream whole s) (endWith s₀ (readStream k s >>= streamExit)) := by
  induction k generalizing s with
  | zero =>
    rw [settleStream, if_neg (by omega), goOn_finish hw]
    exact .refl _
  | succ k ih =>
    rw [settleStream_of_left (by omega)]
    refine .item hw.script_nil (by simp) (engineStep_stream whole s) ?_
    cases hb : walkStep (streamBit s) s with
    | error e =>
      simp only [readStream, hb, res_bind_error, goOn_error hw, endWith_error]
      exact .refl _
    | ok t =>
      have hf := walkStep_frame hb
      obtain ⟨hi', hp⟩ := walkStep_streamPos hb hi (by omega)
      simp only [readStream, hb, res_bind_ok]
      exact ih (hf.within hw) hi' (by rw [hf.streamLen]; omega)

/-- UNPK's entry puts the cursor on the first stream bit (R198). -/
theorem streamEntry_start {s t : State} (h : streamEntry s = .ok t) : t.InStream ∧ t.streamPos = 0 := by
  obtain ⟨-, -, -, -, -, r, -, rfl⟩ := streamEntry_ok.1 h
  simp [State.InStream, State.streamPos, streamStart, streamStart_toNat, -BitVec.toNat_add]

theorem streamEntry_within {s₀ s t : State} (h : streamEntry s = .ok t) (hw : Within s₀ s) : Within s₀ t := by
  obtain ⟨-, -, -, -, -, r, -, rfl⟩ := streamEntry_ok.1 h
  exact ⟨hw.script_nil, hw.raises⟩

/-- From UNPK's entry on, the items are UNPK. -/
theorem streamEntry_reaches (whole : Bool) {s₀ s : State} (hw : Within s₀ s) :
    Reaches (goOn s (settleStream whole) (streamEntry s)) (endWith s₀ (unpkBody s)) := by
  rw [unpkBody]
  cases h : streamEntry s with
  | error e =>
    rw [goOn_error hw]
    exact .refl _
  | ok t =>
    obtain ⟨hi, hp⟩ := streamEntry_start h
    exact settleStream_reaches whole t.streamLen (streamEntry_within h hw) hi (by omega)

/-! ## The tree -/

/-- What DECOMP does after TDES, and TDES on its own does not. -/
def thenStream (whole : Bool) : State → Res := if whole then unpkBody else .ok

theorem afterTree_reaches (whole : Bool) {s₀ s : State} (hw : Within s₀ s) :
    Reaches (afterTree whole s) (endWith s₀ (thenStream whole s)) := by
  cases whole with
  | false => exact .refl _
  | true => exact streamEntry_reaches true hw

theorem treeExit_reaches (whole : Bool) {s₀ s : State} (hw : Within s₀ s) :
    Reaches (goOn s (afterTree whole) (treeExit s)) (endWith s₀ (treeExit s >>= thenStream whole)) := by
  cases h : treeExit s with
  | error e =>
    rw [goOn_error hw]
    exact .refl _
  | ok t =>
    obtain ⟨-, -, rfl⟩ := treeExit_ok.1 h
    exact afterTree_reaches whole ⟨hw.script_nil, hw.raises⟩

/-- A tree token takes at least one byte (R96, R145). -/
theorem treeToken_tpos {s t : State} (h : treeToken s = .ok t) : s.work.tpos.toNat < t.work.tpos.toNat := by
  have leaf {k : Nat} {sym : Byte} (hk : 0 < k) (hl : leafOf k sym s = .ok t) :
      s.work.tpos.toNat < t.work.tpos.toNat := by
    obtain ⟨hf, rfl⟩ := leafOf_ok.1 hl
    obtain ⟨-, hf⟩ := tokenFits_iff.1 hf
    have := s.hdr.tsize.isLt
    simp only [BitVec.toNat_add, BitVec.toNat_ofNat]
    omega
  unfold treeToken at h
  split at h
  · exact leaf (by omega) h
  · obtain ⟨hf, rfl⟩ := nodeToken_ok.1 h
    obtain ⟨-, hf⟩ := tokenFits_iff.1 hf
    have := s.hdr.tsize.isLt
    simp only [BitVec.toNat_add, BitVec.toNat_ofNat]
    omega
  · exact leaf (by omega) h
  · cases h

/-- With no declared byte left there is no token (R148). -/
theorem treeToken_exhausted {s : State} (h : s.hdr.tsize.toNat ≤ s.work.tpos.toNat) :
    treeToken s = .error .malformedTree := by
  have hb : treeBytes s = [] := by simp [treeBytes, Nat.sub_eq_zero_of_le h]
  simp [treeToken, hb, decode, decodeToken]

/-- A subtree is expected and no declared byte is left: the tree is malformed, however many tokens may still be read. -/
theorem readTree_exhausted (fuel : Nat) {s : State} (hs : s.work.tstack ≠ [])
    (h : s.hdr.tsize.toNat ≤ s.work.tpos.toNat) : (readTree fuel s >>= treeExit) = .error .malformedTree := by
  cases fuel with
  | zero => exact treeExit_error.2 ⟨.inl hs, rfl⟩
  | succ fuel => simp [readTree, hs, treeToken_exhausted h]

/-- Nothing more is read once the root is complete (R145). -/
theorem readTree_complete (fuel : Nat) {s : State} (hs : s.work.tstack = []) : readTree fuel s = .ok s := by
  cases fuel <;> simp [readTree, hs]

/-- Where no token follows, the exit gives TDES's answer. -/
theorem readTree_exit_of_not_tokensLeft (fuel : Nat) {s : State} (h : s.tokensLeft = false) :
    (readTree fuel s >>= treeExit) = treeExit s := by
  by_cases hs : s.work.tstack = []
  · rw [readTree_complete fuel hs, res_bind_ok]
  · have ht : s.hdr.tsize.toNat ≤ s.work.tpos.toNat := by
      by_contra hn
      exact absurd (State.tokensLeft_iff.2 ⟨hs, by omega⟩) (by simp [h])
    rw [readTree_exhausted fuel hs ht, treeExit_error.2 ⟨.inl hs, rfl⟩]

/-- The tokens one by one are TDES's reading of the rest of the tree, its exit, and inside DECOMP the stream. Each token
takes a byte, so the declared bytes left bound their number. -/
theorem treePosition_reaches (whole : Bool) {s₀ : State} (fuel : Nat) {s : State} (hw : Within s₀ s)
    (hs : s.work.tstack ≠ []) (hf : s.hdr.tsize.toNat ≤ s.work.tpos.toNat + fuel) :
    Reaches (s.atJob (.tree whole)) (endWith s₀ (readTree fuel s >>= treeExit >>= thenStream whole)) := by
  induction fuel generalizing s with
  | zero =>
    refine .item hw.script_nil (by simp) (engineStep_tree whole s) ?_
    rw [treeToken_exhausted hf, goOn_error hw, readTree_exhausted 0 hs hf]
    exact .refl _
  | succ fuel ih =>
    refine .item hw.script_nil (by simp) (engineStep_tree whole s) ?_
    rw [readTree, if_neg (by simpa using hs)]
    cases ht : treeToken s with
    | error e =>
      rw [goOn_error hw]
      exact .refl _
    | ok t =>
      have hfr := treeToken_frame ht
      have hw' := hfr.within hw
      show Reaches (settleTree whole t) (endWith s₀ (readTree fuel t >>= treeExit >>= thenStream whole))
      rw [settleTree_eq]
      cases hl : t.tokensLeft with
      | true =>
        have hp := treeToken_tpos ht
        have hh : t.hdr = s.hdr := by rw [hfr.rest]
        exact ih hw' (State.tokensLeft_iff.1 hl).1 (by rw [hh]; omega)
      | false =>
        rw [readTree_exit_of_not_tokensLeft fuel hl]
        exact treeExit_reaches whole hw'

/-- From TDES's entry on, the items are TDES, and inside DECOMP UNPK after it. -/
theorem treeEntry_reaches (whole : Bool) {s₀ s u : State} (hw : Within s₀ s) (h : treeEntry s = .ok u) :
    Reaches (u.atJob (.tree whole)) (endWith s₀ (tdesBody s >>= thenStream whole)) := by
  rw [tdesBody, h, res_bind_ok]
  obtain ⟨-, -, -, rfl⟩ := treeEntry_ok.1 h
  exact treePosition_reaches whole _ ⟨hw.script_nil, hw.raises⟩ (by simp) (by simp)

/-! ## The header -/

/-- What DECOMP does after HDEC, and HDEC on its own does not. -/
def thenTree (whole : Bool) (s : State) : Res := if whole then tdesBody s >>= unpkBody else .ok s

theorem settleHeader_reaches (whole : Bool) {s₀ s : State} (hw : Within s₀ s) :
    Reaches (settleHeader whole s) (endWith s₀ (thenTree whole (headerExit s))) := by
  cases whole with
  | false => exact .refl _
  | true =>
    have hw' : Within s₀ (headerExit s) := ⟨hw.script_nil, hw.raises⟩
    show Reaches (goOn s (State.atJob · (.tree true)) (treeEntry (headerExit s))) _
    cases h : treeEntry (headerExit s) with
    | error e =>
      rw [goOn_error hw, thenTree, if_pos rfl, tdesBody, h]
      exact .refl _
    | ok u => exact treeEntry_reaches true hw' h

/-- From the header position on, the items are HDEC, and inside DECOMP TDES and UNPK after it. -/
theorem headerEntry_reaches (whole : Bool) {s₀ s u : State} (hw : Within s₀ s) (h : headerEntry s = .ok u) :
    Reaches (u.atJob (.header whole)) (endWith s₀ (hdecBody s >>= thenTree whole)) := by
  rw [hdecBody, h, res_bind_ok]
  obtain ⟨-, -, rfl⟩ := headerEntry_ok.1 h
  refine .item hw.script_nil (by simp) (engineStep_header whole u) ?_
  cases hh : headerWord u with
  | error e =>
    rw [goOn_error hw]
    exact .refl _
  | ok t =>
    rw [headerWord_eq] at hh
    obtain ⟨-, rfl⟩ := hdrItem_ok.1 hh
    exact settleHeader_reaches whole ⟨hw.script_nil, hw.raises⟩

end Sys2Proof.Machine

namespace Sys2Proof.Proofs

open Sys2Proof.Machine

/-- Settles O54: from each entry the items run the rest of the body, by induction on the stream bits left and on the
bound of the tree tokens left. -/
theorem itemsMakeUpTheCommand : Obligations.ItemsMakeUpTheCommand := by
  unfold Obligations.ItemsMakeUpTheCommand
  intro s ⟨hj, he⟩ hs
  have hw : Within s.accept s.accept := ⟨hs, fun _ => rfl⟩
  have command {u : State} {body : State → Res} {i : Instr} (hi : exec i = runCommand body)
      (h : Reaches u (endWith s.accept (body s.accept))) : ∃ n, core.run n u = exec i s := by
    rw [hi, runCommand_ready hj he]
    exact h
  have bind_ok (r : Res) : (r >>= Except.ok) = r := by cases r <;> rfl
  refine ⟨fun u hu => ⟨?_, ?_⟩, fun u hu => ?_, fun u hu hl => ?_⟩
  · refine command (body := hdecBody) rfl ?_
    exact bind_ok (hdecBody s.accept) ▸ headerEntry_reaches false hw hu
  · exact command (body := decompBody) rfl (headerEntry_reaches true hw hu)
  · refine command (body := tdesBody) rfl ?_
    exact bind_ok (tdesBody s.accept) ▸ treeEntry_reaches false hw hu
  · have first : u.streamPos < u.streamLen := by rwa [(streamEntry_start hu).2]
    have h := streamEntry_reaches false hw
    rw [hu, goOn, settleStream_of_left first] at h
    exact command (body := unpkBody) rfl h

/-- Settles O10, by the frame each instruction runs in: a command, an item, or CLR. -/
theorem execAlwaysAnswers : Obligations.ExecAlwaysAnswers := by
  unfold Obligations.ExecAlwaysAnswers
  intro i s
  cases i with
  | freq | build | tser | tdes | cgen | padc | henc | hdec | pack | unpk | comp | decomp => exact runCommand_next _ s
  | hdr _ _ | tEsc _ | tNode | tLeaf _ | bLeft | bRight => exact runItem_next _ s
  | clr => by_cases hb : s.busy = true <;> simp [exec, execClr, hb]

end Sys2Proof.Proofs
end

section
/-! SUPPORT. Whole units: OBUF only gains bytes while they run, TSER as one equation, the frames of PACK, TDES and UNPK,
and FREQ's count. -/

namespace Sys2Proof.Machine

/-! ## OBUF grows -/

/-- Every index `m` lists, `m'` lists too. -/
def Mem.Grows (m m' : List Host.Cell) : Prop := ∀ j, (Mem.get m j).isSome = true → (Mem.get m' j).isSome = true

theorem Mem.Grows.refl (m : List Host.Cell) : Mem.Grows m m := fun _ => id

theorem Mem.Grows.trans {m₁ m₂ m₃ : List Host.Cell} (h : Mem.Grows m₁ m₂) (k : Mem.Grows m₂ m₃) : Mem.Grows m₁ m₃ :=
  fun j hj => k j (h j hj)

theorem Mem.grows_set (m : List Host.Cell) (a : Nat) (v : Byte) : Mem.Grows m (Mem.set m a v) := by
  intro j hj
  rw [Mem.get_set]
  split
  · rfl
  · exact hj

theorem packBit_grows {d : Bool} {s t : State} (h : packBit d s = .ok t) : Mem.Grows s.obuf t.obuf := by
  rcases packBit_ok.1 h with ⟨-, rfl⟩ | ⟨-, -, rfl⟩
  · exact .refl _
  · exact Mem.grows_set _ _ _

theorem packBits_grows {ds : List Bool} {s t : State} (h : packBits ds s = .ok t) : Mem.Grows s.obuf t.obuf := by
  induction ds generalizing s with
  | nil =>
    cases h
    exact .refl _
  | cons d ds ih =>
    obtain ⟨u, hu, h⟩ := res_bind_eq_ok.1 h
    exact (packBit_grows hu).trans (ih h)

theorem packInput_grows {bs : List Byte} {s t : State} (h : packInput bs s = .ok t) : Mem.Grows s.obuf t.obuf := by
  induction bs generalizing s with
  | nil =>
    cases h
    exact .refl _
  | cons b bs ih =>
    obtain ⟨v, hv, h⟩ := res_bind_eq_ok.1 h
    obtain ⟨-, u, hu, rfl⟩ := packByte_ok.1 hv
    exact (packBits_grows hu).trans (ih h :)

theorem packFlush_grows {s t : State} (h : packFlush s = .ok t) : Mem.Grows s.obuf t.obuf := by
  rcases packFlush_ok.1 h with ⟨-, rfl⟩ | ⟨-, -, rfl⟩
  · exact .refl _
  · exact Mem.grows_set _ _ _

theorem emit_grows {sym : Byte} {s t : State} (h : emit sym s = .ok t) : Mem.Grows s.obuf t.obuf := by
  obtain ⟨-, rfl⟩ := emit_ok.1 h
  exact Mem.grows_set _ _ _

theorem walkNode_grows {d : Bool} {r : Tree} {s t : State} (h : walkNode d r s = .ok t) : Mem.Grows s.obuf t.obuf := by
  unfold walkNode at h
  split at h
  · cases h
  · split at h
    · obtain ⟨u, hu, h⟩ := res_bind_eq_ok.1 h
      cases h
      exact (emit_grows hu :)
    · cases h
      exact .refl _

theorem walkStep_grows {d : Bool} {s t : State} (h : walkStep d s = .ok t) : Mem.Grows s.obuf t.obuf := by
  rcases ht : s.tree with _ | ⟨sym⟩ | ⟨l, r⟩
  · simp [walkStep_none ht] at h
  · rw [walkStep_leaf ht] at h
    obtain ⟨u, hu, h⟩ := res_bind_eq_ok.1 h
    cases h
    cases d with
    | true => cases hu
    | false => exact (emit_grows (sym := sym) hu :)
  · rw [walkStep_node ht] at h
    obtain ⟨u, hu, h⟩ := res_bind_eq_ok.1 h
    cases h
    exact (walkNode_grows hu :)

theorem readStream_grows {k : Nat} {s t : State} (h : readStream k s = .ok t) : Mem.Grows s.obuf t.obuf := by
  induction k generalizing s with
  | zero =>
    cases h
    exact .refl _
  | succ k ih =>
    obtain ⟨u, hu, h⟩ := res_bind_eq_ok.1 h
    exact (walkStep_grows hu).trans (ih h)

/-! ## TSER -/

theorem Mem.setMany_wf {m : List Host.Cell} (h : Mem.wf m) (a : Nat) (vs : List Byte) :
    Mem.wf (Mem.setMany m a vs) := by
  induction vs generalizing m a with
  | nil => exact h
  | cons v vs ih => exact ih (Mem.set_wf h a v) (a + 1)

theorem Mem.setMany_in {m : List Host.Cell} {n : Nat} (h : ∀ c ∈ m, c.1 < n) {a : Nat} {vs : List Byte}
    (ha : a + vs.length ≤ n) : ∀ c ∈ Mem.setMany m a vs, c.1 < n := by
  induction vs generalizing m a with
  | nil => exact h
  | cons v vs ih =>
    rw [List.length_cons] at ha
    exact ih (Mem.set_in h (by omega) v) (by omega)

theorem Mem.grows_setMany (m : List Host.Cell) (a : Nat) (vs : List Byte) : Mem.Grows m (Mem.setMany m a vs) := by
  induction vs generalizing m a with
  | nil => exact .refl m
  | cons v vs ih => exact (Mem.grows_set m a v).trans (ih _ _)

/-- The written indices are listed. -/
theorem Mem.get_setMany_isSome (m : List Host.Cell) {a j : Nat} {vs : List Byte} (h : a ≤ j ∧ j < a + vs.length) :
    (Mem.get (Mem.setMany m a vs) j).isSome = true := by
  rw [Mem.get_setMany, if_pos h, List.getElem?_eq_getElem (by omega)]
  rfl

/-- Everything TSER's loop can do from its start (R141): the bytes are within the size limit and have room. -/
theorem writeTree_ok {vs : List Byte} (hv : vs ≠ []) {s t : State} (h0 : s.work.tpos = 0#13) :
    writeTree vs s = .ok t ↔ vs.length ≤ 8191 ∧ 2 + vs.length ≤ s.params.obufCap.toNat ∧
      t = { s with obuf := Mem.setMany s.obuf 2 vs, work := { s.work with tpos := BitVec.ofNat 13 vs.length } } := by
  have h0n : s.work.tpos.toNat = 0 := by rw [h0]; rfl
  by_cases hs : vs.length ≤ 8191 ∧ 2 + vs.length ≤ s.params.obufCap.toNat
  · obtain ⟨hs, hc⟩ := hs
    have run := writeTree_run vs s (by omega) (by omega)
    rw [h0n, h0, BitVec.zero_add] at run
    simp [run, hs, hc, eq_comm (a := t)]
  · have fails : ∃ e, writeTree vs s = .error e := by
      by_cases hc : s.params.obufCap.toNat < 2 + 8191
      · exact ⟨_, writeTree_alloc vs s hc (by omega) (by omega) (.inr ⟨by omega, hv⟩)⟩
      · exact ⟨_, writeTree_size vs s (by omega) (by omega) (by omega)⟩
    obtain ⟨e, he⟩ := fails
    simp [he]
    omega

/-- Everything TSER can do (R141). -/
theorem tserBody_ok {s t : State} :
    tserBody s = .ok t ↔ s.status.treeV = true ∧ ∃ r, s.tree = some r ∧ r.ser.length ≤ 8191 ∧
      2 + r.ser.length ≤ s.params.obufCap.toNat ∧ t = { s with
        obuf := Mem.setMany s.obuf 2 r.ser
        work := { s.work with tpos := BitVec.ofNat 13 r.ser.length }
        hdr := { s.hdr with tsize := BitVec.ofNat 13 r.ser.length }
        ownBytes := Own.add 2 r.ser.length s.ownBytes
        status := s.status.afterTser } := by
  have loop (r : Tree) {u : State} := writeTree_ok (ser_ne_nil r) (t := u)
    (s := { s with work := { s.work with tpos := 0#13 } }) rfl
  have toNat {n : Nat} (hn : n ≤ 8191) : (BitVec.ofNat 13 n).toNat = n := by
    rw [BitVec.toNat_ofNat]; omega
  simp only [tserBody, res_bind_eq_ok, requireTree_ok, loop, true_and]
  constructor
  · rintro ⟨r, ⟨h₁, h₂⟩, _, ⟨h₃, h₄, rfl⟩, h⟩
    refine ⟨h₁, r, h₂, h₃, h₄, ?_⟩
    simpa only [toNat h₃, Except.ok.injEq] using h.symm
  · rintro ⟨h₁, r, h₂, h₃, h₄, rfl⟩
    exact ⟨r, ⟨h₁, h₂⟩, _, ⟨h₃, h₄, rfl⟩, by simp only [toNat h₃]⟩

/-! ## Frames -/

theorem PackFrame.exists {s t : State} (h : PackFrame s t) : ∃ m acc cnt ipos opos, t = { s with
    obuf := m, work := { s.work with acc := acc, cnt := cnt, ipos := ipos, opos := opos } } :=
  ⟨_, _, _, _, _, h.rest⟩

theorem WalkFrame.exists {s t : State} (h : WalkFrame s t) : ∃ m cur opos spos bidx, t = { s with
    obuf := m, work := { s.work with cur := cur, opos := opos, spos := spos, bidx := bidx } } :=
  ⟨_, _, _, _, _, h.rest⟩

theorem TokenFrame.exists {s t : State} (h : TokenFrame s t) : ∃ r tpos fs, t = { s with
    tree := r, work := { s.work with tpos := tpos, tstack := fs } } :=
  ⟨_, _, _, h.rest⟩

/-- Everything PACK can do to the state (R187), with what its loops leave unchanged. -/
theorem packBody_frame {s t : State} (h : packBody s = .ok t) :
    s.status.codeV = true ∧ s.status.tszV = true ∧ ∃ v, PackFrame (packStart s) v ∧ Mem.Grows s.obuf v.obuf ∧
      t = { v with
        dstLen := v.work.opos
        ownBytes := Own.drop (2 + v.hdr.tsize.toNat) v.work.opos.toNat v.ownBytes } := by
  obtain ⟨hc, ht, -, u, v, hu, hv, rfl⟩ := packBody_ok.1 h
  exact ⟨hc, ht, v, (packInput_frame hu).trans (packFlush_frame hv),
    (packInput_grows hu :).trans (packFlush_grows hv), rfl⟩

/-! ## FREQ -/

theorem countInto_at (t : Table Word) (bs : List Byte) (b : Byte) :
    Table.at (countInto t bs) b = Table.at t b + BitVec.ofNat 32 (bs.count b) := by
  induction bs generalizing t with
  | nil => simp [countInto]
  | cons c bs ih =>
    rw [countInto, ih, Table.at_put, List.count_cons]
    by_cases h : b = c
    · subst h
      simp [BitVec.ofNat_add, BitVec.add_assoc, BitVec.add_comm 1#32]
    · simp [h, Ne.symm h]

theorem countTable_at (bs : List Byte) (b : Byte) : Table.at (countTable bs) b = BitVec.ofNat 32 (bs.count b) := by
  simp [Table.at, countTable]

/-- FREQ's counting loop gives the frequency table of R120. -/
theorem countInto_zero (bs : List Byte) : countInto (Vector.replicate 256 0#32) bs = countTable bs :=
  Table.ext fun b => by rw [countInto_at, countTable_at, Table.at_replicate, BitVec.zero_add]

end Sys2Proof.Machine
end

section
/-! SUPPORT. What every step keeps: the machine's form (State.Inv) and the meaning of the validity flags
(State.FlagsTrue). An operation is followed through states that would be sound if it ended there (State.InOp), one lemma
per unit; the engine's items and the host's moves follow from them. -/

namespace Sys2Proof.Machine

variable {F : Prop}

/-! ## The invariant, with or without the meaning of the flags -/

/-- The machine's form, and under the claim `F` the meaning of the validity flags too: one walk through the steps serves
both statements. -/
structure State.Sound (F : Prop) (s : State) : Prop where
  inv : s.Inv
  flags : F → s.FlagsTrue

/-- A state inside an operation: there is no error, `DONE` is 0, and were the operation to end here its state would be
sound. Nothing is said of the engine's position. -/
structure State.InOp (F : Prop) (s : State) : Prop where
  noErr : s.status.err = none
  notDone : s.status.done = false
  ended : s.finish.Sound F

/-- Nothing inside the engine is valid: the state after an error, CLR or reset (R236, R212, R260). -/
structure State.Blank (s : State) : Prop where
  obuf_nil : s.obuf = []
  ownBytes_nil : s.ownBytes = []
  dstLen_zero : s.dstLen = 0#32
  job_idle : s.job = .idle
  status_zero : s.status = { Status.zero with err := s.status.err }

theorem raise_blank (s : State) (e : ErrKind) : (s.raise e).Blank := ⟨rfl, rfl, rfl, rfl, rfl⟩
theorem clear_blank (s : State) : s.clear.Blank := ⟨rfl, rfl, rfl, rfl, rfl⟩
theorem resetEvent_blank (s : State) : s.resetEvent.Blank := ⟨rfl, rfl, rfl, rfl, rfl⟩
theorem reset_blank : State.reset.Blank := ⟨rfl, rfl, rfl, rfl, rfl⟩

/-- While there is no error, nothing is asked of an error's state. -/
theorem errClear_of_noErr {s : State} (he : s.status.err = none) : s.status.err.isSome = true →
    s.job = .idle ∧ s.status.done = false ∧ s.dstLen = 0#32 ∧ s.status = s.status.clearValid := by
  simp [he]

/-- Of a state where nothing is valid, only IBUF and the capacities are left to speak of. -/
theorem State.Blank.inv {s : State} (h : s.Blank) (caps : 0 < s.params.ibufCap.toNat ∧ 0 < s.params.obufCap.toNat)
    (ibufWf : Mem.wf s.ibuf) (ibufIn : ∀ c ∈ s.ibuf, c.1 < s.params.ibufCap.toNat) : s.Inv := by
  obtain ⟨hobuf, hown, hdst, hjob, hstatus⟩ := h
  constructor
  case caps => exact caps
  case ibufWf => exact ibufWf
  case ibufIn => exact ibufIn
  case oposRoom => simp [hjob]
  case errClear => exact fun _ => ⟨hjob, by rw [hstatus]; rfl, hdst, by rw [hstatus]; rfl⟩
  case treeHeld | builtFrom | codeFrom | treeRoom | doneIdle => rw [hstatus]; simp [Status.zero]
  case dstRoom => simp [hdst]
  case obufWf | obufIn | ownWritten | ownSorted => simp [hobuf, hown]

/-- While no built tree and no code is claimed, only `FREQ_V` says something. -/
theorem State.FlagsTrue.of_notBuilt {s : State} (hf : s.status.freqV = true → s.freq = countTable s.input)
    (hb : s.status.treeBuilt = false) (hc : s.status.codeV = false) : s.FlagsTrue where
  freqTrue := hf
  treeTrue := by simp [hb]
  codeTrue := by simp [hc]
  padTrue := by simp [hc]
  tszTrue := by simp [hb]

theorem State.Blank.flagsTrue {s : State} (h : s.Blank) : s.FlagsTrue := by
  apply State.FlagsTrue.of_notBuilt <;> rw [h.status_zero] <;> simp [Status.zero]

theorem State.Sound.blank {s t : State} (h : s.Sound F) (ht : t.Blank) (hp : t.params = s.params)
    (hi : t.ibuf = s.ibuf) : t.Sound F :=
  ⟨ht.inv (hp ▸ h.inv.caps) (hi ▸ h.inv.ibufWf) (by rw [hp, hi]; exact h.inv.ibufIn), fun _ => ht.flagsTrue⟩

theorem State.Sound.raise {s : State} (h : s.Sound F) (e : ErrKind) : (s.raise e).Sound F :=
  h.blank (raise_blank s e) rfl rfl

theorem State.Sound.clear {s : State} (h : s.Sound F) : s.clear.Sound F := h.blank (clear_blank s) rfl rfl

theorem State.Sound.resetEvent {s : State} (h : s.Sound F) : s.resetEvent.Sound F :=
  ⟨(resetEvent_blank s).inv h.inv.caps Mem.wf_nil (by simp), fun _ => (resetEvent_blank s).flagsTrue⟩

theorem State.InOp.raise {s : State} (h : s.InOp F) (e : ErrKind) : (s.raise e).Sound F := h.ended.raise e

/-! ## Entering and leaving an operation -/

theorem State.Inv.finish {s : State} (h : s.Inv) (he : s.status.err = none) : s.finish.Inv :=
  { h with
    errClear := errClear_of_noErr he
    doneIdle := fun _ => rfl
    oposRoom := nofun }

theorem State.FlagsTrue.finish {s : State} (h : s.FlagsTrue) (hj : ∀ w, s.job ≠ .tree w) : s.finish.FlagsTrue :=
  { h with treeTrue := fun hb _ => h.treeTrue hb hj }

/-- A command that is accepted begins inside an operation. -/
theorem State.Sound.accept {s : State} (h : s.Sound F) (hj : s.job = .idle) (he : s.status.err = none) :
    s.accept.InOp F :=
  have inv := h.inv.finish he
  ⟨he, rfl, { inv with errClear := errClear_of_noErr he }, fun hF =>
    { (h.flags hF).finish (by simp [hj]) with }⟩

/-- A busy engine has met no error, and `DONE` is 0. -/
theorem State.Inv.busy {s : State} (h : s.Inv) (hj : s.job ≠ .idle) : s.status.err = none ∧ s.status.done = false := by
  constructor
  · by_contra hn
    exact hj (h.errClear (Option.isSome_iff_ne_none.2 hn)).1
  · by_contra hn
    exact hj (h.doneIdle (by simpa using hn))

/-- A busy engine is inside an operation, but for what `TREE` holds while TDES writes it. -/
theorem State.Sound.inOp {s : State} (h : s.Sound F) (hj : s.job ≠ .idle) (ht : ∀ w, s.job ≠ .tree w) : s.InOp F :=
  have ⟨he, hd⟩ := h.inv.busy hj
  ⟨he, hd, h.inv.finish he, fun hF => (h.flags hF).finish ht⟩

/-- The engine may stand at any position at which the walker's `OPOS` exists. -/
theorem State.InOp.atJob {s : State} (h : s.InOp F) (j : Job)
    (ho : ∀ w, j = .stream w → s.work.opos.toNat ≤ s.params.obufCap.toNat) : (s.atJob j).Sound F :=
  ⟨{ h.ended.inv with
      errClear := errClear_of_noErr h.noErr
      doneIdle := fun hd => absurd (h.notDone.symm.trans hd) (by simp)
      oposRoom := ho },
    fun hF => { h.ended.flags hF with treeTrue := fun hb _ => (h.ended.flags hF).treeTrue hb nofun }⟩

/-! ## Loops over OBUF inside an operation -/

/-- Bytes written to OBUF, and the working registers: no flag speaks of them. -/
theorem State.InOp.output {s : State} (hs : s.InOp F) {m : List Host.Cell} (hwf : Mem.wf m)
    (hin : ∀ c ∈ m, c.1 < s.params.obufCap.toNat) (hg : Mem.Grows s.obuf m) (w : Work) :
    State.InOp F { s with obuf := m, work := w } :=
  have inv := hs.ended.inv
  ⟨hs.noErr, hs.notDone, { inv with
    obufWf := hwf
    obufIn := hin
    ownWritten := fun j hj => hg j (inv.ownWritten j hj)
    oposRoom := nofun }, fun hF => { hs.ended.flags hF with }⟩

theorem State.InOp.setWork {s : State} (hs : s.InOp F) (w : Work) : State.InOp F { s with work := w } :=
  hs.output hs.ended.inv.obufWf hs.ended.inv.obufIn (.refl _) w

/-- The end of an output: its length to `DST_LEN`, and HENC's and TSER's bytes that it wrote over are dropped (R61). -/
theorem State.InOp.endOutput {s : State} (hs : s.InOp F) {n : Word} (hn : n.toNat ≤ s.params.obufCap.toNat)
    (a b : Nat) :
    State.InOp F { s with dstLen := n, ownBytes := Own.drop a b s.ownBytes } :=
  have inv := hs.ended.inv
  ⟨hs.noErr, hs.notDone, { inv with
    errClear := errClear_of_noErr hs.noErr
    dstRoom := hn
    ownWritten := fun j hj => inv.ownWritten j (Own.mem_drop.1 hj).1
    ownSorted := Own.drop_sorted inv.ownSorted a b }, fun hF => { hs.ended.flags hF with }⟩

theorem PackFrame.inOp {s t : State} (h : PackFrame s t) (hg : Mem.Grows s.obuf t.obuf) (hs : s.InOp F) : t.InOp F := by
  have hwf := h.wf hs.ended.inv.obufWf
  have hin := h.inside hs.ended.inv.obufIn
  obtain ⟨m, acc, cnt, ipos, opos, rfl⟩ := h.exists
  exact hs.output hwf hin hg _

theorem WalkFrame.inOp {s t : State} (h : WalkFrame s t) (hg : Mem.Grows s.obuf t.obuf) (hs : s.InOp F) : t.InOp F := by
  have hwf := h.wf hs.ended.inv.obufWf
  have hin := h.inside hs.ended.inv.obufIn
  obtain ⟨m, cur, opos, spos, bidx, rfl⟩ := h.exists
  exact hs.output hwf hin hg _

/-! ## The units of the compress side -/

theorem freqBody_inOp {s t : State} (h : freqBody s = .ok t) (hs : s.InOp F) : t.InOp F := by
  obtain ⟨-, rfl⟩ := freqBody_ok.1 h
  refine ⟨hs.noErr, hs.notDone, { hs.ended.inv with
    treeHeld := nofun, builtFrom := nofun, codeFrom := nofun, treeRoom := nofun
    errClear := errClear_of_noErr hs.noErr }, fun _ => ?_⟩
  exact .of_notBuilt (fun _ => countInto_zero s.input) rfl rfl

theorem buildBody_inOp {s t : State} (h : buildBody s = .ok t) (hs : s.InOp F) : t.InOp F := by
  obtain ⟨hf, e, q, hq, rfl⟩ := buildBody_ok.1 h
  refine ⟨hs.noErr, hs.notDone, { hs.ended.inv with
    treeHeld := fun _ => rfl, builtFrom := fun _ => ⟨rfl, hf⟩, codeFrom := nofun, treeRoom := nofun
    errClear := errClear_of_noErr hs.noErr }, fun hF => { hs.ended.flags hF with
    treeTrue := fun _ _ => ?_, codeTrue := nofun, padTrue := nofun, tszTrue := nofun }⟩
  show some e.tree = builtTree s.freq
  rw [builtTree, hq]
  rfl

theorem cgenBody_inOp {s t : State} (h : cgenBody s = .ok t) (hs : s.InOp F) : t.InOp F := by
  obtain ⟨hb, hv, r, hr, rfl⟩ := cgenBody_ok.1 h
  refine ⟨hs.noErr, hs.notDone, { hs.ended.inv with
    codeFrom := fun _ => hb
    errClear := errClear_of_noErr hs.noErr
    oposRoom := nofun }, fun hF => { hs.ended.flags hF with
    codeTrue := fun _ => ⟨r, ?_, rfl⟩, padTrue := nofun }⟩
  exact ((hs.ended.flags hF).treeTrue hb nofun).symm.trans hr

theorem padcBody_inOp {s t : State} (h : padcBody s = .ok t) (hs : s.InOp F) : t.InOp F := by
  obtain ⟨-, -, rfl⟩ := padcBody_ok.1 h
  exact ⟨hs.noErr, hs.notDone, { hs.ended.inv with errClear := errClear_of_noErr hs.noErr }, fun hF =>
    { hs.ended.flags hF with padTrue := fun _ _ => rfl }⟩

theorem tserBody_inOp {s t : State} (h : tserBody s = .ok t) (hs : s.InOp F) : t.InOp F := by
  obtain ⟨hv, r, hr, hl, hc, rfl⟩ := tserBody_ok.1 h
  have hn : (BitVec.ofNat 13 r.ser.length).toNat = r.ser.length := by rw [BitVec.toNat_ofNat]; omega
  have inv := hs.ended.inv
  refine ⟨hs.noErr, hs.notDone, { inv with
    obufWf := Mem.setMany_wf inv.obufWf 2 _
    obufIn := Mem.setMany_in inv.obufIn hc
    errClear := errClear_of_noErr hs.noErr
    treeRoom := fun _ _ => ?_
    ownWritten := fun j hj => ?_
    ownSorted := Own.add_sorted inv.ownSorted 2 _
    oposRoom := nofun }, fun hF => { hs.ended.flags hF with tszTrue := fun hb _ => ⟨r, ?_, hn⟩ }⟩
  · show 2 + (BitVec.ofNat 13 r.ser.length).toNat ≤ s.params.obufCap.toNat
    rwa [hn]
  · rcases Own.mem_add.1 hj with hj | hj
    · exact Mem.get_setMany_isSome s.obuf hj
    · exact Mem.grows_setMany _ _ _ j (inv.ownWritten j hj)
  · exact ((hs.ended.flags hF).treeTrue hb nofun).symm.trans hr

theorem hencBody_inOp {s t : State} (h : hencBody s = .ok t) (hs : s.InOp F) : t.InOp F := by
  obtain ⟨-, -, hc, rfl⟩ := hencBody_ok.1 h
  have inv := hs.ended.inv
  refine ⟨hs.noErr, hs.notDone, { inv with
    obufWf := Mem.set_wf (Mem.set_wf inv.obufWf _ _) _ _
    obufIn := Mem.set_in (Mem.set_in inv.obufIn inv.caps.2 _) hc _
    ownWritten := fun j hj => ?_
    ownSorted := Own.add_sorted inv.ownSorted 0 2 }, fun hF => { hs.ended.flags hF with }⟩
  rcases Own.mem_add.1 hj with hj | hj
  · show (Mem.get (Mem.set (Mem.set s.obuf 0 _) 1 _) j).isSome = true
    rcases (by omega : j = 0 ∨ j = 1) with rfl | rfl <;> simp [Mem.get_set]
  · exact ((Mem.grows_set _ _ _).trans (Mem.grows_set _ _ _)) j (inv.ownWritten j hj)

/-- The stream begins inside OBUF: a code table goes with counts, and a tree size that goes with counts has room
(R141). -/
theorem packBody_inOp {s t : State} (h : packBody s = .ok t) (hs : s.InOp F) : t.InOp F := by
  obtain ⟨hc, ht, v, hv, hg, rfl⟩ := packBody_frame h
  have inv := hs.ended.inv
  have start : 2 + s.hdr.tsize.toNat ≤ s.params.obufCap.toNat :=
    inv.treeRoom (inv.builtFrom (inv.codeFrom hc)).2 ht
  refine (hv.inOp hg (hs.setWork _)).endOutput ?_ _ _
  rw [hv.params]
  exact hv.room ((streamStart_toNat s.hdr.tsize).trans_le start)

theorem compBody_inOp {s t : State} (h : compBody s = .ok t) (hs : s.InOp F) : t.InOp F := by
  obtain ⟨-, s₁, s₂, s₃, s₄, s₅, s₆, s₇, h₁, h₂, h₃, h₄, h₅, h₆, h₇, rfl⟩ := compBody_ok.1 h
  have hp : s₇.InOp F := packBody_inOp h₇ (hencBody_inOp h₆ (tserBody_inOp h₅ (padcBody_inOp h₄ (cgenBody_inOp h₃
    (buildBody_inOp h₂ (freqBody_inOp h₁ hs))))))
  exact hp.endOutput hp.ended.inv.dstRoom 0 _

/-! ## The units of the decompress side -/

/-- HDEC takes a header and its flags: no flag that speaks of counts, tree or code is left (R179). -/
theorem headerExit_inOp {s : State} (hs : s.InOp F) (h : Hdr) : (headerExit { s with hdr := h }).InOp F :=
  ⟨hs.noErr, hs.notDone, { hs.ended.inv with
    treeHeld := nofun, builtFrom := nofun, codeFrom := nofun, treeRoom := nofun
    errClear := errClear_of_noErr hs.noErr }, fun _ => .of_notBuilt nofun rfl rfl⟩

theorem hdecBody_inOp {s t : State} (h : hdecBody s = .ok t) (hs : s.InOp F) : t.InOp F := by
  obtain ⟨-, -, rfl⟩ := hdecBody_ok.1 h
  exact headerExit_inOp hs (headerOf (s.ibufByte 0) (s.ibufByte 1))

/-- TDES ends with a tree that BUILD did not make: of the flags only `FREQ_V` still says something (R147). -/
theorem afterTdes_inOp {s : State} (he : s.status.err = none) (hd : s.status.done = false) (inv : s.finish.Inv)
    (ht : s.tree.isSome = true) (hf : F → s.status.freqV = true → s.freq = countTable s.input) :
    State.InOp F { s with status := s.status.afterTdes } :=
  ⟨he, hd, { inv with
    treeHeld := fun _ => ht, builtFrom := nofun, codeFrom := nofun, errClear := errClear_of_noErr he },
    fun hF => .of_notBuilt (hf hF) rfl rfl⟩

theorem treeEntry_inOp {s t : State} (h : treeEntry s = .ok t) (hs : s.InOp F) : t.InOp F := by
  obtain ⟨-, -, -, rfl⟩ := treeEntry_ok.1 h
  exact hs.setWork _

theorem tdesBody_inOp {s t : State} (h : tdesBody s = .ok t) (hs : s.InOp F) : t.InOp F := by
  obtain ⟨-, -, -, ht, -, h⟩ := tdesBody_ok h
  rw [h]
  exact afterTdes_inOp (s := { s with tree := t.tree, work := { s.work with tpos := s.hdr.tsize, tstack := [] } })
    hs.noErr hs.notDone { hs.ended.inv with treeHeld := fun _ => ht, oposRoom := nofun } ht
    fun hF => (hs.ended.flags hF).freqTrue

/-- UNPK's entry sets `OPOS` to 0 (R198). -/
theorem streamEntry_inOp {s t : State} (h : streamEntry s = .ok t) (hs : s.InOp F) :
    t.InOp F ∧ t.work.opos = 0#32 := by
  obtain ⟨-, -, -, -, -, r, -, rfl⟩ := streamEntry_ok.1 h
  exact ⟨hs.setWork _, rfl⟩

theorem streamExit_inOp {s t : State} (h : streamExit s = .ok t) (hs : s.InOp F)
    (ho : s.work.opos.toNat ≤ s.params.obufCap.toNat) : t.InOp F := by
  obtain ⟨-, rfl⟩ := streamExit_ok.1 h
  exact hs.endOutput ho 0 _

theorem unpkBody_inOp {s t : State} (h : unpkBody s = .ok t) (hs : s.InOp F) : t.InOp F := by
  obtain ⟨u, v, hu, hv, h⟩ := unpkBody_ok.1 h
  obtain ⟨hu, h0⟩ := streamEntry_inOp hu hs
  have hf := readStream_frame hv
  refine streamExit_inOp h (hf.inOp (readStream_grows hv) hu) ?_
  rw [hf.params]
  exact hf.room (by simp [h0])

theorem decompBody_inOp {s t : State} (h : decompBody s = .ok t) (hs : s.InOp F) : t.InOp F := by
  obtain ⟨s₁, s₂, h₁, h₂, h₃⟩ := decompBody_ok.1 h
  exact unpkBody_inOp h₃ (tdesBody_inOp h₂ (hdecBody_inOp h₁ hs))

/-! ## Commands -/

theorem runCommand_sound {body : State → Res} (hb : ∀ {s t : State}, body s = .ok t → s.InOp F → t.InOp F)
    {s t : State} (h : runCommand body s = .next t) (hs : s.Sound F) : t.Sound F := by
  rcases runCommand_cases h with ⟨-, rfl⟩ | ⟨hj, he, ⟨u, hu, rfl⟩ | ⟨e, -, rfl⟩⟩
  · exact hs
  · exact (hb hu (hs.accept hj he)).ended
  · exact (hs.accept hj he).raise e

/-- Every command keeps both, by what its body keeps. -/
theorem execCommand_sound {i : Instr} (hi : isCommand i = true) {s t : State} (h : exec i s = .next t)
    (hs : s.Sound F) : t.Sound F := by
  cases i with
  | freq => exact runCommand_sound freqBody_inOp h hs
  | build => exact runCommand_sound buildBody_inOp h hs
  | tser => exact runCommand_sound tserBody_inOp h hs
  | tdes => exact runCommand_sound tdesBody_inOp h hs
  | cgen => exact runCommand_sound cgenBody_inOp h hs
  | padc => exact runCommand_sound padcBody_inOp h hs
  | henc => exact runCommand_sound hencBody_inOp h hs
  | hdec => exact runCommand_sound hdecBody_inOp h hs
  | pack => exact runCommand_sound packBody_inOp h hs
  | unpk => exact runCommand_sound unpkBody_inOp h hs
  | comp => exact runCommand_sound compBody_inOp h hs
  | decomp => exact runCommand_sound decompBody_inOp h hs
  | clr =>
    rcases execClr_cases h with ⟨-, rfl⟩ | ⟨-, rfl⟩
    · exact hs
    · exact hs.clear
  | hdr _ _ | tEsc _ | tNode | tLeaf _ | bLeft | bRight => cases hi

/-! ## The host's moves -/

/-- The model's own fields are no part of either (log entries 2 and 15). -/
theorem State.Sound.ownFields {s : State} (h : s.Sound F) (ms : List HostMove) (v : Word) (d : Nat) :
    State.Sound F { s with script := ms, hostRead := v, draws := d } :=
  ⟨{ h.inv with }, fun hF => { h.flags hF with }⟩

/-- A host write to IBUF or `SRC_LEN` clears every flag that speaks of the input (R71). -/
theorem State.Sound.hostWrite {s : State} (h : s.Sound F) {m : List Host.Cell} (hw : Mem.wf m)
    (hi : ∀ c ∈ m, c.1 < s.params.ibufCap.toNat) (n : Word) :
    State.Sound F { s.clearValid with ibuf := m, srcLen := n } := by
  refine ⟨{ h.inv with
    ibufWf := hw, ibufIn := hi, treeHeld := nofun, builtFrom := nofun, codeFrom := nofun, treeRoom := nofun
    errClear := fun he => ?_ }, fun _ => .of_notBuilt nofun rfl rfl⟩
  obtain ⟨hj, hd, hl, -⟩ := h.inv.errClear he
  exact ⟨hj, hd, hl, rfl⟩

/-- What `CMD` decodes is a command (R91). -/
theorem isCommand_of_decode {op : Byte} {r : List Byte} {i : Instr} (h : decode .cmd8 [op] = .ok (i, r)) :
    isCommand i = true := by
  have hd : decodeCmd op = .ok i := by
    cases hc : decodeCmd op with
    | ok k => simp_all [decode, Except.map]
    | error e => simp [decode, hc, Except.map] at h
  unfold decodeCmd at hd
  split at hd <;> cases hd <;> rfl

theorem writeCmd_sound {v : Word} {s t : State} (h : writeCmd v s = .next t) (hs : s.Sound F) : t.Sound F := by
  rcases writeCmd_cases h with ⟨i, r, hd, h⟩ | ⟨-, h⟩
  · exact execCommand_sound (isCommand_of_decode hd) h hs
  · rcases illegalCommand_cases h with rfl | ⟨-, -, rfl⟩
    · exact hs
    · exact hs.raise _

theorem hostMove_sound {m : HostMove} {s t : State} (h : hostMove m s = .next t) (hs : s.Sound F) : t.Sound F := by
  rcases hostMove_cases h with rfl | ⟨i, v, hi, rfl⟩ | ⟨v, rfl⟩ | ⟨v, h⟩ | ⟨v, rfl⟩ | rfl
  · exact hs
  · exact hs.hostWrite (Mem.set_wf hs.inv.ibufWf i v) (Mem.set_in hs.inv.ibufIn hi v) s.srcLen
  · exact hs.hostWrite hs.inv.ibufWf hs.inv.ibufIn v
  · exact writeCmd_sound h hs
  · exact hs.ownFields _ v _
  · exact hs.resetEvent

theorem hostMoveBusy_sound {m : HostMove} {s t : State} (h : hostMoveBusy m s = .next t) (hs : s.Sound F) :
    t.Sound F := by
  rcases hostMoveBusy_cases h with rfl | ⟨v, rfl⟩ | rfl | rfl
  · exact hs
  · exact hs.ownFields _ v _
  · exact hs.ownFields _ _ _
  · exact hs.resetEvent

/-! ## The items of an operation -/

/-- The next position of an operation, or error entry. -/
theorem goOn_sound {s : State} {next : State → State} {r : Res} (hs : ∀ e, (s.raise e).Sound F)
    (hr : ∀ t, r = .ok t → (next t).Sound F) : (goOn s next r).Sound F := by
  cases r with
  | ok t => exact hr t rfl
  | error e => exact hs e

theorem settleStream_sound (whole : Bool) {s : State} (hs : s.InOp F)
    (ho : s.work.opos.toNat ≤ s.params.obufCap.toNat) : (settleStream whole s).Sound F := by
  unfold settleStream
  split
  · exact hs.atJob (.stream whole) fun _ _ => ho
  · exact goOn_sound hs.raise fun t ht => (streamExit_inOp ht hs ho).ended

theorem afterTree_sound (whole : Bool) {s : State} (hs : s.InOp F) : (afterTree whole s).Sound F := by
  cases whole with
  | false => exact hs.ended
  | true =>
    refine goOn_sound hs.raise fun t ht => ?_
    obtain ⟨ht, h0⟩ := streamEntry_inOp ht hs
    exact settleStream_sound true ht (by simp [h0])

/-- A token is read only while a subtree is expected (R145). -/
theorem treeToken_expected {s t : State} (h : treeToken s = .ok t) : s.work.tstack ≠ [] := by
  have fits {k : Nat} (hf : tokenFits k s = true) : s.work.tstack ≠ [] := (tokenFits_iff.1 hf).1
  unfold treeToken at h
  split at h
  · exact fits (leafOf_ok.1 h).1
  · exact fits (nodeToken_ok.1 h).1
  · exact fits (leafOf_ok.1 h).1
  · cases h

theorem State.atJob_self {s : State} {j : Job} (h : s.job = j) : s.atJob j = s := by subst h; rfl

/-- A token, and where the engine goes after it: `TREE` may hold anything while TDES writes it. -/
theorem treeItem_sound {whole : Bool} {s t : State} (h : treeToken s = .ok t) (hj : s.job = .tree whole)
    (hs : s.Sound F) : (settleTree whole t).Sound F := by
  obtain ⟨he, hd⟩ := hs.inv.busy (by simp [hj])
  have hf := treeToken_frame h
  have held := hf.held
  have root : t.work.tstack = [] → t.tree.isSome = true := fun h0 =>
    (hf.root h0).resolve_right (treeToken_expected h)
  obtain ⟨r, tpos, fs, rfl⟩ := hf.exists
  have ht : State.Sound F { s with tree := r, work := { s.work with tpos := tpos, tstack := fs } } :=
    ⟨{ hs.inv with treeHeld := fun hv => held (hs.inv.treeHeld hv) }, fun hF =>
      { hs.flags hF with treeTrue := fun _ hn => absurd hj (hn whole) }⟩
  rw [settleTree_eq]
  split
  · rwa [State.atJob_self (by exact hj)]
  · refine goOn_sound ht.raise fun u hu => ?_
    obtain ⟨h0, -, rfl⟩ := treeExit_ok.1 hu
    exact afterTree_sound whole (afterTdes_inOp he hd (ht.inv.finish he) (root h0) fun hF => (hs.flags hF).freqTrue)

theorem settleHeader_sound (whole : Bool) {s : State} (hs : s.InOp F) (h : Hdr) :
    (settleHeader whole { s with hdr := h }).Sound F := by
  have he := headerExit_inOp hs h
  cases whole with
  | false => exact he.ended
  | true => exact goOn_sound hs.raise fun t ht => (treeEntry_inOp ht he).atJob (.tree true) nofun

/-- One item at each kind of position, and where the engine goes after it. -/
theorem engineStep_sound {s t : State} (h : engineStep s = .next t) (hj : s.job ≠ .idle) (hs : s.Sound F) :
    t.Sound F := by
  rcases hp : s.job with _ | whole | whole | whole
  · exact absurd hp hj
  · rw [← State.atJob_self hp, engineStep_header] at h
    cases h
    refine goOn_sound hs.raise fun u hu => ?_
    rw [headerWord_eq] at hu
    obtain ⟨-, rfl⟩ := hdrItem_ok.1 hu
    exact settleHeader_sound whole (hs.inOp hj (by simp [hp])) _
  · rw [← State.atJob_self hp, engineStep_tree] at h
    cases h
    exact goOn_sound hs.raise fun u hu => treeItem_sound hu hp hs
  · rw [← State.atJob_self hp, engineStep_stream] at h
    cases h
    refine goOn_sound hs.raise fun u hu => ?_
    have hf := walkStep_frame hu
    refine settleStream_sound whole (hf.inOp (walkStep_grows hu) (hs.inOp hj (by simp [hp]))) ?_
    rw [hf.params]
    exact hf.room (hs.inv.oposRoom whole hp)

/-! ## The step -/

/-- Every step keeps the machine's form, and with it the meaning of the validity flags. -/
theorem step_sound {s t : State} (h : step s = .next t) (hs : s.Sound F) : t.Sound F := by
  rcases step_cases h with ⟨-, -, rfl⟩ | ⟨m, rest, -, -, h⟩ | ⟨m, rest, -, -, h⟩ | ⟨hj, h⟩
  · exact hs
  · exact hostMove_sound h (hs.ownFields rest s.hostRead s.draws)
  · exact hostMoveBusy_sound h (hs.ownFields rest s.hostRead s.draws)
  · exact engineStep_sound h hj hs

end Sys2Proof.Machine

namespace Sys2Proof.Proofs

open Sys2Proof.Machine

/-- Settles O57: every host move and every item keeps the form (`step_sound`), the meaning of the flags not being
claimed. -/
theorem stepKeepsTheInvariant : Obligations.StepKeepsTheInvariant := by
  unfold Obligations.StepKeepsTheInvariant
  intro s t hs h
  exact (step_sound (F := False) h ⟨hs, False.elim⟩).inv

/-- Settles O58: every host move and every item keeps the form and the meaning of the flags (`step_sound`). -/
theorem stepKeepsTheFlagsTrue : Obligations.StepKeepsTheFlagsTrue := by
  unfold Obligations.StepKeepsTheFlagsTrue
  intro s t hs hf h
  exact (step_sound (F := True) h ⟨hs, fun _ => hf⟩).flags trivial

/-- Settles O56: after reset nothing is valid. -/
theorem resetMeetsTheInvariant : Obligations.ResetMeetsTheInvariant := by
  unfold Obligations.ResetMeetsTheInvariant
  exact ⟨reset_blank.inv (by decide) Mem.wf_nil nofun, reset_blank.flagsTrue⟩

end Sys2Proof.Proofs
end

section
/-! SUPPORT. Which registers an instruction keeps: every instruction's body by one name, and what each leaves as it
was. -/

namespace Sys2Proof.Machine

/-- The body each instruction runs, in the frame of a command or of an item; CLR, which runs in neither, answers its
state. -/
def bodyOf : Instr → State → Res
  | .freq => freqBody
  | .build => buildBody
  | .tser => tserBody
  | .tdes => tdesBody
  | .cgen => cgenBody
  | .padc => padcBody
  | .henc => hencBody
  | .hdec => hdecBody
  | .pack => packBody
  | .unpk => unpkBody
  | .comp => compBody
  | .decomp => decompBody
  | .clr => fun s => .ok s.clear
  | .hdr pad tsize => hdrItem pad tsize
  | .tEsc sym => escToken sym
  | .tNode => nodeToken
  | .tLeaf sym => leafToken sym
  | .bLeft => walkStep false
  | .bRight => walkStep true

theorem exec_command {i : Instr} (hi : isCommand i = true) (hc : i ≠ .clr) : exec i = runCommand (bodyOf i) := by
  cases i with
  | clr => exact absurd rfl hc
  | hdr _ _ | tEsc _ | tNode | tLeaf _ | bLeft | bRight => cases hi
  | freq | build | tser | tdes | cgen | padc | henc | hdec | pack | unpk | comp | decomp => rfl

theorem exec_item {i : Instr} (hi : isCommand i = false) : exec i = runItem (bodyOf i) := by
  cases i with
  | hdr _ _ | tEsc _ | tNode | tLeaf _ | bLeft | bRight => rfl
  | freq | build | tser | tdes | cgen | padc | henc | hdec | pack | unpk | comp | decomp | clr => cases hi

/-- Everything an instruction but CLR can do where it ends without error: it is ignored, or its body answers the
state. -/
theorem exec_ends {i : Instr} {s t : State} (hc : i ≠ .clr) (he : s.status.err = none) (h : exec i s = .next t)
    (ht : t.status.err = none) :
    t = s ∨ (∃ u, bodyOf i s.accept = .ok u ∧ t = u.finish) ∨ bodyOf i s = .ok t := by
  cases hi : isCommand i with
  | true =>
    rw [exec_command hi hc] at h
    rcases runCommand_cases h with ⟨-, rfl⟩ | ⟨-, -, hu | ⟨e, -, rfl⟩⟩
    · exact .inl rfl
    · exact .inr (.inl hu)
    · cases ht
  | false =>
    rw [exec_item hi] at h
    rcases runItem_cases h with hu | ⟨e, -, rfl⟩
    · exact .inr (.inr hu)
    · cases ht

/-- What RegistersChangeOnlyWhereNamed says of one instruction between two states. -/
@[simp] def RegistersKept (i : Instr) (s t : State) : Prop :=
  (i ≠ .freq → i ≠ .comp → t.freq = s.freq) ∧
  (i ≠ .cgen → i ≠ .comp → t.code = s.code) ∧
  (i ≠ .build → i ≠ .tdes → i ≠ .comp → i ≠ .decomp → (∀ b, i ≠ .tEsc b) → (∀ b, i ≠ .tLeaf b) → t.tree = s.tree) ∧
  (i ≠ .build → i ≠ .comp → t.pq = s.pq) ∧
  (i ≠ .padc → i ≠ .hdec → i ≠ .comp → i ≠ .decomp → (∀ p n, i ≠ .hdr p n) → t.hdr.pad = s.hdr.pad) ∧
  (i ≠ .tser → i ≠ .hdec → i ≠ .comp → i ≠ .decomp → (∀ p n, i ≠ .hdr p n) → t.hdr.tsize = s.hdr.tsize) ∧
  (i ≠ .pack → i ≠ .unpk → i ≠ .comp → i ≠ .decomp → t.dstLen = s.dstLen)

/-- What WorkingRegistersChangeOnlyWhereUsed says of one instruction between two states. -/
@[simp] def WorkingRegistersKept (i : Instr) (s t : State) : Prop :=
  (i ≠ .pack → i ≠ .comp → t.work.acc = s.work.acc ∧ t.work.cnt = s.work.cnt ∧ t.work.ipos = s.work.ipos) ∧
  (i ≠ .pack → i ≠ .comp → i ≠ .unpk → i ≠ .decomp → i ≠ .bLeft → i ≠ .bRight → t.work.opos = s.work.opos) ∧
  (i ≠ .unpk → i ≠ .decomp → i ≠ .bLeft → i ≠ .bRight →
    t.work.cur = s.work.cur ∧ t.work.spos = s.work.spos ∧ t.work.bidx = s.work.bidx) ∧
  (i ≠ .tser → i ≠ .tdes → i ≠ .comp → i ≠ .decomp → i.format ≠ .ttok → t.work.tpos = s.work.tpos) ∧
  (i ≠ .cgen → i ≠ .comp → t.work.path = s.work.path) ∧
  (i ≠ .cgen → i ≠ .tdes → i ≠ .comp → i ≠ .decomp → i.format ≠ .ttok → t.work.tstack = s.work.tstack)

/-- The registers and working registers an instruction does not use keep their values. -/
@[simp] def Kept (i : Instr) (s t : State) : Prop := RegistersKept i s t ∧ WorkingRegistersKept i s t

/-- UNPK touches OBUF, `DST_LEN`, the bytes HENC and TSER wrote, and the walker's registers. -/
theorem unpkBody_frame {s t : State} (h : unpkBody s = .ok t) : ∃ m n own cur opos spos bidx, t = { s with
    obuf := m, dstLen := n, ownBytes := own
    work := { s.work with cur := cur, opos := opos, spos := spos, bidx := bidx } } := by
  obtain ⟨u, v, hu, hv, h⟩ := unpkBody_ok.1 h
  obtain ⟨-, -, -, -, -, r, -, rfl⟩ := streamEntry_ok.1 hu
  obtain ⟨m, cur, opos, spos, bidx, rfl⟩ := (readStream_frame hv).exists
  obtain ⟨-, rfl⟩ := streamExit_ok.1 h
  exact ⟨_, _, _, _, _, _, _, rfl⟩

/-- TDES touches `TREE`, its flags and the codec's registers. -/
theorem tdesBody_frame {s t : State} (h : tdesBody s = .ok t) : ∃ r tpos fs, t = { s with
    tree := r, status := s.status.afterTdes, work := { s.work with tpos := tpos, tstack := fs } } := by
  obtain ⟨-, -, -, -, -, h⟩ := tdesBody_ok h
  exact ⟨_, _, _, h⟩

/-- COMP uses the registers of the compress side, and none of the walker's but `OPOS`. -/
theorem compBody_cursor {s t : State} (h : compBody s = .ok t) :
    t.work.cur = s.work.cur ∧ t.work.spos = s.work.spos ∧ t.work.bidx = s.work.bidx := by
  obtain ⟨-, s₁, s₂, s₃, s₄, s₅, s₆, s₇, h₁, h₂, h₃, h₄, h₅, h₆, h₇, rfl⟩ := compBody_ok.1 h
  obtain ⟨-, rfl⟩ := freqBody_ok.1 h₁
  obtain ⟨-, e, q, -, rfl⟩ := buildBody_ok.1 h₂
  obtain ⟨-, -, r, -, rfl⟩ := cgenBody_ok.1 h₃
  obtain ⟨-, -, rfl⟩ := padcBody_ok.1 h₄
  obtain ⟨-, r', -, -, -, rfl⟩ := tserBody_ok.1 h₅
  obtain ⟨-, -, -, rfl⟩ := hencBody_ok.1 h₆
  obtain ⟨-, -, v, hv, -, rfl⟩ := packBody_frame h₇
  obtain ⟨m, acc, cnt, ipos, opos, rfl⟩ := hv.exists
  exact ⟨rfl, rfl, rfl⟩

/-- Each body by what it can do. -/
theorem bodyOf_kept {i : Instr} (hc : i ≠ .clr) {s t : State} (h : bodyOf i s = .ok t) : Kept i s t := by
  cases i with
  | freq =>
    obtain ⟨-, rfl⟩ := freqBody_ok.1 h
    simp
  | build =>
    obtain ⟨-, e, q, -, rfl⟩ := buildBody_ok.1 h
    simp
  | tser =>
    obtain ⟨-, r, -, -, -, rfl⟩ := tserBody_ok.1 h
    simp
  | tdes =>
    obtain ⟨r, tpos, fs, rfl⟩ := tdesBody_frame h
    simp
  | cgen =>
    obtain ⟨-, -, r, -, rfl⟩ := cgenBody_ok.1 h
    simp
  | padc =>
    obtain ⟨-, -, rfl⟩ := padcBody_ok.1 h
    simp
  | henc =>
    obtain ⟨-, -, -, rfl⟩ := hencBody_ok.1 h
    simp
  | hdec =>
    obtain ⟨-, -, rfl⟩ := hdecBody_ok.1 h
    simp
  | pack =>
    obtain ⟨-, -, v, hv, -, rfl⟩ := packBody_frame h
    obtain ⟨m, acc, cnt, ipos, opos, rfl⟩ := hv.exists
    simp [packStart]
  | unpk =>
    obtain ⟨m, n, own, cur, opos, spos, bidx, rfl⟩ := unpkBody_frame h
    simp
  | comp => simpa using compBody_cursor h
  | decomp =>
    obtain ⟨s₁, s₂, h₁, h₂, h₃⟩ := decompBody_ok.1 h
    obtain ⟨-, -, rfl⟩ := hdecBody_ok.1 h₁
    obtain ⟨r, tpos, fs, rfl⟩ := tdesBody_frame h₂
    obtain ⟨m, n, own, cur, opos, spos, bidx, rfl⟩ := unpkBody_frame h₃
    simp
  | clr => exact absurd rfl hc
  | hdr pad tsize =>
    obtain ⟨-, rfl⟩ := hdrItem_ok.1 h
    simp
  | tEsc sym | tLeaf sym =>
    obtain ⟨-, rfl⟩ := leafOf_ok.1 h
    simp [Instr.format]
  | tNode =>
    obtain ⟨-, rfl⟩ := nodeToken_ok.1 h
    simp [Instr.format]
  | bLeft | bRight =>
    obtain ⟨m, cur, opos, spos, bidx, rfl⟩ := (walkStep_frame h).exists
    simp

/-- Accepting a command and ending it touch no register. -/
theorem exec_kept {i : Instr} {s t : State} (hc : i ≠ .clr) (he : s.status.err = none) (h : exec i s = .next t)
    (ht : t.status.err = none) : Kept i s t := by
  rcases exec_ends hc he h ht with rfl | ⟨u, hu, rfl⟩ | hu
  · simp
  · have kept := bodyOf_kept hc hu
    exact kept
  · exact bodyOf_kept hc hu

end Sys2Proof.Machine

namespace Sys2Proof.Proofs

open Sys2Proof.Machine

/-- Settles O52, by what each instruction's body can do. -/
theorem registersChangeOnlyWhereNamed : Obligations.RegistersChangeOnlyWhereNamed := by
  unfold Obligations.RegistersChangeOnlyWhereNamed
  exact fun _ _ _ hc he h ht => (exec_kept hc he h ht).1

/-- Settles O53, by what each instruction's body can do. -/
theorem workingRegistersChangeOnlyWhereUsed : Obligations.WorkingRegistersChangeOnlyWhereUsed := by
  unfold Obligations.WorkingRegistersChangeOnlyWhereUsed
  exact fun _ _ _ hc he h ht => (exec_kept hc he h ht).2

end Sys2Proof.Proofs
end

section
/-! SUPPORT. `STATUS` bit by bit, the CSRs after reset, and the step where the host's next move is known. -/

namespace Sys2Proof.Machine

/-- The bits of `STATUS.ERRCODE` in a state (R27, R231). -/
def State.errCode (s : State) : BitVec 4 := match s.status.err with | none => 0#4 | some e => e.code

/-- `STATUS` bit by bit: the fields stand one after the other, `BUSY` lowest (R27). -/
theorem statusWord_getLsbD (s : State) (k : Nat) : s.statusWord.getLsbD k = BitVec.getLsbD
    (0#2 ++ BitVec.ofBool s.status.tszV ++ BitVec.ofBool s.status.padV ++ BitVec.ofBool s.status.codeV
      ++ BitVec.ofBool s.status.treeBuilt ++ BitVec.ofBool s.status.treeV ++ BitVec.ofBool s.status.freqV
      ++ s.errCode ++ 0#1 ++ BitVec.ofBool s.status.err.isSome ++ BitVec.ofBool s.status.done
      ++ BitVec.ofBool s.busy) k := rfl

/-- Every CSR reads 0 in the state of reset (R39). -/
theorem csrRead_zero {s : State} (hs : s.status = Status.zero) (hj : s.job = .idle) (hh : s.hdr = ⟨0#3, 0#13⟩)
    (hz : s.hdrZero = true) (hl : s.srcLen = 0#32) (hd : s.dstLen = 0#32) (r : Csr) : s.csrRead r = 0#32 := by
  cases r with
  | cmd => rfl
  | status => simp [State.csrRead, State.statusWord, State.busy, hs, hj, Status.zero]
  | hdr => simp [State.csrRead, State.hdrRead, hz, hh, Hdr.word]
  | srcLen => exact hl
  | dstLen => exact hd

/-- Reset comes at any time, also while `BUSY` = 1 (R260). -/
theorem step_of_reset {s : State} {rest : List HostMove} (h : s.script = .reset :: rest) :
    step s = .next (State.resetEvent { s with script := rest }) := by
  unfold step machineStep
  split <;> simp [h, hostMove, hostMoveBusy]

/-- A busy engine goes on while the host makes no move or waits (R102). -/
theorem step_of_busy_waiting {s : State} (hj : s.job ≠ .idle) (hs : s.script = [] ∨ ∃ rest, s.script = .wait :: rest) :
    step s = engineStep s := by
  unfold step machineStep
  split
  · contradiction
  · rcases hs with hs | ⟨rest, hs⟩ <;> simp [hs]

end Sys2Proof.Machine

namespace Sys2Proof.Proofs

open Sys2Proof Sys2Proof.Machine

/-- Settles O5: the idle engine makes the host's move, and the move decodes to the command. -/
theorem stepRunsTheWrittenCommand : Obligations.StepRunsTheWrittenCommand := by
  unfold Obligations.StepRunsTheWrittenCommand
  intro s v rest i hj hs hd
  simp [step, machineStep, hj, hs, hostMove, writeCsr, writeCmd, hd]

/-- Settles O6: the busy engine goes on, with the fetched item. -/
theorem stepRunsTheFetchedItem : Obligations.StepRunsTheFetchedItem := by
  unfold Obligations.StepRunsTheFetchedItem
  intro s i hj hs hf
  rw [step_of_busy_waiting hj hs, engineStep, hf]

/-- Settles O45, bit by bit. -/
theorem statusFieldsStandInPlace : Obligations.StatusFieldsStandInPlace := by
  unfold Obligations.StatusFieldsStandInPlace
  refine ⟨by decide, fun s => ?_⟩
  obtain ⟨errCode, reserved⟩ : s.statusWord.extractLsb' 4 4 = s.errCode ∧ s.statusWord.extractLsb' 14 2 = 0#2 := by
    constructor
    all_goals
      refine BitVec.eq_of_getLsbD_eq fun i hi => ?_
      rw [BitVec.getLsbD_extractLsb', statusWord_getLsbD]
      simp only [BitVec.getLsbD_append]
      interval_cases i <;> simp
  simp only [statusWord_getLsbD, BitVec.getLsbD_append]
  refine ⟨?_, ?_, ?_, ?_, errCode, ?_, ?_, ?_, ?_, ?_, ?_, reserved⟩ <;> simp

/-- Settles O49: the state of reset and the one the reset move leaves have every CSR at 0. -/
theorem resetLeaves : Obligations.ResetLeaves := by
  unfold Obligations.ResetLeaves
  refine ⟨csrRead_zero rfl rfl rfl rfl rfl rfl, rfl, rfl, rfl, fun s rest h => ?_⟩
  exact ⟨_, step_of_reset h, csrRead_zero rfl rfl rfl rfl rfl rfl, rfl, rfl, rfl, rfl, rfl⟩

end Sys2Proof.Proofs
end

section
/-! SUPPORT. Where an instruction writes OBUF and what it leaves of the input: the packer and the walker write upwards
from `OPOS`, and the memory frame of every instruction's body. -/

namespace Sys2Proof.Machine

/-! ## Writing upwards from `OPOS` -/

/-- At most one byte goes out, at `OPOS`, which moves on behind it (R24). -/
def ByteOut (s t : State) : Prop :=
  (t.work.opos = s.work.opos ∧ t.obuf = s.obuf) ∨
    (s.work.opos.toNat < s.params.obufCap.toNat ∧ t.work.opos = s.work.opos + 1#32 ∧
      ∃ v, t.obuf = Mem.set s.obuf s.work.opos.toNat v)

/-- Bytes go out only from the `OPOS` before up to the `OPOS` after (R24). -/
def BytesOut (s t : State) : Prop :=
  s.work.opos.toNat ≤ t.work.opos.toNat ∧
    ∀ j, ¬ (s.work.opos.toNat ≤ j ∧ j < t.work.opos.toNat) → Mem.get t.obuf j = Mem.get s.obuf j

theorem ByteOut.get_eq {s t : State} (h : ByteOut s t) {j : Nat} (hj : j ≠ s.work.opos.toNat) :
    Mem.get t.obuf j = Mem.get s.obuf j := by
  rcases h with ⟨-, hm⟩ | ⟨-, -, v, hm⟩ <;> rw [hm]
  exact Mem.get_set_ne _ v hj

theorem ByteOut.bytesOut {s t : State} (h : ByteOut s t) : BytesOut s t := by
  rcases h with ⟨ho, hm⟩ | ⟨room, ho, v, hm⟩
  · exact ⟨by rw [ho], fun j _ => by rw [hm]⟩
  · have next := opos_step room
    refine ⟨by rw [ho, next]; omega, fun j hj => ?_⟩
    rw [ho, next] at hj
    rw [hm, Mem.get_set_ne _ v (by omega)]

theorem BytesOut.refl (s : State) : BytesOut s s := ⟨le_rfl, fun _ _ => rfl⟩

theorem BytesOut.trans {s t u : State} (h : BytesOut s t) (k : BytesOut t u) : BytesOut s u := by
  obtain ⟨hle, hget⟩ := h
  obtain ⟨kle, kget⟩ := k
  exact ⟨by omega, fun j hj => (kget j (by omega)).trans (hget j (by omega))⟩

theorem packBit_byteOut {d : Bool} {s t : State} (h : packBit d s = .ok t) : ByteOut s t := by
  rcases packBit_ok.1 h with ⟨-, rfl⟩ | ⟨-, room, rfl⟩
  · exact .inl ⟨rfl, rfl⟩
  · exact .inr ⟨room, rfl, _, rfl⟩

theorem packBits_bytesOut {ds : List Bool} {s t : State} (h : packBits ds s = .ok t) : BytesOut s t := by
  induction ds generalizing s with
  | nil =>
    cases h
    exact .refl _
  | cons d ds ih =>
    obtain ⟨u, hu, h⟩ := res_bind_eq_ok.1 h
    exact (packBit_byteOut hu).bytesOut.trans (ih h)

theorem packInput_bytesOut {bs : List Byte} {s t : State} (h : packInput bs s = .ok t) : BytesOut s t := by
  induction bs generalizing s with
  | nil =>
    cases h
    exact .refl _
  | cons b bs ih =>
    obtain ⟨v, hv, h⟩ := res_bind_eq_ok.1 h
    obtain ⟨-, u, hu, rfl⟩ := packByte_ok.1 hv
    exact (packBits_bytesOut hu).trans (ih h :)

theorem packFlush_byteOut {s t : State} (h : packFlush s = .ok t) : ByteOut s t := by
  rcases packFlush_ok.1 h with ⟨-, rfl⟩ | ⟨-, room, rfl⟩
  · exact .inl ⟨rfl, rfl⟩
  · exact .inr ⟨room, rfl, _, rfl⟩

theorem emit_byteOut {sym : Byte} {s t : State} (h : emit sym s = .ok t) : ByteOut s t := by
  obtain ⟨room, rfl⟩ := emit_ok.1 h
  exact .inr ⟨room, rfl, _, rfl⟩

theorem walkNode_byteOut {d : Bool} {r : Tree} {s t : State} (h : walkNode d r s = .ok t) : ByteOut s t := by
  unfold walkNode at h
  split at h
  · cases h
  · split at h
    · obtain ⟨u, hu, h⟩ := res_bind_eq_ok.1 h
      cases h
      exact (emit_byteOut hu :)
    · cases h
      exact .inl ⟨rfl, rfl⟩

theorem walkStep_byteOut {d : Bool} {s t : State} (h : walkStep d s = .ok t) : ByteOut s t := by
  rcases ht : s.tree with _ | ⟨sym⟩ | ⟨l, r⟩
  · simp [walkStep_none ht] at h
  · rw [walkStep_leaf ht] at h
    obtain ⟨u, hu, h⟩ := res_bind_eq_ok.1 h
    cases h
    cases d with
    | true => cases hu
    | false => exact (emit_byteOut (sym := sym) hu :)
  · rw [walkStep_node ht] at h
    obtain ⟨u, hu, h⟩ := res_bind_eq_ok.1 h
    cases h
    exact (walkNode_byteOut hu :)

theorem readStream_bytesOut {k : Nat} {s t : State} (h : readStream k s = .ok t) : BytesOut s t := by
  induction k generalizing s with
  | zero =>
    cases h
    exact .refl _
  | succ k ih =>
    obtain ⟨u, hu, h⟩ := res_bind_eq_ok.1 h
    exact (walkStep_byteOut hu).bytesOut.trans (ih h)

/-- PACK writes from behind the tree up to its `DST_LEN`, and those bytes stop being HENC's and TSER's (R187). -/
theorem packBody_output {s t : State} (h : packBody s = .ok t) :
    ∃ m acc cnt ipos opos, 2 + s.hdr.tsize.toNat ≤ opos.toNat ∧
      (∀ j, ¬ (2 + s.hdr.tsize.toNat ≤ j ∧ j < opos.toNat) → Mem.get m j = Mem.get s.obuf j) ∧
      t = { s with
        obuf := m, dstLen := opos, ownBytes := Own.drop (2 + s.hdr.tsize.toNat) opos.toNat s.ownBytes
        work := { s.work with acc := acc, cnt := cnt, ipos := ipos, opos := opos } } := by
  obtain ⟨-, -, -, u, v, hu, hv, rfl⟩ := packBody_ok.1 h
  obtain ⟨hle, hget⟩ := (packInput_bytesOut hu).trans (packFlush_byteOut hv).bytesOut
  obtain ⟨m, acc, cnt, ipos, opos, rfl⟩ := ((packInput_frame hu).trans (packFlush_frame hv)).exists
  simp only [packStart, streamStart_toNat] at hle hget
  exact ⟨m, acc, cnt, ipos, opos, hle, hget, rfl⟩

/-- UNPK writes from 0 up to its `DST_LEN`, and those bytes stop being HENC's and TSER's (R198). -/
theorem unpkBody_output {s t : State} (h : unpkBody s = .ok t) :
    ∃ m cur opos spos bidx, (∀ j, ¬ j < opos.toNat → Mem.get m j = Mem.get s.obuf j) ∧
      t = { s with
        obuf := m, dstLen := opos, ownBytes := Own.drop 0 opos.toNat s.ownBytes
        work := { s.work with cur := cur, opos := opos, spos := spos, bidx := bidx } } := by
  obtain ⟨u, v, hu, hv, h⟩ := unpkBody_ok.1 h
  obtain ⟨-, -, -, -, -, r, -, rfl⟩ := streamEntry_ok.1 hu
  obtain ⟨-, hget⟩ := readStream_bytesOut hv
  obtain ⟨m, cur, opos, spos, bidx, rfl⟩ := (readStream_frame hv).exists
  obtain ⟨-, rfl⟩ := streamExit_ok.1 h
  exact ⟨m, cur, opos, spos, bidx, fun j hj => hget j fun hj' => hj hj'.2, rfl⟩

/-! ## The memory frame of an instruction -/

/-- The input, the capacities and the host's own fields are as they were (R29, R61). -/
def InputKept (s t : State) : Prop :=
  t.ibuf = s.ibuf ∧ t.ibufDraw = s.ibufDraw ∧ t.srcLen = s.srcLen ∧ t.params = s.params ∧ t.script = s.script ∧
    t.hostRead = s.hostRead

theorem InputKept.refl (s : State) : InputKept s s := ⟨rfl, rfl, rfl, rfl, rfl, rfl⟩

/-- What an instruction that ends without error does to the memories: the input is kept, OBUF is written only where R76
says, and a command settles which bytes stand as HENC and TSER on their own wrote them (R61). -/
structure MemoryFrame (i : Instr) (s t : State) : Prop where
  input : InputKept s t
  obuf : ∀ j, ¬ writesAt i s t j → Mem.get t.obuf j = Mem.get s.obuf j
  own : isCommand i = true → ∀ j, j ∈ t.ownBytes ↔ (i = .henc ∧ j < 2) ∨
    (i = .tser ∧ 2 ≤ j ∧ j < 2 + t.hdr.tsize.toNat) ∨ (j ∈ s.ownBytes ∧ ¬ writesAt i s t j)

/-- The frame of every instruction but the two whose bytes are their own. -/
theorem MemoryFrame.of_ne {i : Instr} {s t : State} (input : InputKept s t)
    (obuf : ∀ j, ¬ writesAt i s t j → Mem.get t.obuf j = Mem.get s.obuf j)
    (own : isCommand i = true → ∀ j, j ∈ t.ownBytes ↔ j ∈ s.ownBytes ∧ ¬ writesAt i s t j)
    (hHenc : i ≠ .henc := by simp) (hTser : i ≠ .tser := by simp) : MemoryFrame i s t :=
  ⟨input, obuf, fun hi j => by simpa [hHenc, hTser] using own hi j⟩

/-- The frame of an instruction that stores nothing. -/
theorem MemoryFrame.of_noStore {i : Instr} {s t : State} (input : InputKept s t) (obuf : t.obuf = s.obuf)
    (own : t.ownBytes = s.ownBytes) (writes : ∀ j, ¬ writesAt i s t j := by simp [writesAt])
    (hHenc : i ≠ .henc := by simp) (hTser : i ≠ .tser := by simp) : MemoryFrame i s t :=
  .of_ne input (fun _ _ => by rw [obuf]) (fun _ j => by simp [own, writes j]) hHenc hTser

theorem hencBody_memory {s t : State} (h : hencBody s = .ok t) : MemoryFrame .henc s t := by
  obtain ⟨-, -, -, rfl⟩ := hencBody_ok.1 h
  refine ⟨.refl s, fun j hj => ?_, fun _ j => ?_⟩
  · simp only [writesAt] at hj
    rw [Mem.get_set_ne _ _ (by omega), Mem.get_set_ne _ _ (by omega)]
  · by_cases hj : j < 2 <;> simp [writesAt, hj]

theorem serLength_toNat {r : Tree} (h : r.ser.length ≤ 8191) : (BitVec.ofNat 13 r.ser.length).toNat = r.ser.length := by
  rw [BitVec.toNat_ofNat]; omega

theorem tserBody_memory {s t : State} (h : tserBody s = .ok t) : MemoryFrame .tser s t := by
  obtain ⟨-, r, -, size, -, rfl⟩ := tserBody_ok.1 h
  refine ⟨.refl s, fun j hj => ?_, fun _ j => ?_⟩
  · simp only [writesAt, serLength_toNat size] at hj
    rw [Mem.get_setMany, if_neg hj]
  · by_cases hj : 2 ≤ j ∧ j < 2 + r.ser.length <;> simp [writesAt, serLength_toNat size, hj]

theorem packBody_memory {s t : State} (h : packBody s = .ok t) : MemoryFrame .pack s t := by
  obtain ⟨m, acc, cnt, ipos, opos, -, kept, rfl⟩ := packBody_output h
  exact .of_ne (.refl s) kept fun _ _ => Own.mem_drop

theorem unpkBody_memory {s t : State} (h : unpkBody s = .ok t) : MemoryFrame .unpk s t := by
  obtain ⟨m, cur, opos, spos, bidx, kept, rfl⟩ := unpkBody_output h
  exact .of_ne (.refl s) kept fun _ _ => by simp [writesAt]

/-- DECOMP's HDEC and TDES store nothing; the rest is UNPK. -/
theorem decompBody_memory {s t : State} (h : decompBody s = .ok t) : MemoryFrame .decomp s t := by
  obtain ⟨s₁, s₂, h₁, h₂, h₃⟩ := decompBody_ok.1 h
  obtain ⟨-, -, rfl⟩ := hdecBody_ok.1 h₁
  obtain ⟨r, tpos, fs, rfl⟩ := tdesBody_frame h₂
  obtain ⟨m, cur, opos, spos, bidx, kept, rfl⟩ := unpkBody_output h₃
  exact .of_ne (.refl s) kept fun _ _ => by simp [writesAt]

/-- COMP's header and tree lie below its stream, and `DST_LEN` covers all three (R210). -/
theorem compBody_memory {s t : State} (h : compBody s = .ok t) : MemoryFrame .comp s t := by
  obtain ⟨-, s₁, s₂, s₃, s₄, s₅, s₆, s₇, h₁, h₂, h₃, h₄, h₅, h₆, h₇, rfl⟩ := compBody_ok.1 h
  obtain ⟨-, rfl⟩ := freqBody_ok.1 h₁
  obtain ⟨-, e, q, -, rfl⟩ := buildBody_ok.1 h₂
  obtain ⟨-, -, r, -, rfl⟩ := cgenBody_ok.1 h₃
  obtain ⟨-, -, rfl⟩ := padcBody_ok.1 h₄
  obtain ⟨-, r', -, size, -, rfl⟩ := tserBody_ok.1 h₅
  obtain ⟨-, -, -, rfl⟩ := hencBody_ok.1 h₆
  obtain ⟨m, acc, cnt, ipos, opos, treeBelow, kept, rfl⟩ := packBody_output h₇
  simp only [serLength_toNat size] at treeBelow kept
  refine .of_ne (.refl s) (fun j hj => ?_) fun _ j => ?_
  · simp only [writesAt] at hj
    rw [kept j (by omega), Mem.get_set_ne _ _ (by omega), Mem.get_set_ne _ _ (by omega), Mem.get_setMany,
      if_neg (by omega)]
  · by_cases hj : j ∈ s.ownBytes
    · simp only [Own.mem_drop, Own.mem_add, writesAt, serLength_toNat size, hj, or_true, true_and]
      omega
    · simp only [Own.mem_drop, Own.mem_add, writesAt, serLength_toNat size, hj, or_false, false_and, iff_false]
      omega

/-- Each body by what it can do. -/
theorem bodyOf_memory {i : Instr} (hc : i ≠ .clr) {s t : State} (h : bodyOf i s = .ok t) : MemoryFrame i s t := by
  cases i with
  | freq =>
    obtain ⟨-, rfl⟩ := freqBody_ok.1 h
    exact .of_noStore (.refl s) rfl rfl
  | build =>
    obtain ⟨-, e, q, -, rfl⟩ := buildBody_ok.1 h
    exact .of_noStore (.refl s) rfl rfl
  | tser => exact tserBody_memory h
  | tdes =>
    obtain ⟨r, tpos, fs, rfl⟩ := tdesBody_frame h
    exact .of_noStore (.refl s) rfl rfl
  | cgen =>
    obtain ⟨-, -, r, -, rfl⟩ := cgenBody_ok.1 h
    exact .of_noStore (.refl s) rfl rfl
  | padc =>
    obtain ⟨-, -, rfl⟩ := padcBody_ok.1 h
    exact .of_noStore (.refl s) rfl rfl
  | henc => exact hencBody_memory h
  | hdec =>
    obtain ⟨-, -, rfl⟩ := hdecBody_ok.1 h
    exact .of_noStore (.refl s) rfl rfl
  | pack => exact packBody_memory h
  | unpk => exact unpkBody_memory h
  | comp => exact compBody_memory h
  | decomp => exact decompBody_memory h
  | clr => exact absurd rfl hc
  | hdr pad tsize =>
    obtain ⟨-, rfl⟩ := hdrItem_ok.1 h
    exact .of_noStore (.refl s) rfl rfl
  | tEsc sym | tLeaf sym =>
    obtain ⟨-, rfl⟩ := leafOf_ok.1 h
    exact .of_noStore (.refl s) rfl rfl
  | tNode =>
    obtain ⟨-, rfl⟩ := nodeToken_ok.1 h
    exact .of_noStore (.refl s) rfl rfl
  | bLeft | bRight =>
    have out := walkStep_byteOut h
    obtain ⟨m, cur, opos, spos, bidx, rfl⟩ := (walkStep_frame h).exists
    exact .of_ne (.refl s) (fun _ hj => out.get_eq hj) (by simp [isCommand, Instr.format])

/-! ## Executed instructions -/

/-- An error and CLR keep the input too (R236, R212). -/
theorem exec_input {i : Instr} {s t : State} (h : exec i s = .next t) : InputKept s t := by
  by_cases hc : i = .clr
  · subst hc
    rcases execClr_cases h with ⟨-, rfl⟩ | ⟨-, rfl⟩ <;> exact .refl _
  · cases hi : isCommand i with
    | true =>
      rw [exec_command hi hc] at h
      rcases runCommand_cases h with ⟨-, rfl⟩ | ⟨-, -, ⟨u, hu, rfl⟩ | ⟨e, -, rfl⟩⟩
      · exact .refl _
      · exact (bodyOf_memory hc hu).input
      · exact .refl s
    | false =>
      rw [exec_item hi] at h
      rcases runItem_cases h with hu | ⟨e, -, rfl⟩
      · exact (bodyOf_memory hc hu).input
      · exact .refl s

/-- A command but CLR written to a ready machine that ends without error: its body answers. -/
theorem exec_command_ends {i : Instr} {s t : State} (hr : s.Ready) (hi : isCommand i = true) (hc : i ≠ .clr)
    (h : exec i s = .next t) (ht : t.status.err = none) : ∃ u, bodyOf i s.accept = .ok u ∧ t = u.finish := by
  obtain ⟨hj, he⟩ := hr
  rw [exec_command hi hc] at h
  rcases runCommand_cases h with ⟨hn, -⟩ | ⟨-, -, hu | ⟨e, -, rfl⟩⟩
  · exact absurd hn (by simp [hj, he])
  · exact hu
  · cases ht

/-- The two header bytes as a number (R94, R177). -/
theorem Hdr.bytes_toNat (h : Hdr) : h.hiByte.toNat * 256 + h.loByte.toNat = h.pad.toNat * 8192 + h.tsize.toNat := by
  have pad := h.pad.isLt
  have tsize := h.tsize.isLt
  have word : h.word.toNat = h.pad.toNat * 8192 + h.tsize.toNat := by
    rw [Hdr.word, BitVec.toNat_append, Nat.shiftLeft_eq, Nat.mul_comm, ← Nat.two_pow_add_eq_or_of_lt tsize]
  simp only [Hdr.hiByte, Hdr.loByte, BitVec.extractLsb'_toNat, word, Nat.shiftRight_eq_div_pow]
  omega

end Sys2Proof.Machine

namespace Sys2Proof.Proofs

open Sys2Proof Sys2Proof.Machine

/-- Settles O50, by the memory frame of each body and what an error and CLR keep. -/
theorem engineNeverWritesTheInput : Obligations.EngineNeverWritesTheInput := by
  unfold Obligations.EngineNeverWritesTheInput
  exact fun _ _ _ h => exec_input h

/-- Settles O51, by the memory frame of each body. -/
theorem obufChangesOnlyWhereWritten : Obligations.ObufChangesOnlyWhereWritten := by
  unfold Obligations.ObufChangesOnlyWhereWritten
  intro i s t hc he h ht _ j hj
  rcases exec_ends hc he h ht with rfl | ⟨u, hu, rfl⟩ | hu
  · rfl
  · exact (bodyOf_memory hc hu).obuf j hj
  · exact (bodyOf_memory hc hu).obuf j hj

/-- Settles O59: the bytes written are listed among HENC's and TSER's own, so they read as written. -/
theorem ownBytesReadAsWritten : Obligations.OwnBytesReadAsWritten := by
  unfold Obligations.OwnBytesReadAsWritten
  refine fun s t hr => ⟨fun h ht => ?_, fun r k v h ht htree hk => ?_⟩
  · obtain ⟨u, hu, rfl⟩ := exec_command_ends hr rfl (by simp) h ht
    obtain ⟨-, -, -, rfl⟩ := hencBody_ok.1 hu
    rw [obufByte_listed (j := 0) (b := s.hdr.hiByte), obufByte_listed (j := 1) (b := s.hdr.loByte)]
    · exact s.hdr.bytes_toNat
    all_goals simp [State.obufValid_iff, Mem.get_set]
  · obtain ⟨u, hu, rfl⟩ := exec_command_ends hr rfl (by simp) h ht
    obtain ⟨-, r', hr', -, -, rfl⟩ := tserBody_ok.1 hu
    obtain rfl : r = r' := by simpa [htree] using hr'
    have inside : k < r.ser.length := (List.getElem?_eq_some_iff.1 hk).1
    refine obufByte_listed ?_ ?_
    · simp [State.obufValid_iff, inside]
    · simpa [Mem.get_setMany, inside] using hk

/-- Settles O60: by the memory frame such a byte stays one of HENC's and TSER's own, and stays stored. -/
theorem ownBytesStayUntilWrittenOver : Obligations.OwnBytesStayUntilWrittenOver := by
  unfold Obligations.OwnBytesStayUntilWrittenOver
  intro i s t hr hi hc h ht
  obtain ⟨u, hu, rfl⟩ := exec_command_ends hr hi hc h ht
  have frame := bodyOf_memory hc hu
  refine ⟨frame.own hi, fun j b hown hb hj => ?_⟩
  have owned : j ∈ u.ownBytes := (frame.own hi j).2 (.inr (.inr ⟨hown, hj⟩))
  exact obufByte_listed (State.obufValid_iff.2 (.inr owned)) ((frame.obuf j hj).trans hb)

/-- Settles O9: CLR and the frame of every other command test `BUSY` first. -/
theorem busyIgnoresCommands : Obligations.BusyIgnoresCommands := by
  unfold Obligations.BusyIgnoresCommands
  intro s i hj hi
  by_cases hc : i = .clr
  · subst hc
    exact if_pos (State.busy_eq_true s |>.2 hj)
  · rw [exec_command hi hc, runCommand_busy hj]

end Sys2Proof.Proofs
end

section
/-! SUPPORT. The step where the host's next move is a read or a write, with the engine idle and with it busy. -/

namespace Sys2Proof.Machine

/-- The idle engine lets the host make its next move (R70). -/
theorem step_of_idle {s : State} {m : HostMove} {rest : List HostMove} (hj : s.job = .idle)
    (hs : s.script = m :: rest) : step s = hostMove m { s with script := rest } := by
  simp [step, machineStep, hj, hs]

/-- The busy engine takes every move but `WAIT` at once (R71). -/
theorem step_of_busy_move {s : State} {m : HostMove} {rest : List HostMove} (hj : s.job ≠ .idle)
    (hs : s.script = m :: rest) (hm : m ≠ .wait) : step s = hostMoveBusy m { s with script := rest } := by
  unfold step machineStep
  split
  · contradiction
  · cases m with
    | wait => exact absurd rfl hm
    | writeIbuf _ _ | writeObuf _ _ | writeCsr _ _ | readCsr _ | readObuf _ | readIbuf _ | reset => simp [hs]

end Sys2Proof.Machine

namespace Sys2Proof.Proofs

open Sys2Proof Sys2Proof.Machine

/-- Settles O46, write by write. -/
theorem hostWritesTakeEffect : Obligations.HostWritesTakeEffect := by
  unfold Obligations.HostWritesTakeEffect
  refine fun s rest hj => ⟨fun i v hs hi => ?_, fun v hs => ?_, fun r v hs hr => ?_, fun j v hs hi => ?_⟩ <;>
    rw [step_of_idle hj hs]
  · exact ⟨Mem.set s.ibuf i v, _, _, _, if_pos hi, rfl, fun k => ibufByte_write s i k v⟩
  · exact ⟨_, _, rfl⟩
  · rcases hr with rfl | rfl | rfl <;> rfl
  · exact if_pos hi

/-- Settles O47: each read by its arm of `hostMove`, each field of `HDR` and byte of OBUF by its test. -/
theorem hostReadsReturnTheState : Obligations.HostReadsReturnTheState := by
  unfold Obligations.HostReadsReturnTheState
  refine fun s rest hj => ⟨fun r hs => ?_, fun i hs hi => ?_, fun i hs hi => ?_, rfl, rfl, rfl, rfl, rfl, fun hs => ?_,
    fun hp => ?_, fun ht => ?_, fun j b hv hb => obufByte_listed (State.obufValid_iff.2 hv) hb⟩
  · exact step_of_idle hj hs
  · exact (step_of_idle hj hs).trans (if_pos hi)
  · exact (step_of_idle hj hs).trans (if_pos hi)
  · exact step_of_idle hj hs
  · simp [State.hdrRead, hp, apply_ite Hdr.pad]
  · simp [State.hdrRead, ht, apply_ite Hdr.tsize]

/-- Settles O48, move by move. -/
theorem busyEngineIgnoresTheHost : Obligations.BusyEngineIgnoresTheHost := by
  unfold Obligations.BusyEngineIgnoresTheHost
  refine fun s rest hj => ⟨fun r v hs => ?_, fun i v hs hi => ?_, fun hs => ?_, fun r hr hs => ?_, fun j v hs hi => ?_,
    fun i hs hi => ?_, fun i hs hi => ?_⟩ <;> rw [step_of_busy_move hj hs nofun]
  · rfl
  · exact if_pos hi
  · rfl
  · cases r with
    | status => exact absurd rfl hr
    | cmd | hdr | srcLen | dstLen => exact ⟨_, rfl⟩
  · exact if_pos hi
  · exact ⟨_, if_pos hi⟩
  · exact ⟨_, if_pos hi⟩

end Sys2Proof.Proofs
end

section
/-! SUPPORT. Decoder and encoder undo each other, format by format, and what a header word or a tree token does when it
is executed on its own. -/

namespace Sys2Proof.Machine

/-! ## The four formats -/

theorem decodeHdr_eq (b0 b1 : Byte) : decodeHdr b0 b1 = .hdr (headerOf b0 b1).pad (headerOf b0 b1).tsize := rfl

theorem encodeHdr_eq (h : Hdr) : encodeHdr h.pad h.tsize = [h.hiByte, h.loByte] := rfl

/-- `HdrDec` undoes `HdrEnc` (R177). -/
theorem headerOf_bytes (h : Hdr) : headerOf h.hiByte h.loByte = h := headerOf_unique h.bytes_toNat.symm

/-- `HdrEnc` undoes `HdrDec` (R177): two bytes are fixed by their number. -/
theorem bytes_headerOf (b0 b1 : Byte) : (headerOf b0 b1).hiByte = b0 ∧ (headerOf b0 b1).loByte = b1 := by
  have number := (headerOf b0 b1).bytes_toNat.trans (headerOf_toNat b0 b1)
  have hlo := (headerOf b0 b1).loByte.isLt
  have h1 := b1.isLt
  constructor <;> apply BitVec.eq_of_toNat_eq <;> omega

/-- A plain leaf token is any byte but the two markers (R96). -/
theorem tLeaf_wf_iff {sym : Byte} :
    Instr.wf (.tLeaf sym) = true ↔ sym ≠ Config.markEsc ∧ sym ≠ Config.markNode := by
  simp [Instr.wf, Config.markEsc, Config.markNode]

/-- A defined code is the encoding of its command; reserved codes answer no instruction (R91, R92). -/
theorem decodeCmd_ok {op : Byte} {i : Instr} (h : decodeCmd op = .ok i) :
    i.format = .cmd8 ∧ i.wf = true ∧ encode i = [op] := by
  unfold decodeCmd at h
  split at h <;> cases h <;> exact ⟨rfl, rfl, rfl⟩

/-- A token is the bytes it was read from: the escape is tested first, so a plain leaf is no marker (R96). -/
theorem decodeToken_ok {bs rest : List Byte} {i : Instr} (h : decodeToken bs = .ok (i, rest)) :
    i.format = .ttok ∧ i.wf = true ∧ bs = encode i ++ rest := by
  unfold decodeToken at h
  split at h
  · cases h
  · split at h
    · next hesc =>
      split at h
      · cases h
      · cases h
        exact ⟨rfl, rfl, by rw [hesc]; rfl⟩
    · next hesc =>
      split at h
      · next hnode =>
        cases h
        exact ⟨rfl, rfl, by rw [hnode]; rfl⟩
      · next hnode =>
        cases h
        exact ⟨rfl, tLeaf_wf_iff.2 ⟨hesc, hnode⟩, rfl⟩

/-- A code bit is the byte 0 or 1 it was read from (R98). -/
theorem decodeBit_ok {b : Byte} {i : Instr} (h : decodeBit b = .ok i) :
    i.format = .cbit ∧ i.wf = true ∧ encode i = [b] := by
  unfold decodeBit at h
  split at h
  · next h0 => cases h; exact ⟨rfl, rfl, by rw [h0]; rfl⟩
  · split at h
    · next h1 => cases h; exact ⟨rfl, rfl, by rw [h1]; rfl⟩
    · cases h

/-- A plain leaf is read back where its symbol is no marker (R96). -/
theorem decodeToken_leaf {sym : Byte} (h : Instr.wf (.tLeaf sym) = true) (rest : List Byte) :
    decodeToken (sym :: rest) = .ok (.tLeaf sym, rest) := by
  obtain ⟨hesc, hnode⟩ := tLeaf_wf_iff.1 h
  simp [decodeToken, hesc, hnode]

/-- The header word is read back from its two bytes (R94). -/
theorem decode_encodeHdr (h : Hdr) (rest : List Byte) :
    decode .hdr16 (encodeHdr h.pad h.tsize ++ rest) = .ok (.hdr h.pad h.tsize, rest) := by
  have bytes : decode .hdr16 (encodeHdr h.pad h.tsize ++ rest) = .ok (decodeHdr h.hiByte h.loByte, rest) := rfl
  rw [bytes, decodeHdr_eq, headerOf_bytes]

/-- A decoder of one byte, inside `decode`: what it answers, and the byte is consumed. -/
theorem decodeByte_ok {d : Except DecodeError Instr} {rest rest' : List Byte} {i : Instr}
    (h : d.map (fun j => (j, rest)) = .ok (i, rest')) : d = .ok i ∧ rest = rest' := by
  cases d with
  | ok j => cases h; exact ⟨rfl, rfl⟩
  | error e => cases h

/-- What any format's decoder reads is well formed, of that format, and encoded by the bytes consumed. -/
theorem decode_ok {f : Format} {bs rest : List Byte} {i : Instr} (h : decode f bs = .ok (i, rest)) :
    i.format = f ∧ i.wf = true ∧ bs = encode i ++ rest := by
  unfold decode at h
  split at h
  · next op bs =>
    obtain ⟨hd, rfl⟩ := decodeByte_ok h
    obtain ⟨hf, hwf, he⟩ := decodeCmd_ok hd
    exact ⟨hf, hwf, by rw [he]; rfl⟩
  · next b0 b1 bs =>
    cases h
    obtain ⟨h0, h1⟩ := bytes_headerOf b0 b1
    refine ⟨rfl, rfl, ?_⟩
    rw [decodeHdr_eq, encode, encodeHdr_eq, h0, h1]
    rfl
  · exact decodeToken_ok h
  · next b bs =>
    obtain ⟨hd, rfl⟩ := decodeByte_ok h
    obtain ⟨hf, hwf, he⟩ := decodeBit_ok hd
    exact ⟨hf, hwf, by rw [he]; rfl⟩
  · cases h

/-! ## One item on its own -/

/-- Where a token of `k` bytes does not fit (R148). -/
theorem tokenFits_eq_false {k : Nat} {s : State}
    (h : s.work.tstack = [] ∨ s.hdr.tsize.toNat < s.work.tpos.toNat + k) : tokenFits k s = false := by
  rw [Bool.eq_false_iff, ne_eq, tokenFits_iff]
  rintro ⟨hs, hk⟩
  rcases h with h | h
  · exact hs h
  · omega

/-- A leaf token inside the declared size closes a subtree (R145). -/
theorem runItem_leafOf_of_fits {k : Nat} {sym : Byte} {s : State} (hs : s.work.tstack ≠ [])
    (hk : s.work.tpos.toNat + k ≤ s.hdr.tsize.toNat) :
    runItem (leafOf k sym) s = .next { s with
      tree := (closeSubtree (.leaf sym) s.work.tstack).1.or s.tree
      work := { s.work with
        tpos := s.work.tpos + BitVec.ofNat 13 k, tstack := (closeSubtree (.leaf sym) s.work.tstack).2 } } :=
  runItem_ok (leafOf_ok.2 ⟨tokenFits_iff.2 ⟨hs, hk⟩, rfl⟩)

/-- Any other leaf token is malformed (R148). -/
theorem runItem_leafOf_malformed {k : Nat} {sym : Byte} {s : State}
    (h : s.work.tstack = [] ∨ s.hdr.tsize.toNat < s.work.tpos.toNat + k) :
    runItem (leafOf k sym) s = .next (s.raise .malformedTree) :=
  runItem_error (leafOf_error.2 ⟨tokenFits_eq_false h, rfl⟩)

end Sys2Proof.Machine

namespace Sys2Proof.Proofs

open Sys2Proof Sys2Proof.Machine

/-- Settles O1, format by format. -/
theorem decodeReadsBackEncode : Obligations.DecodeReadsBackEncode := by
  unfold Obligations.DecodeReadsBackEncode
  intro i rest hwf
  cases i with
  | freq | build | tser | tdes | cgen | padc | henc | hdec | pack | unpk | comp | decomp | clr => rfl
  | hdr pad tsize => exact decode_encodeHdr ⟨pad, tsize⟩ rest
  | tEsc sym | tNode => rfl
  | tLeaf sym => exact decodeToken_leaf hwf rest
  | bLeft | bRight => rfl

/-- Settles O2, by what each format's decoder can answer. -/
theorem encodeGivesBackDecodedBytes : Obligations.EncodeGivesBackDecodedBytes := by
  unfold Obligations.EncodeGivesBackDecodedBytes
  exact fun _ _ _ _ h => decode_ok h

/-- Settles O3, word by word. -/
theorem specWordsDecode : Obligations.SpecWordsDecode := by
  unfold Obligations.SpecWordsDecode
  decide

/-- Settles O23: each token by its size bound. -/
theorem treeTokensTakeEffect : Obligations.TreeTokensTakeEffect := by
  unfold Obligations.TreeTokensTakeEffect
  refine fun s sym => ⟨runItem_leafOf_of_fits, fun hs hk => ⟨runItem_leafOf_of_fits hs hk, ?_⟩,
    runItem_leafOf_malformed, fun h => ⟨runItem_leafOf_malformed h, ?_⟩⟩
  · exact runItem_ok (nodeToken_ok.2 ⟨tokenFits_iff.2 ⟨hs, hk⟩, rfl⟩)
  · exact runItem_error (nodeToken_error.2 ⟨tokenFits_eq_false h, rfl⟩)

/-- Settles O31: the fields fit the buffer, or they do not (R178). -/
theorem headerWordTakesEffect : Obligations.HeaderWordTakesEffect := by
  unfold Obligations.HeaderWordTakesEffect
  intro s pad tsize
  have consistent : hdrConsistent pad.toNat tsize.toNat s.srcLen.toNat = true ↔ 2 ≤ s.srcLen.toNat ∧
      2 + tsize.toNat ≤ s.srcLen.toNat ∧ (s.srcLen.toNat = 2 + tsize.toNat → pad = 0#3) := by
    rw [hdrConsistent_iff, ← BitVec.toNat_inj (y := 0#3)]
    rfl
  refine ⟨fun h => runItem_ok (hdrItem_ok.2 ⟨consistent.2 h, rfl⟩), fun h => ?_⟩
  exact runItem_error (hdrItem_error.2 ⟨Bool.eq_false_iff.2 fun hc => h (consistent.1 hc), rfl⟩)

end Sys2Proof.Proofs
end

section
/-! SUPPORT. UNPK reads IBUF only through its stream bits: with other bytes in IBUF that give the same stream bits it
does the same. -/

namespace Sys2Proof.Machine

/-! ## The state with other input bytes, and the operations that do not look at them -/

/-- The state with IBUF replaced by `m`. -/
def State.onIbuf (s : State) (m : List Host.Cell) : State := { s with ibuf := m }

@[simp] theorem State.onIbuf_work (s : State) (m : List Host.Cell) : (s.onIbuf m).work = s.work := rfl

/-- `f` neither reads nor changes IBUF. -/
def IgnoresIbuf (f : State → Res) : Prop :=
  ∀ (s : State) (m : List Host.Cell), f (s.onIbuf m) = (f s).map (·.onIbuf m)

/-- Two operations in a row on the state with IBUF replaced. -/
theorem bind_onIbuf {r : Res} {f g : State → Res} {m : List Host.Cell}
    (h : ∀ t, r = .ok t → f (t.onIbuf m) = (g t).map (·.onIbuf m)) :
    (r.map (·.onIbuf m) >>= f) = (r >>= g).map (·.onIbuf m) := by
  cases r with
  | ok t => exact h t rfl
  | error e => rfl

/-- `f` answers the same state, or raises the same error, with IBUF replaced. -/
theorem IgnoresIbuf.of_ok_error {f : State → Res}
    (ok : ∀ {s t} m, f s = .ok t → f (s.onIbuf m) = .ok (t.onIbuf m))
    (error : ∀ {s e} m, f s = .error e → f (s.onIbuf m) = .error e) : IgnoresIbuf f := by
  intro s m
  cases h : f s with
  | ok t => exact ok m h
  | error e => exact error m h

theorem emit_ignoresIbuf (sym : Byte) : IgnoresIbuf (emit sym) := by
  refine .of_ok_error (fun _ h => ?_) fun _ h => ?_
  · obtain ⟨room, rfl⟩ := emit_ok.1 h
    exact emit_ok.2 ⟨room, rfl⟩
  · have fails := emit_error.1 h
    exact emit_error.2 fails

theorem walkNode_ignoresIbuf (d : Bool) (r : Tree) : IgnoresIbuf (walkNode d r) := by
  intro s m
  cases hc : s.work.cur with
  | leaf sym => simp [walkNode, hc, Except.map]
  | node l r' =>
    cases hd : (if d then r' else l) with
    | leaf sym =>
      simp only [walkNode, State.onIbuf_work, hc, hd, emit_ignoresIbuf sym s m]
      exact bind_onIbuf fun _ _ => rfl
    | node l' r'' => simp only [walkNode, State.onIbuf_work, hc, hd]; rfl

theorem oneLeafStep_ignoresIbuf (d : Bool) (sym : Byte) : IgnoresIbuf (oneLeafStep d sym) := by
  cases d with
  | true => exact fun _ _ => rfl
  | false => exact emit_ignoresIbuf sym

/-- A code bit that is given does not look at IBUF again. -/
theorem walkStep_ignoresIbuf (d : Bool) : IgnoresIbuf (walkStep d) := by
  intro s m
  cases ht : s.tree with
  | none => rw [walkStep_none ht, walkStep_none (s := s.onIbuf m) ht]; rfl
  | some r =>
    cases r with
    | leaf sym =>
      rw [walkStep_leaf ht, walkStep_leaf (s := s.onIbuf m) ht, oneLeafStep_ignoresIbuf d sym s m]
      exact bind_onIbuf fun _ _ => rfl
    | node l r =>
      rw [walkStep_node ht, walkStep_node (s := s.onIbuf m) ht, walkNode_ignoresIbuf d _ s m]
      exact bind_onIbuf fun _ _ => rfl

theorem streamEntry_ignoresIbuf : IgnoresIbuf streamEntry := by
  refine .of_ok_error (fun _ h => ?_) fun _ h => ?_
  · obtain ⟨hTree, hPad, hTsz, source, header, r, hr, rfl⟩ := streamEntry_ok.1 h
    exact streamEntry_ok.2 ⟨hTree, hPad, hTsz, source, header, r, hr, rfl⟩
  · have fails := streamEntry_error.1 h
    exact streamEntry_error.2 fails

theorem streamExit_ignoresIbuf : IgnoresIbuf streamExit := by
  refine .of_ok_error (fun _ h => ?_) fun _ h => ?_
  · obtain ⟨root, rfl⟩ := streamExit_ok.1 h
    exact streamExit_ok.2 ⟨root, rfl⟩
  · have fails := streamExit_error.1 h
    exact streamExit_error.2 fails

/-! ## The walk over the stream -/

/-- Inside the stream the bit at the cursor is the one that the position counts (R196). -/
theorem streamInput_getElem? {s : State} (hi : s.InStream) (hl : s.streamPos < s.streamLen) :
    s.streamInput[s.streamPos]? = some (streamBit s) := by
  have hb := s.work.bidx.isLt
  have byte : 2 + s.hdr.tsize.toNat + s.streamPos / 8 = s.work.spos.toNat := by
    unfold State.InStream State.streamPos at *; omega
  have bit : s.streamPos % 8 = s.work.bidx.toNat := by
    unfold State.streamPos; omega
  simp [State.streamInput, streamBit, hl, byte, bit]

/-- The same stream bits give the same walk. -/
theorem readStream_onIbuf {m : List Host.Cell} (k : Nat) {s : State} (hi : s.InStream)
    (hk : s.streamPos + k = s.streamLen) (hm : (s.onIbuf m).streamInput = s.streamInput) :
    readStream k (s.onIbuf m) = (readStream k s).map (·.onIbuf m) := by
  induction k generalizing s with
  | zero => rfl
  | succ k ih =>
    have left : s.streamPos < s.streamLen := by omega
    have bit : streamBit (s.onIbuf m) = streamBit s := by
      have h := streamInput_getElem? (s := s.onIbuf m) hi left
      rw [hm] at h
      exact Option.some.inj (h.symm.trans (streamInput_getElem? hi left))
    rw [readStream, readStream, bit, walkStep_ignoresIbuf]
    refine bind_onIbuf fun t ht => ?_
    obtain ⟨hi', hp⟩ := walkStep_streamPos ht hi left
    have frame := walkStep_frame ht
    refine ih hi' (by rw [frame.streamLen]; omega) ?_
    obtain ⟨_, _, _, _, _, rfl⟩ := frame.exists
    exact hm

/-- UNPK reads IBUF only through its stream bits (R195, R196). -/
theorem unpkBody_onIbuf {m : List Host.Cell} {s : State} (hm : (s.onIbuf m).streamInput = s.streamInput) :
    unpkBody (s.onIbuf m) = (unpkBody s).map (·.onIbuf m) := by
  rw [unpkBody, unpkBody, streamEntry_ignoresIbuf]
  refine bind_onIbuf fun t ht => ?_
  obtain ⟨hi, hp⟩ := streamEntry_start ht
  have same : (t.onIbuf m).streamInput = t.streamInput := by
    obtain ⟨-, -, -, -, -, r, -, rfl⟩ := streamEntry_ok.1 ht
    exact hm
  rw [show (t.onIbuf m).streamLen = t.streamLen from rfl, readStream_onIbuf t.streamLen hi (by omega) same]
  exact bind_onIbuf fun u _ => streamExit_ignoresIbuf u m

/-- A command whose body does the same with IBUF replaced, does: the tests of its frame do not read IBUF. -/
theorem runCommand_onIbuf {body : State → Res} {m : List Host.Cell} {s t : State}
    (hb : body (s.accept.onIbuf m) = (body s.accept).map (·.onIbuf m)) (h : runCommand body s = .next t) :
    runCommand body (s.onIbuf m) = .next (t.onIbuf m) := by
  rcases runCommand_cases h with ⟨hj | he, rfl⟩ | ⟨hj, he, ends⟩
  · exact runCommand_busy hj
  · exact runCommand_err (Option.isSome_iff_ne_none.2 he)
  · rw [runCommand_ready (s := s.onIbuf m) hj he, show (s.onIbuf m).accept = s.accept.onIbuf m from rfl, hb]
    rcases ends with ⟨u, hu, rfl⟩ | ⟨e, hu, rfl⟩ <;> rw [hu] <;> rfl

/-- The last byte of IBUF replaced by one that agrees with it above the padding bits: the stream bits are the same
(R100). -/
theorem streamInput_padding {s : State} {v : Byte} (hs : 2 + s.hdr.tsize.toNat < s.srcLen.toNat)
    (hv : ∀ k, s.hdr.pad.toNat ≤ k → k < 8 → v.getLsbD k = (s.ibufByte (s.srcLen.toNat - 1)).getLsbD k) :
    (s.onIbuf (Mem.set s.ibuf (s.srcLen.toNat - 1) v)).streamInput = s.streamInput := by
  refine List.map_congr_left fun k hk => ?_
  have inside : k < 8 * (s.srcLen.toNat - 2 - s.hdr.tsize.toNat) - s.hdr.pad.toNat := by
    have h : k < s.streamLen := List.mem_range.1 hk
    rwa [State.streamLen, streamBits, if_pos (by omega)] at h
  rw [State.onIbuf, ibufByte_write]
  split
  · next last =>
    rw [last]
    simp only at last
    exact hv _ (by omega) (by omega)
  · rfl

end Sys2Proof.Machine

namespace Sys2Proof.Proofs

open Sys2Proof Sys2Proof.Machine

/-- Settles O38: UNPK reads IBUF only through its stream bits, and the padding bits are none of them. -/
theorem paddingBitsAreNotRead : Obligations.PaddingBitsAreNotRead := by
  unfold Obligations.PaddingBitsAreNotRead
  intro s t v hs hv h
  have body := unpkBody_onIbuf (s := s.accept) (streamInput_padding (s := s.accept) hs hv)
  exact runCommand_onIbuf body h

end Sys2Proof.Proofs
end

section
/-! SUPPORT. FREQ, the queue and BUILD: what FREQ's counters hold, where PQ.INSERT puts an entry, the seeded queue in
terms of the counted byte values, and what merging keeps. -/

namespace Sys2Proof.Machine

/-! ## A command on a ready machine -/

theorem runCommand_of_ok {body : State → Res} {s t : State} (hr : s.Ready) (h : body s.accept = .ok t) :
    runCommand body s = .next t.finish := by
  obtain ⟨hj, he⟩ := hr
  rw [runCommand_ready hj he, h, endWith_ok]

theorem runCommand_of_error {body : State → Res} {s : State} {e : ErrKind} (hr : s.Ready)
    (h : body s.accept = .error e) : runCommand body s = .next (s.accept.raise e) := by
  obtain ⟨hj, he⟩ := hr
  rw [runCommand_ready hj he, h, endWith_error]

/-! ## FREQ -/

/-- No counter wraps: an input has fewer than 2^32 bytes (R8, R121). -/
theorem countTable_input_toNat (s : State) (b : Byte) :
    (Table.at (countTable s.input) b).toNat = s.input.count b := by
  have bound : s.input.count b < 2 ^ 32 := by
    calc s.input.count b ≤ s.input.length := List.count_le_length
      _ = s.srcLen.toNat := input_length s
      _ < 2 ^ 32 := s.srcLen.isLt
  rw [countTable_at, BitVec.toNat_ofNat, Nat.mod_eq_of_lt bound]

/-! ## PQ.INSERT -/

theorem pqInsert_perm (e : QEntry) (q : List QEntry) : (pqInsert e q).Perm (e :: q) := by
  induction q with
  | nil => exact .refl _
  | cons x xs ih =>
    rw [pqInsert]
    split
    · exact (ih.cons x).trans (.swap e x xs)
    · exact .refl _

/-- R123, on an ascending queue: the entries whose frequency is at most `e`'s are those in front. -/
theorem pqInsert_eq_take_drop {e : QEntry} {q : List QEntry} (hq : q.Pairwise fun x y => x.freq ≤ y.freq) :
    pqInsert e q = q.take (q.countP fun x => decide (x.freq ≤ e.freq)) ++
      e :: q.drop (q.countP fun x => decide (x.freq ≤ e.freq)) := by
  induction q with
  | nil => rfl
  | cons x xs ih =>
    obtain ⟨first, rest⟩ := List.pairwise_cons.1 hq
    rw [pqInsert]
    split
    · next le => simp [le, ih rest]
    · next gt =>
      have passed : (x :: xs).countP (fun y => decide (y.freq ≤ e.freq)) = 0 := by
        rw [List.countP_eq_zero]
        intro y hy
        rcases List.mem_cons.1 hy with rfl | hy
        · simpa using gt
        · have := first y hy
          simp only [decide_eq_true_eq]
          omega
      rw [passed, List.take_zero, List.drop_zero, List.nil_append]

/-- An order `R` that refines the order of the frequencies survives PQ.INSERT, where `e` may stand behind the entries
whose frequency is at most its own. -/
theorem pairwise_pqInsert {R : QEntry → QEntry → Prop} (of_lt : ∀ {x y}, x.freq < y.freq → R x y)
    (to_le : ∀ {x y}, R x y → x.freq ≤ y.freq) {e : QEntry} {q : List QEntry} (hq : q.Pairwise R)
    (behind : ∀ x ∈ q, x.freq ≤ e.freq → R x e) : (pqInsert e q).Pairwise R := by
  induction q with
  | nil => exact List.pairwise_singleton R e
  | cons x xs ih =>
    obtain ⟨first, rest⟩ := List.pairwise_cons.1 hq
    obtain ⟨front, behind⟩ := List.forall_mem_cons.1 behind
    rw [pqInsert]
    split
    · next le =>
      refine List.pairwise_cons.2 ⟨fun y hy => ?_, ih rest behind⟩
      rcases List.mem_cons.1 ((pqInsert_perm e xs).mem_iff.1 hy) with rfl | hy
      · exact front le
      · exact first y hy
    · next gt =>
      refine List.pairwise_cons.2 ⟨fun y hy => of_lt ?_, hq⟩
      rcases List.mem_cons.1 hy with rfl | hy
      · exact Nat.lt_of_not_le gt
      · exact (Nat.lt_of_not_le gt).trans_le (to_le (first y hy))

/-! ## The counted byte values -/

/-- The byte values in ascending order. -/
def allBytes : List Byte := (List.range 256).map (BitVec.ofNat 8)

@[simp] theorem length_allBytes : allBytes.length = 256 := by simp [allBytes]

@[simp] theorem mem_allBytes (b : Byte) : b ∈ allBytes :=
  List.mem_map.2 ⟨b.toNat, List.mem_range.2 b.isLt, BitVec.ofNat_toNat 8 b⟩

theorem allBytes_sorted : allBytes.Pairwise fun a b => a.toNat < b.toNat := by
  refine List.pairwise_map.2 (List.pairwise_lt_range.imp_of_mem fun ha hb h => ?_)
  rw [List.mem_range] at ha hb
  simp only [BitVec.toNat_ofNat]
  omega

/-- A register file lists its entries in ascending byte value. -/
theorem Table.zipIdx_toList {α : Type} (t : Table α) :
    t.toList.zipIdx = allBytes.map fun b => (Table.at t b, b.toNat) := by
  refine List.ext_getElem (by simp) fun i hi _ => ?_
  have : i < 256 := by simpa using hi
  simp [allBytes, Table.at, Nat.mod_eq_of_lt this]

theorem Table.toList_eq_map {α : Type} (t : Table α) : t.toList = allBytes.map (Table.at t) := by
  rw [← List.zipIdx_map_fst 0 t.toList, Table.zipIdx_toList, List.map_map]
  rfl

/-- The byte values with a counter above 0, ascending. -/
def countedBytes (freq : Table Word) : List Byte := allBytes.filter fun b => decide (0 < (Table.at freq b).toNat)

@[simp] theorem mem_countedBytes {freq : Table Word} {b : Byte} :
    b ∈ countedBytes freq ↔ 0 < (Table.at freq b).toNat := by
  simp [countedBytes]

theorem countedBytes_sorted (freq : Table Word) : (countedBytes freq).Pairwise fun a b => a.toNat < b.toNat :=
  allBytes_sorted.filter _

theorem countedBytes_nodup (freq : Table Word) : (countedBytes freq).Nodup :=
  (countedBytes_sorted freq).imp fun h e => by simp [e] at h

/-- The counters that are 0 add nothing. -/
theorem sum_countedBytes (freq : Table Word) :
    ((countedBytes freq).map fun b => (Table.at freq b).toNat).sum = (freq.toList.map fun f => f.toNat).sum := by
  rw [Table.toList_eq_map, List.map_map, countedBytes]
  induction allBytes with
  | nil => rfl
  | cons b bs ih =>
    by_cases h : 0 < (Table.at freq b).toNat
    · simp [h, ih]
    · simp [Nat.eq_zero_of_not_pos h, ih]

/-! ## The seeded queue -/

/-- The queue entry of one byte value (R125). -/
def leafEntry (freq : Table Word) (b : Byte) : QEntry := { freq := (Table.at freq b).toNat, tree := .leaf b }

/-- The queue the leaves of `bs` make, inserted one after the other. -/
def insertLeaves (freq : Table Word) (bs : List Byte) : List QEntry :=
  bs.foldl (fun q b => pqInsert (leafEntry freq b) q) []

theorem insertLeaves_concat (freq : Table Word) (bs : List Byte) (b : Byte) :
    insertLeaves freq (bs ++ [b]) = pqInsert (leafEntry freq b) (insertLeaves freq bs) := by
  simp [insertLeaves]

/-- BUILD's seeds are the leaves of the counted byte values (R126). -/
theorem seedQueue_eq (freq : Table Word) : seedQueue freq = insertLeaves freq (countedBytes freq) := by
  rw [seedQueue, Table.zipIdx_toList, insertLeaves, countedBytes, List.foldl_map, List.foldl_filter]
  simp [leafEntry]

theorem insertLeaves_perm (freq : Table Word) (bs : List Byte) :
    (insertLeaves freq bs).Perm (bs.map (leafEntry freq)) := by
  induction bs using List.reverseRecOn with
  | nil => exact .refl _
  | append_singleton bs b ih =>
    rw [insertLeaves_concat, List.map_append]
    exact (pqInsert_perm _ _).trans ((ih.cons _).trans (List.perm_append_singleton _ _).symm)

/-- The order of R125: by frequency, leaves of equal frequency by byte value. -/
def SeedOrder (x y : QEntry) : Prop :=
  x.freq < y.freq ∨ (x.freq = y.freq ∧ ∃ a b, x.tree = .leaf a ∧ y.tree = .leaf b ∧ a.toNat < b.toNat)

/-- Leaves inserted in ascending byte value stand in the order of R125: equal frequencies keep the order in which they
came. -/
theorem insertLeaves_sorted (freq : Table Word) {bs : List Byte} (h : bs.Pairwise fun a b => a.toNat < b.toNat) :
    (insertLeaves freq bs).Pairwise SeedOrder := by
  induction bs using List.reverseRecOn with
  | nil => exact .nil
  | append_singleton bs b ih =>
    obtain ⟨before, -, last⟩ := List.pairwise_append.1 h
    rw [insertLeaves_concat]
    refine pairwise_pqInsert .inl (fun h => h.elim Nat.le_of_lt fun h => h.1.le) (ih before) fun x hx le => ?_
    obtain ⟨a, ha, rfl⟩ := List.mem_map.1 ((insertLeaves_perm freq bs).mem_iff.1 hx)
    rcases Nat.lt_or_eq_of_le le with lt | eq
    · exact .inl lt
    · exact .inr ⟨eq, a, b, rfl, rfl, last a ha b (List.mem_singleton_self b)⟩

/-- R125: the seeded queue. -/
theorem seedQueue_seeded (freq : Table Word) : SeededQueue freq (seedQueue freq) where
  entries e := by
    rw [seedQueue_eq, (insertLeaves_perm freq _).mem_iff, List.mem_map]
    simp [leafEntry, eq_comm]
  sorted := seedQueue_eq freq ▸ insertLeaves_sorted freq (countedBytes_sorted freq)

theorem seedQueue_eq_nil {freq : Table Word} : seedQueue freq = [] ↔ ∀ b, (Table.at freq b).toNat = 0 := by
  rw [← List.perm_nil, seedQueue_eq, (insertLeaves_perm freq _).congr_left, List.perm_nil, List.map_eq_nil_iff,
    List.eq_nil_iff_forall_not_mem]
  simp

/-! ## Merging -/

/-- The sum of two entries, the first on the left (R126). -/
def mergeEntry (a b : QEntry) : QEntry := { freq := a.freq + b.freq, tree := .node a.tree b.tree }

theorem mergeQueue_cons_cons (fuel : Nat) (a b : QEntry) (q : List QEntry) :
    mergeQueue (fuel + 1) (a :: b :: q) = mergeQueue fuel (pqInsert (mergeEntry a b) q) := rfl

/-- What one merge keeps, the merging keeps. -/
theorem mergeQueue_keeps {P : List QEntry → Prop}
    (merge : ∀ a b q, P (a :: b :: q) → P (pqInsert (mergeEntry a b) q)) (fuel : Nat) {q : List QEntry} (h : P q) : P (mergeQueue fuel q) := by
  induction fuel generalizing q with
  | zero => exact h
  | succ fuel ih =>
    match q with
    | [] => exact h
    | [e] => exact h
    | a :: b :: q => exact ih (merge a b q h)

/-- Each merge takes one entry away, so the fuel of R126's loop is enough. -/
theorem mergeQueue_eq_singleton (fuel : Nat) {q : List QEntry} (h₀ : q ≠ []) (hf : q.length ≤ fuel + 1) :
    ∃ e, mergeQueue fuel q = [e] := by
  induction fuel generalizing q with
  | zero => exact List.length_eq_one_iff.1 (by have := List.length_pos_iff.2 h₀; rw [mergeQueue]; omega)
  | succ fuel ih =>
    match q with
    | [] => exact absurd rfl h₀
    | [e] => exact ⟨e, rfl⟩
    | a :: b :: q =>
      have inserted := (pqInsert_perm (mergeEntry a b) q).length_eq
      simp only [List.length_cons] at inserted hf
      rw [mergeQueue_cons_cons]
      exact ih (List.length_pos_iff.1 (by omega)) (by omega)

/-- The loop of BUILD follows R126's relation. -/
theorem mergeQueue_merges {fuel : Nat} {q : List QEntry} {e : QEntry} (h : mergeQueue fuel q = [e]) :
    Merges q e.tree := by
  have keeps := mergeQueue_keeps (P := fun q' => ∀ t, Merges q' t → Merges q t)
    (fun a b q' ih t ht => ih t (.merge a b q' t ht)) fuel fun _ => id
  exact keeps e.tree (h ▸ .done e)

/-- The leaf symbols of all trees in a queue. -/
def queueLeaves (q : List QEntry) : List Byte := q.flatMap fun e => e.tree.leaves

/-- The sum of all frequencies in a queue. -/
def queueFreq (q : List QEntry) : Nat := (q.map QEntry.freq).sum

theorem queueLeaves_merge (a b : QEntry) (q : List QEntry) :
    (queueLeaves (pqInsert (mergeEntry a b) q)).Perm (queueLeaves (a :: b :: q)) := by
  refine ((pqInsert_perm _ q).flatMap_right _).trans (.of_eq ?_)
  simp [queueLeaves, mergeEntry, Tree.leaves]

theorem queueFreq_merge (a b : QEntry) (q : List QEntry) :
    queueFreq (pqInsert (mergeEntry a b) q) = queueFreq (a :: b :: q) := by
  rw [queueFreq, ((pqInsert_perm _ q).map _).sum_eq]
  simp [queueFreq, mergeEntry, Nat.add_assoc]

theorem mergeQueue_leaves (fuel : Nat) (q : List QEntry) : (queueLeaves (mergeQueue fuel q)).Perm (queueLeaves q) :=
  mergeQueue_keeps (P := fun q' => (queueLeaves q').Perm (queueLeaves q))
    (fun a b q' h => (queueLeaves_merge a b q').trans h) fuel (.refl _)

theorem mergeQueue_freq (fuel : Nat) (q : List QEntry) : queueFreq (mergeQueue fuel q) = queueFreq q :=
  mergeQueue_keeps (P := fun q' => queueFreq q' = queueFreq q)
    (fun a b q' h => (queueFreq_merge a b q').trans h) fuel rfl

theorem queueLeaves_seedQueue (freq : Table Word) : (queueLeaves (seedQueue freq)).Perm (countedBytes freq) := by
  rw [seedQueue_eq]
  refine ((insertLeaves_perm freq _).flatMap_right _).trans (.of_eq ?_)
  simp [List.flatMap_map, leafEntry, Tree.leaves]

theorem queueFreq_seedQueue (freq : Table Word) :
    queueFreq (seedQueue freq) = (freq.toList.map fun f => f.toNat).sum := by
  rw [queueFreq, seedQueue_eq, ((insertLeaves_perm freq _).map _).sum_eq, List.map_map, ← sum_countedBytes]
  rfl

/-! ## The queue BUILD ends with -/

theorem builtQueue_eq_nil {freq : Table Word} (h : ∀ b, (Table.at freq b).toNat = 0) : builtQueue freq = [] := by
  rw [builtQueue, seedQueue_eq_nil.2 h]
  rfl

theorem builtQueue_eq_singleton {freq : Table Word} (h : ∃ b, 0 < (Table.at freq b).toNat) :
    ∃ e, builtQueue freq = [e] := by
  obtain ⟨b, hb⟩ := h
  have seeded : seedQueue freq ≠ [] := fun empty => Nat.ne_of_gt hb (seedQueue_eq_nil.1 empty b)
  exact mergeQueue_eq_singleton _ seeded (Nat.le_succ _)

section

variable {freq : Table Word} {e : QEntry}

theorem builtQueue_merges (h : builtQueue freq = [e]) : Merges (seedQueue freq) e.tree := mergeQueue_merges h

/-- R129 (a): the leaves of a built tree are the counted byte values. -/
theorem builtQueue_leaves (h : builtQueue freq = [e]) : e.tree.leaves.Perm (countedBytes freq) := by
  have kept := mergeQueue_leaves (seedQueue freq).length (seedQueue freq)
  rw [show mergeQueue _ _ = [e] from h] at kept
  simpa [queueLeaves] using kept.trans (queueLeaves_seedQueue freq)

/-- R129 (c): the root's frequency is the sum of the counters. -/
theorem builtQueue_freq (h : builtQueue freq = [e]) : e.freq = (freq.toList.map fun f => f.toNat).sum := by
  have kept := mergeQueue_freq (seedQueue freq).length (seedQueue freq)
  rw [show mergeQueue _ _ = [e] from h, queueFreq_seedQueue] at kept
  simpa [queueFreq] using kept

end

/-! ## The shape of a tree -/

theorem Tree.nodes_add_one (t : Tree) : t.nodes + 1 = 2 * t.leaves.length := by
  induction t with
  | leaf sym => rfl
  | node l r ihl ihr =>
    rw [Tree.nodes, Tree.leaves, List.length_append]
    omega

theorem Tree.depth_lt_leaves (t : Tree) : t.depth < t.leaves.length := by
  induction t with
  | leaf sym => exact Nat.one_pos
  | node l r ihl ihr =>
    rw [Tree.depth, Tree.leaves, List.length_append]
    omega

/-- R9: a path visits fewer internal nodes than there are leaves, and there are at most 256 of those. -/
theorem Tree.depth_le_of_nodup {t : Tree} (h : t.leaves.Nodup) : t.depth ≤ 255 :=
  Nat.le_of_lt_succ (calc t.depth
    _ < t.leaves.length := t.depth_lt_leaves
    _ ≤ allBytes.length := (h.subperm fun b _ => mem_allBytes b).length_le
    _ = 256 := length_allBytes)

end Sys2Proof.Machine

namespace Sys2Proof.Proofs

open Sys2Proof Sys2Proof.Machine

/-- Settles O15: the counting loop gives R120's table, and no counter exceeds the length of the input. -/
theorem freqCountsTheInput : Obligations.FreqCountsTheInput := by
  unfold Obligations.FreqCountsTheInput
  intro s hr
  refine ⟨fun fits => ⟨⟨s.work, ?_⟩, countTable_input_toNat s⟩, fun tooLong => ?_⟩
  · rw [← countInto_zero]
    exact runCommand_of_ok hr (freqBody_ok.2 ⟨fits, rfl⟩)
  · exact runCommand_of_error hr (freqBody_error.2 ⟨Nat.lt_of_not_le tooLong, rfl⟩)

/-- Settles O16, by induction on the queue: in an ascending queue the entries that PQ.INSERT passes are the front. -/
theorem insertGoesBehindEqualFrequencies : Obligations.InsertGoesBehindEqualFrequencies := by
  unfold Obligations.InsertGoesBehindEqualFrequencies
  exact fun e q hq => ⟨pqInsert_eq_take_drop hq, pairwise_pqInsert Nat.le_of_lt id hq fun _ _ le => le⟩

/-- Settles O17: the seeds stand in the order of R125, and the loop, whose fuel is enough, follows R126. -/
theorem buildMergesTheSeededQueue : Obligations.BuildMergesTheSeededQueue := by
  unfold Obligations.BuildMergesTheSeededQueue
  refine fun s hr => ⟨fun hf counted => ?_, fun hf empty => ?_, fun hf => ?_⟩
  · obtain ⟨e, he⟩ := builtQueue_eq_singleton counted
    refine ⟨seedQueue s.freq, e.tree, s.work, seedQueue_seeded s.freq, builtQueue_merges he, ?_⟩
    exact runCommand_of_ok hr (buildBody_ok.2 ⟨hf, e, [], he, rfl⟩)
  · exact runCommand_of_error hr (buildBody_error.2 (.inr ⟨hf, builtQueue_eq_nil empty, rfl⟩))
  · exact runCommand_of_error hr (buildBody_error.2 (.inl ⟨hf, rfl⟩))

/-- Settles O18: merging keeps the leaf symbols and the sum of the frequencies; the rest holds of every tree with
distinct leaf symbols. -/
theorem builtTreeHasTheCountedLeaves : Obligations.BuiltTreeHasTheCountedLeaves := by
  unfold Obligations.BuiltTreeHasTheCountedLeaves
  intro freq counted
  obtain ⟨e, he⟩ := builtQueue_eq_singleton counted
  have leaves := builtQueue_leaves he
  have distinct : e.tree.leaves.Nodup := leaves.nodup_iff.2 (countedBytes_nodup freq)
  exact ⟨e, he, distinct, fun b => leaves.mem_iff.trans mem_countedBytes, e.tree.nodes_add_one, builtQueue_freq he,
    Tree.depth_le_of_nodup distinct⟩

end Sys2Proof.Proofs
end

section
/-! SUPPORT. The length of a serialized tree (R143), and TSER's errors (R141). -/

namespace Sys2Proof.Machine

/-! ## The length of a serialized tree -/

/-- R143: one byte per node and one more per leaf that needs the escape. -/
theorem ser_length (t : Tree) : t.ser.length = t.nodes + t.leaves.countP needsEscape := by
  induction t with
  | leaf sym => cases h : needsEscape sym <;> simp [Tree.ser, Tree.nodes, Tree.leaves, h]
  | node l r ihl ihr =>
    simp only [Tree.ser, Tree.nodes, Tree.leaves, List.length_cons, List.length_append, List.countP_append, ihl, ihr]
    omega

theorem ser_length_pos (t : Tree) : 0 < t.ser.length := List.length_pos_iff.2 (ser_ne_nil t)

theorem needsEscape_iff {sym : Byte} : needsEscape sym = true ↔ sym = Config.markNode ∨ sym = Config.markEsc := by
  simp [needsEscape]

/-- Only the two markers need the escape (R140). -/
theorem countP_needsEscape_le {bs : List Byte} (h : bs.Nodup) : bs.countP needsEscape ≤ 2 := by
  rw [List.countP_eq_length_filter]
  have markers : bs.filter needsEscape ⊆ [Config.markNode, Config.markEsc] := fun b hb => by
    simpa [needsEscape_iff] using (List.mem_filter.1 hb).2
  exact ((h.filter _).subperm markers).length_le

/-- R143: with distinct leaf symbols there are at most 511 nodes and two escapes. -/
theorem ser_length_le {t : Tree} (h : t.leaves.Nodup) : t.ser.length ≤ 513 := by
  have leaves : t.leaves.length ≤ 256 := calc
    _ ≤ allBytes.length := (h.subperm fun b _ => mem_allBytes b).length_le
    _ = 256 := length_allBytes
  have nodes := t.nodes_add_one
  have escapes := countP_needsEscape_le h
  rw [ser_length]
  omega

/-- R129 (a): the leaves of a built tree are distinct. -/
theorem builtTree_leaves_nodup {freq : Table Word} {t : Tree} (h : builtTree freq = some t) : t.leaves.Nodup := by
  by_cases counted : ∃ b, 0 < (Table.at freq b).toNat
  · obtain ⟨e, he⟩ := builtQueue_eq_singleton counted
    obtain rfl : e.tree = t := by simpa [builtTree, he] using h
    exact (builtQueue_leaves he).nodup_iff.2 (countedBytes_nodup freq)
  · have empty : builtQueue freq = [] := builtQueue_eq_nil fun b => by
      simpa using fun hb => counted ⟨b, hb⟩
    simp [builtTree, empty] at h

/-! ## TSER's errors -/

theorem tserBody_badSequence {s : State} (h : s.status.treeV = false) : tserBody s = .error .badSequence := by
  rw [tserBody, requireTree_error.2 ⟨.inr (.inl h), rfl⟩, res_bind_error]

/-- TSER raises what its loop raises (R141). -/
theorem tserBody_of_writeTree_error {s : State} {t : Tree} {e : ErrKind} (hv : s.status.treeV = true)
    (ht : s.tree = some t) (h : writeTree t.ser { s with work := { s.work with tpos := 0#13 } } = .error e) :
    tserBody s = .error e := by
  rw [tserBody, requireTree_ok.2 ⟨rfl, hv, ht⟩, res_bind_ok, h, res_bind_error]

end Sys2Proof.Machine

namespace Sys2Proof.Proofs

open Sys2Proof Sys2Proof.Machine

/-- Settles O19: what TSER can answer, and its loop's error where a byte has no room or the size limit is met. -/
theorem tserWritesTheSerializedTree : Obligations.TserWritesTheSerializedTree := by
  unfold Obligations.TserWritesTheSerializedTree
  refine fun s hr => ⟨fun t hv ht => ⟨fun size room => ?_, fun noRoom small => ?_, fun long room => ?_⟩,
    fun hv => ?_⟩
  · refine ⟨Mem.setMany s.obuf 2 t.ser, { s.work with tpos := BitVec.ofNat 13 t.ser.length },
      Own.add 2 t.ser.length s.ownBytes, ?_, Mem.get_setMany s.obuf 2 t.ser⟩
    exact runCommand_of_ok hr (tserBody_ok.2 ⟨hv, t, ht, size, room, rfl⟩)
  · have nonempty := ser_ne_nil t
    exact runCommand_of_error hr (tserBody_of_writeTree_error hv ht
      (writeTree_alloc _ _ small (Nat.zero_le _) noRoom (.inr ⟨Nat.zero_lt_succ _, ser_ne_nil t⟩)))
  · refine runCommand_of_error hr (tserBody_of_writeTree_error hv ht (writeTree_size _ _ room (Nat.zero_le _) ?_))
    simpa using long
  · exact runCommand_of_error hr (tserBody_badSequence hv)

/-- Settles O20: R143's count, by induction on the tree, and the bound from a built tree's distinct leaves. -/
theorem serializedLengthCounts : Obligations.SerializedLengthCounts := by
  unfold Obligations.SerializedLengthCounts
  exact ⟨ser_length, fun freq t h => ⟨ser_length_pos t, ser_length_le (builtTree_leaves_nodup h)⟩⟩

end Sys2Proof.Proofs
end

section
/-! SUPPORT. `Ser` and the recursive `Des` (R145): the tokens a deserialized tree was read from, and what each function
does with the other's answer. -/

namespace Sys2Proof.Machine

/-! ## The tokens of a tree -/

/-- An escape before a symbol that is no marker (R149). -/
def needlessEscape : Instr → Bool
  | .tEsc sym => !needsEscape sym
  | _ => false

/-- `toks` are the tokens of `t` in preorder (R145): well formed, and their bytes are `Ser(t)` but for one byte at each
needless escape (R149). -/
structure TokensOf (toks : List Instr) (t : Tree) : Prop where
  tokens : ∀ i ∈ toks, i.format = .ttok ∧ i.wf = true
  length : t.ser.length + toks.countP needlessEscape = (toks.flatMap encode).length
  bytes : (∀ sym, .tEsc sym ∈ toks → needsEscape sym = true) → t.ser = toks.flatMap encode

theorem needsEscape_eq_false {sym : Byte} (hesc : sym ≠ Config.markEsc) (hnode : sym ≠ Config.markNode) :
    needsEscape sym = false := by
  simp [needsEscape, hesc, hnode]

theorem TokensOf.esc (sym : Byte) : TokensOf [.tEsc sym] (.leaf sym) where
  tokens i hi := by
    obtain rfl := List.mem_singleton.1 hi
    exact ⟨rfl, rfl⟩
  length := by cases h : needsEscape sym <;> simp [Tree.ser, encode, needlessEscape, h]
  bytes needed := by simp [Tree.ser, encode, needed sym]

theorem TokensOf.leaf {sym : Byte} (hesc : sym ≠ Config.markEsc) (hnode : sym ≠ Config.markNode) :
    TokensOf [.tLeaf sym] (.leaf sym) where
  tokens i hi := by
    obtain rfl := List.mem_singleton.1 hi
    exact ⟨rfl, tLeaf_wf_iff.2 ⟨hesc, hnode⟩⟩
  length := by simp [Tree.ser, encode, needlessEscape, needsEscape_eq_false hesc hnode]
  bytes _ := by simp [Tree.ser, encode, needsEscape_eq_false hesc hnode]

theorem TokensOf.node {ls rs : List Instr} {l r : Tree} (hl : TokensOf ls l) (hr : TokensOf rs r) :
    TokensOf (.tNode :: (ls ++ rs)) (.node l r) where
  tokens i hi := by
    rcases List.mem_cons.1 hi with rfl | hi
    · exact ⟨rfl, rfl⟩
    · exact (List.mem_append.1 hi).elim (hl.tokens i) (hr.tokens i)
  length := by
    have left := hl.length
    have right := hr.length
    have escapes : (.tNode :: (ls ++ rs)).countP needlessEscape =
        ls.countP needlessEscape + rs.countP needlessEscape := by simp [needlessEscape]
    simp only [escapes, Tree.ser, encode, List.flatMap_cons, List.flatMap_append, List.length_cons, List.length_append,
      List.length_nil]
    omega
  bytes needed := by
    have left := hl.bytes fun sym h => needed sym (by simp [h])
    have right := hr.bytes fun sym h => needed sym (by simp [h])
    simp [Tree.ser, encode, left, right]

/-! ## `Sub()` -/

/-- What `Sub()` reads is the tokens of the tree it gives (R145, R149). -/
theorem desSub_tokens {fuel : Nat} {bytes rest : List Byte} {t : Tree} (h : desSub fuel bytes = some (t, rest)) :
    ∃ toks, TokensOf toks t ∧ bytes = toks.flatMap encode ++ rest := by
  fun_induction desSub fuel bytes generalizing t rest with
  | case1 | case2 | case3 | case5 | case6 => cases h
  | case4 fuel sym bytes =>
    cases h
    exact ⟨[.tEsc sym], .esc sym, rfl⟩
  | case7 fuel bytes l _ hl r _ hr _ ihl ihr =>
    cases h
    obtain ⟨ls, tl, rfl⟩ := ihl hl
    obtain ⟨rs, tr, rfl⟩ := ihr hr
    exact ⟨.tNode :: (ls ++ rs), tl.node tr, by simp [encode]⟩
  | case8 fuel sym bytes hesc hnode =>
    cases h
    exact ⟨[.tLeaf sym], .leaf hesc hnode, rfl⟩

theorem markNode_ne_markEsc : Config.markNode ≠ Config.markEsc := by decide

/-- `Sub()` reads a serialized tree back, whatever follows it (R149). -/
theorem desSub_ser (t : Tree) {fuel : Nat} (rest : List Byte) (h : t.ser.length ≤ fuel) :
    desSub fuel (t.ser ++ rest) = some (t, rest) := by
  induction t generalizing fuel rest with
  | leaf sym =>
    obtain ⟨fuel, rfl⟩ := Nat.exists_eq_succ_of_ne_zero (Nat.ne_of_gt ((ser_length_pos _).trans_le h))
    cases hsym : needsEscape sym with
    | true => simp [Tree.ser, hsym, desSub]
    | false =>
      have plain : sym ≠ Config.markNode ∧ sym ≠ Config.markEsc := by simpa [needsEscape] using hsym
      simp [Tree.ser, hsym, desSub, plain]
  | node l r ihl ihr =>
    obtain ⟨fuel, rfl⟩ := Nat.exists_eq_succ_of_ne_zero (Nat.ne_of_gt ((ser_length_pos _).trans_le h))
    simp only [Tree.ser, List.length_cons, List.length_append] at h
    have left := ihl (fuel := fuel) (r.ser ++ rest) (by omega)
    have right := ihr (fuel := fuel) rest (by omega)
    simp [Tree.ser, desSub, markNode_ne_markEsc, left, right]

theorem des_eq_some {bytes : List Byte} {t : Tree} : des bytes = some t ↔ desSub bytes.length bytes = some (t, []) := by
  unfold des
  split <;> simp_all

theorem des_eq_none {bytes : List Byte} :
    des bytes = none ↔ ∀ t, desSub bytes.length bytes ≠ some (t, []) := by
  simp [Option.eq_none_iff_forall_ne_some, des_eq_some]

end Sys2Proof.Machine

namespace Sys2Proof.Proofs

open Sys2Proof Sys2Proof.Machine

/-- Settles O21: `Sub()` reads back what `Ser` writes, and whatever it reads is the tokens of its tree. -/
theorem treeCodecsAreInverse : Obligations.TreeCodecsAreInverse := by
  unfold Obligations.TreeCodecsAreInverse
  refine ⟨fun t => ?_, fun bytes t h => ?_⟩
  · simpa using des_eq_some.2 (by simpa using desSub_ser t [] le_rfl)
  · obtain ⟨toks, of, rfl⟩ := desSub_tokens (des_eq_some.1 h)
    rw [List.append_nil]
    exact ⟨toks, rfl, of.tokens, of.length, of.bytes⟩

end Sys2Proof.Proofs
end

section
/-! SUPPORT. TDES, token by token, is the recursive `Des` (R145, R147): the tokens of one subtree take the engine from
the subtree's first byte to the state in which that subtree is closed. -/

namespace Sys2Proof.Machine

/-! ## The positions inside the tree bytes -/

/-- Inside TDES, the tree bytes `rest` not yet read, with `root` in `TREE` and the open places `fs`. -/
def State.treeAt (s : State) (rest : List Byte) (root : Option Tree) (fs : List Frame) : State :=
  { s with
    tree := root
    work := { s.work with tpos := BitVec.ofNat 13 (s.hdr.tsize.toNat - rest.length), tstack := fs } }

/-- Inside TDES, after the subtree `t` has filled the innermost of the open places `fs`. -/
def State.treeClosed (s : State) (rest : List Byte) (root : Option Tree) (fs : List Frame) (t : Tree) : State :=
  s.treeAt rest ((closeSubtree t fs).1.or root) (closeSubtree t fs).2

@[simp] theorem treeAt_hdr (s : State) (rest : List Byte) (root : Option Tree) (fs : List Frame) :
    (s.treeAt rest root fs).hdr = s.hdr := rfl

@[simp] theorem treeAt_ibufByte (s : State) (rest : List Byte) (root : Option Tree) (fs : List Frame) (i : Nat) :
    (s.treeAt rest root fs).ibufByte i = s.ibufByte i := rfl

@[simp] theorem treeInput_length (s : State) : s.treeInput.length = s.hdr.tsize.toNat := by simp [State.treeInput]

section

variable {s : State} {bytes rest : List Byte} {root : Option Tree} {fs : List Frame} {k n : Nat} {t : Tree}

theorem treeAt_tpos : (s.treeAt rest root fs).work.tpos.toNat = s.hdr.tsize.toNat - rest.length := by
  have := s.hdr.tsize.isLt
  simp only [State.treeAt, BitVec.toNat_ofNat]
  omega

theorem length_le_of_suffix (h : rest <:+ s.treeInput) : rest.length ≤ s.hdr.tsize.toNat := by
  simpa using h.length_le

/-- The window of the token reader is the front of the bytes not yet read (R144). -/
theorem treeBytes_treeAt (h : rest <:+ s.treeInput) : treeBytes (s.treeAt rest root fs) = rest.take 2 := by
  have size := length_le_of_suffix h
  have left : s.hdr.tsize.toNat - (s.hdr.tsize.toNat - rest.length) = rest.length := by omega
  have byte (i : Nat) (hi : i < rest.length) :
      rest[i] = s.ibufByte (2 + (s.hdr.tsize.toNat - rest.length) + i) := by
    rw [List.getElem_of_eq (List.suffix_iff_eq_drop.1 h)]
    simp [State.treeInput, Nat.add_assoc]
  apply List.ext_getElem
  · simp [treeBytes, treeAt_tpos, left]
  · intro i _ inside
    rw [List.length_take] at inside
    simp [treeBytes, treeAt_tpos, byte i (by omega)]

/-- A token of `k` declared bytes fits where a subtree is expected (R145). -/
theorem tokenFits_treeAt (hfs : fs ≠ []) (hk : bytes.length = rest.length + k)
    (size : bytes.length ≤ s.hdr.tsize.toNat) : tokenFits k (s.treeAt bytes root fs) = true := by
  refine tokenFits_iff.2 ⟨hfs, ?_⟩
  rw [treeAt_tpos, treeAt_hdr]
  omega

theorem tpos_after_token (hk : bytes.length = rest.length + k) (size : bytes.length ≤ s.hdr.tsize.toNat) :
    BitVec.ofNat 13 (s.hdr.tsize.toNat - rest.length) =
      BitVec.ofNat 13 (s.hdr.tsize.toNat - bytes.length) + BitVec.ofNat 13 k := by
  rw [← BitVec.ofNat_add, hk]
  congr 1
  omega

/-- A leaf token moves on over its bytes and closes its leaf. -/
theorem leafOf_treeAt {sym : Byte} (hfs : fs ≠ []) (hk : bytes.length = rest.length + k)
    (size : bytes.length ≤ s.hdr.tsize.toNat) :
    leafOf k sym (s.treeAt bytes root fs) = .ok (s.treeClosed rest root fs (.leaf sym)) :=
  leafOf_ok.2 ⟨tokenFits_treeAt hfs hk size, by simp only [State.treeClosed, State.treeAt, tpos_after_token hk size]⟩

/-- A node token moves on over its byte and opens a left place. -/
theorem nodeToken_treeAt (hfs : fs ≠ []) (hk : bytes.length = rest.length + 1)
    (size : bytes.length ≤ s.hdr.tsize.toNat) :
    nodeToken (s.treeAt bytes root fs) = .ok (s.treeAt rest root (.left :: fs)) :=
  nodeToken_ok.2 ⟨tokenFits_treeAt hfs hk size, by simp only [State.treeAt, tpos_after_token hk size]⟩

theorem treeToken_esc {sym : Byte} (h : (Config.markEsc :: sym :: rest) <:+ s.treeInput) (hfs : fs ≠ []) :
    treeToken (s.treeAt (Config.markEsc :: sym :: rest) root fs) = .ok (s.treeClosed rest root fs (.leaf sym)) := by
  rw [← leafOf_treeAt (k := 2) hfs rfl (length_le_of_suffix h)]
  simp [treeToken, treeBytes_treeAt h, decode, decodeToken, escToken]

theorem treeToken_node (h : (Config.markNode :: rest) <:+ s.treeInput) (hfs : fs ≠ []) :
    treeToken (s.treeAt (Config.markNode :: rest) root fs) = .ok (s.treeAt rest root (.left :: fs)) := by
  rw [← nodeToken_treeAt hfs rfl (length_le_of_suffix h)]
  simp [treeToken, treeBytes_treeAt h, decode, decodeToken, markNode_ne_markEsc]

theorem treeToken_leaf {sym : Byte} (hesc : sym ≠ Config.markEsc) (hnode : sym ≠ Config.markNode)
    (h : (sym :: rest) <:+ s.treeInput) (hfs : fs ≠ []) :
    treeToken (s.treeAt (sym :: rest) root fs) = .ok (s.treeClosed rest root fs (.leaf sym)) := by
  rw [← leafOf_treeAt hfs rfl (length_le_of_suffix h)]
  simp [treeToken, treeBytes_treeAt h, decode, decodeToken, hesc, hnode, leafToken]

/-- With no byte left there is no token (R148). -/
theorem treeToken_nil : treeToken (s.treeAt [] root fs) = .error .malformedTree :=
  treeToken_exhausted (by simp [treeAt_tpos])

/-- An escape with no symbol byte after it is malformed (R148). -/
theorem treeToken_esc_alone (h : [Config.markEsc] <:+ s.treeInput) :
    treeToken (s.treeAt [Config.markEsc] root fs) = .error .malformedTree := by
  simp [treeToken, treeBytes_treeAt h, decode, decodeToken]

/-! ## The loop -/

/-- TDES from a position inside the tree bytes to its end (R147). -/
def readToExit (n : Nat) (s : State) : Res := readTree n s >>= treeExit

theorem readToExit_of_ok {u : State} (hs : s.work.tstack ≠ []) (hn : 0 < n) (h : treeToken s = .ok u) :
    readToExit n s = readToExit (n - 1) u := by
  cases n with
  | zero => cases hn
  | succ n => simp [readToExit, readTree, hs, h]

/-- Where no token can be read the tree is malformed, however many tokens may still be read. -/
theorem readToExit_of_error (hs : s.work.tstack ≠ []) (h : treeToken s = .error .malformedTree) :
    readToExit n s = .error .malformedTree := by
  cases n with
  | zero => exact treeExit_error.2 ⟨.inl hs, rfl⟩
  | succ n => simp [readToExit, readTree, hs, h]

/-- What `Sub()` leaves is the end of what it was given (R145). -/
theorem desSub_suffix (h : desSub k bytes = some (t, rest)) : rest <:+ bytes := by
  obtain ⟨toks, -, rfl⟩ := desSub_tokens h
  exact List.suffix_append _ _

/-- Where `Sub()` reads a subtree, the loop reads the same bytes and closes the subtree. -/
theorem readToExit_of_desSub_some (h : desSub k bytes = some (t, rest)) (hs : bytes <:+ s.treeInput) (hfs : fs ≠ [])
    (hn : bytes.length ≤ n) :
    ∃ m, rest.length ≤ m ∧ readToExit n (s.treeAt bytes root fs) = readToExit m (s.treeClosed rest root fs t) := by
  fun_induction desSub k bytes generalizing n root fs t rest with
  | case1 | case2 | case3 | case5 | case6 => cases h
  | case4 k sym bytes =>
    cases h
    simp only [List.length_cons] at hn
    exact ⟨n - 1, by omega, readToExit_of_ok hfs (by omega) (treeToken_esc hs hfs)⟩
  | case7 k bytes l _ hl r _ hr _ ihl ihr =>
    cases h
    simp only [List.length_cons] at hn
    have hs' := (List.suffix_cons _ _).trans hs
    have opened := readToExit_of_ok (s := s.treeAt (Config.markNode :: bytes) root fs) (n := n) hfs (by omega)
      (treeToken_node hs hfs)
    obtain ⟨m, hm, left⟩ := ihl (n := n - 1) (fs := .left :: fs) (root := root) hl hs' (by simp) (by omega)
    obtain ⟨m', hm', right⟩ := ihr (n := m) (fs := .right l :: fs) (root := root) hr ((desSub_suffix hl).trans hs')
      (by simp) hm
    exact ⟨m', hm', opened.trans (left.trans right)⟩
  | case8 k sym bytes hesc hnode =>
    cases h
    simp only [List.length_cons] at hn
    exact ⟨n - 1, by omega, readToExit_of_ok hfs (by omega) (treeToken_leaf hesc hnode hs hfs)⟩

/-- Where `Sub()` fails, the loop meets a malformed tree (R148). -/
theorem readToExit_of_desSub_none (h : desSub k bytes = none) (hs : bytes <:+ s.treeInput) (hfs : fs ≠ [])
    (hk : bytes.length ≤ k) (hn : bytes.length ≤ n) :
    readToExit n (s.treeAt bytes root fs) = .error .malformedTree := by
  fun_induction desSub k bytes generalizing n root fs with
  | case4 | case7 | case8 => cases h
  | case1 bytes =>
    obtain rfl := List.eq_nil_of_length_eq_zero (Nat.le_zero.1 hk)
    exact readToExit_of_error hfs treeToken_nil
  | case2 k => exact readToExit_of_error hfs treeToken_nil
  | case3 k => exact readToExit_of_error hfs (treeToken_esc_alone hs)
  | case5 k bytes hl _ ihl =>
    simp only [List.length_cons] at hn hk
    rw [readToExit_of_ok hfs (by omega) (treeToken_node hs hfs)]
    exact ihl hl ((List.suffix_cons _ _).trans hs) (by simp) (by omega) (by omega)
  | case6 k bytes l _ hl hr _ ihl ihr =>
    simp only [List.length_cons] at hn hk
    have hs' := (List.suffix_cons _ _).trans hs
    have ends := desSub_suffix hl
    have shorter := ends.length_le
    obtain ⟨m, hm, left⟩ := readToExit_of_desSub_some (n := n - 1) (fs := .left :: fs) (root := root) hl hs' (by simp)
      (by omega)
    rw [readToExit_of_ok hfs (by omega) (treeToken_node hs hfs), left]
    exact ihr (fs := .right l :: fs) hr (ends.trans hs') (by simp) (by omega) hm

/-! ## TDES -/

theorem treeEntry_error {e : ErrKind} :
    treeEntry s = .error e ↔ (s.status.tszV = false ∧ e = .badSequence) ∨ (s.status.tszV = true ∧
      ((s.params.ibufCap.toNat < s.srcLen.toNat ∧ e = .allocationFailure) ∨
        (s.srcLen.toNat ≤ s.params.ibufCap.toNat ∧ s.srcLen.toNat < 2 + s.hdr.tsize.toNat ∧
          e = .malformedHeader))) := by
  by_cases h : s.srcLen.toNat < 2 + s.hdr.tsize.toNat <;>
    simp [treeEntry, res_bind_eq_error, h, eq_comm (b := e)]

/-- TDES after its tests: the loop from the first tree byte (R147). -/
def State.readFromRoot (s : State) : Res :=
  readToExit s.treeInput.length (s.treeAt s.treeInput s.tree [.root])

theorem tdesBody_eq_readFromRoot (hv : s.status.tszV = true) (fits : s.srcLen.toNat ≤ s.params.ibufCap.toNat)
    (declared : 2 + s.hdr.tsize.toNat ≤ s.srcLen.toNat) :
    tdesBody s = s.readFromRoot := by
  have entry : treeEntry s = .ok (s.treeAt s.treeInput s.tree [.root]) :=
    treeEntry_ok.2 ⟨hv, fits, declared, by simp [State.treeAt]⟩
  rw [tdesBody, entry, State.readFromRoot, treeInput_length]
  rfl

/-- At the root, the loop ends where `Sub()` does, and what is left is the exit's test (R145). -/
theorem readFromRoot_of_desSub_some (h : desSub s.treeInput.length s.treeInput = some (t, rest)) :
    s.readFromRoot = treeExit (s.treeAt rest (some t) []) := by
  obtain ⟨m, -, hm⟩ := readToExit_of_desSub_some h List.suffix_rfl (fs := [.root]) (root := s.tree) (by simp) le_rfl
  rw [State.readFromRoot, hm, readToExit, readTree_complete m rfl]
  rfl

theorem readFromRoot_of_des_some (h : des s.treeInput = some t) :
    s.readFromRoot = .ok { s.treeAt [] (some t) [] with status := s.status.afterTdes } := by
  rw [readFromRoot_of_desSub_some (des_eq_some.1 h)]
  exact treeExit_ok.2 ⟨rfl, by simp [State.treeAt], rfl⟩

/-- `Des` fails because `Sub()` does, or because bytes are left over (R148). -/
theorem readFromRoot_of_des_none (h : des s.treeInput = none) :
    s.readFromRoot = .error .malformedTree := by
  cases hsub : desSub s.treeInput.length s.treeInput with
  | none => exact readToExit_of_desSub_none hsub List.suffix_rfl (by simp) le_rfl le_rfl
  | some tr =>
    obtain ⟨t, rest⟩ := tr
    rw [readFromRoot_of_desSub_some hsub]
    refine treeExit_error.2 ⟨.inr fun whole => ?_, rfl⟩
    have read := congrArg BitVec.toNat whole
    have size := length_le_of_suffix (desSub_suffix hsub)
    rw [treeAt_tpos, treeAt_hdr] at read
    obtain rfl : rest = [] := List.eq_nil_of_length_eq_zero (by omega)
    exact des_eq_none.1 h t hsub

end

end Sys2Proof.Machine

namespace Sys2Proof.Proofs

open Sys2Proof Sys2Proof.Machine

/-- Settles O22: the loop follows `Sub()`, subtree by subtree; before it, the entry's tests. -/
theorem tdesStoresTheDeserializedTree : Obligations.TdesStoresTheDeserializedTree := by
  unfold Obligations.TdesStoresTheDeserializedTree
  intro s hr
  have refused {e : ErrKind} (h : treeEntry s.accept = .error e) : exec .tdes s = .next (s.accept.raise e) :=
    runCommand_of_error hr (by rw [tdesBody, h, res_bind_error])
  refine ⟨fun hv => ?_, fun hv tooLong => ?_, fun hv fits short => ?_, fun hv fits declared => ?_⟩
  · exact refused (treeEntry_error.2 (.inl ⟨hv, rfl⟩))
  · exact refused (treeEntry_error.2 (.inr ⟨hv, .inl ⟨Nat.lt_of_not_le tooLong, rfl⟩⟩))
  · exact refused (treeEntry_error.2 (.inr ⟨hv, .inr ⟨fits, short, rfl⟩⟩))
  · have loop := tdesBody_eq_readFromRoot (s := s.accept) hv fits declared
    refine ⟨fun bad => ?_, fun t good => ⟨(s.accept.treeAt [] (some t) []).work, ?_⟩⟩
    · exact runCommand_of_error hr (loop.trans (readFromRoot_of_des_none bad))
    · exact runCommand_of_ok hr (loop.trans (readFromRoot_of_des_some good))

end Sys2Proof.Proofs
end

section
/-! SUPPORT. The code table of a tree: the symbols and paths R160 gives the leaves, the table entry of a bit string read
back, and what CGEN's stores leave in each entry. -/

namespace Sys2Proof.Machine

/-! ## The paths of a tree -/

/-- R160: one path per leaf, left to right. -/
theorem paths_symbols (t : Tree) (p : List Bool) : (t.paths p).map Prod.fst = t.leaves := by
  induction t generalizing p with
  | leaf sym => rfl
  | node l r ihl ihr => rw [Tree.paths, List.map_append, ihl, ihr, Tree.leaves]

theorem codes_symbols (t : Tree) : t.codes.map Prod.fst = t.leaves := by
  cases t with
  | leaf sym => rfl
  | node l r => exact paths_symbols (.node l r) []

/-- Every path of a subtree goes on from the subtree's own. -/
theorem prefix_of_mem_paths {t : Tree} {p : List Bool} {x : Byte × List Bool} (h : x ∈ t.paths p) : p <+: x.2 := by
  induction t generalizing p with
  | leaf sym =>
    obtain rfl := List.mem_singleton.1 h
    exact List.prefix_rfl
  | node l r ihl ihr =>
    rcases List.mem_append.1 h with h | h
    · exact (List.prefix_append p [false]).trans (ihl h)
    · exact (List.prefix_append p [true]).trans (ihr h)

theorem length_le_of_mem_paths {t : Tree} {p : List Bool} {x : Byte × List Bool} (h : x ∈ t.paths p) :
    x.2.length ≤ p.length + t.depth := by
  induction t generalizing p with
  | leaf sym =>
    obtain rfl := List.mem_singleton.1 h
    exact Nat.le_refl _
  | node l r ihl ihr =>
    rw [Tree.depth]
    rcases List.mem_append.1 h with h | h
    · have := ihl h
      rw [List.length_append, List.length_singleton] at this
      omega
    · have := ihr h
      rw [List.length_append, List.length_singleton] at this
      omega

/-- No path goes on both to the left and to the right from one place. -/
theorem not_left_and_right {p path : List Bool} : ¬ (p ++ [false] <+: path ∧ p ++ [true] <+: path) := by
  rintro ⟨left, right⟩
  have same := (List.prefix_of_prefix_length_le left right (by simp)).eq_of_length (by simp)
  simp at same

/-- R163: two leaves part at an internal node, where one path goes left and the other right. -/
theorem paths_prefix_free {t : Tree} {p : List Bool} {x y : Byte × List Bool} (hx : x ∈ t.paths p) (hy : y ∈ t.paths p)
    (h : x.2 <+: y.2) : x = y := by
  induction t generalizing p with
  | leaf sym => exact (List.mem_singleton.1 hx).trans (List.mem_singleton.1 hy).symm
  | node l r ihl ihr =>
    rcases List.mem_append.1 hx with hx | hx <;> rcases List.mem_append.1 hy with hy | hy
    · exact ihl hx hy
    · exact absurd ⟨(prefix_of_mem_paths hx).trans h, prefix_of_mem_paths hy⟩ not_left_and_right
    · exact absurd ⟨prefix_of_mem_paths hy, (prefix_of_mem_paths hx).trans h⟩ not_left_and_right
    · exact ihr hx hy

/-- R163 for the codes, the one-leaf tree's "0" among them. -/
theorem codes_prefix_free {t : Tree} {x y : Byte × List Bool} (hx : x ∈ t.codes) (hy : y ∈ t.codes)
    (h : x.2 <+: y.2) : x = y := by
  cases t with
  | leaf sym => exact (List.mem_singleton.1 hx).trans (List.mem_singleton.1 hy).symm
  | node l r => exact paths_prefix_free hx hy h

/-- R162: also the root that is a leaf has a code bit. -/
theorem ne_nil_of_mem_codes {t : Tree} {x : Byte × List Bool} (h : x ∈ t.codes) : x.2 ≠ [] := by
  cases t with
  | leaf sym =>
    obtain rfl := List.mem_singleton.1 h
    exact List.cons_ne_nil _ _
  | node l r =>
    rcases List.mem_append.1 h with h | h <;> exact (prefix_of_mem_paths h).ne_nil (by simp)

theorem length_le_of_mem_codes {t : Tree} {x : Byte × List Bool} (h : x ∈ t.codes) : x.2.length ≤ max 1 t.depth := by
  cases t with
  | leaf sym =>
    obtain rfl := List.mem_singleton.1 h
    exact Nat.le_refl _
  | node l r =>
    have := length_le_of_mem_paths (t := .node l r) (p := []) h
    rw [List.length_nil, Nat.zero_add] at this
    exact this.trans (Nat.le_max_right 1 _)

theorem lookup_eq_none_iff_not_mem_keys {β : Type} {l : List (Byte × β)} {b : Byte} :
    l.lookup b = none ↔ b ∉ l.map Prod.fst := by
  rw [List.lookup_eq_none_iff, List.mem_map]
  refine ⟨fun differ ⟨x, hx, key⟩ => ?_, fun absent x hx => ?_⟩
  · simpa [key] using differ x hx
  · simpa using fun key => absent ⟨x, hx, key.symm⟩

theorem mem_codes_of_codeOf {t : Tree} {b : Byte} {bits : List Bool} (h : t.codeOf b = some bits) :
    (b, bits) ∈ t.codes := by
  obtain ⟨before, after, parts, -⟩ := List.lookup_eq_some_iff.1 h
  simp [parts]

theorem codeOf_eq_none_iff {t : Tree} {b : Byte} : t.codeOf b = none ↔ b ∉ t.leaves := by
  rw [← codes_symbols, Tree.codeOf, lookup_eq_none_iff_not_mem_keys]

/-! ## The table entry of a bit string -/

/-- Bit `k` of the number is the string's bit `k`, counted from the last one (R31). -/
theorem testBit_bitsToNat (bits : List Bool) (k : Nat) : (bitsToNat bits).testBit k = bits.reverse[k]?.getD false := by
  induction bits using List.reverseRecOn generalizing k with
  | nil => simp [bitsToNat]
  | append_singleton bits b ih =>
    have number : bitsToNat (bits ++ [b]) = Nat.bit b (bitsToNat bits) := by
      rw [Nat.bit_val, bitsToNat, List.foldl_append]
      rfl
    rw [number, List.reverse_concat]
    cases k with
    | zero => rw [Nat.testBit_bit_zero, List.getElem?_cons_zero, Option.getD_some]
    | succ k => rw [Nat.testBit_bit_succ, ih, List.getElem?_cons_succ]

theorem Code.ofBits_len {bits : List Bool} (h : bits.length ≤ 255) : (Code.ofBits bits).len.toNat = bits.length := by
  rw [Code.ofBits, BitVec.toNat_ofNat, Nat.mod_eq_of_lt (by omega)]

/-- A bit string that fits the entry is read back from it (R31). -/
theorem Code.ofBits_bits {bits : List Bool} (h : bits.length ≤ 255) : (Code.ofBits bits).bits = bits := by
  refine List.ext_getElem (by simp [Code.bits, Code.ofBits_len h]) fun i _ hi => ?_
  have back : bits.length - 1 - (bits.length - 1 - i) = i := by omega
  simp only [Code.bits, List.getElem_map, List.getElem_range, Code.ofBits_len h]
  rw [Code.ofBits, BitVec.getLsbD_ofNat, testBit_bitsToNat, List.getElem?_reverse (by omega), back,
    List.getElem?_eq_getElem hi, Option.getD_some, decide_eq_true (by omega), Bool.true_and]

/-! ## CGEN's stores -/

/-- Stores under distinct keys: an entry holds what its key's store left there, or what it held before. -/
theorem at_foldl_put {α β : Type} (f : β → α) {l : List (Byte × β)} (h : (l.map Prod.fst).Nodup) (c : Table α)
    (b : Byte) : Table.at (l.foldl (fun c x => Table.put c x.1 (f x.2)) c) b = ((l.lookup b).map f).getD (Table.at c b) := by
  induction l generalizing c with
  | nil => rfl
  | cons x l ih =>
    obtain ⟨k, v⟩ := x
    obtain ⟨fresh, rest⟩ := List.nodup_cons.1 h
    rw [List.foldl_cons, ih rest, Table.at_put]
    by_cases hb : b = k
    · subst hb
      simp [lookup_eq_none_iff_not_mem_keys.2 fresh]
    · rw [if_neg hb, List.lookup_cons, beq_false_of_ne hb]

/-- R161: the entry of a byte is the code of its leaf, or "no code". -/
theorem codeTable_at {t : Tree} (h : t.leaves.Nodup) (b : Byte) :
    Table.at (codeTable t) b = ((t.codeOf b).map Code.ofBits).getD Code.none := by
  rw [codeTable, at_foldl_put Code.ofBits (by rwa [codes_symbols]), Table.at_replicate]
  rfl

/-- R161, the entry by its bits and its `len`. -/
theorem codeTable_entry {t : Tree} (distinct : t.leaves.Nodup) (depth : t.depth ≤ 255) (b : Byte) :
    (Table.at (codeTable t) b).bits = (t.codeOf b).getD [] ∧
      ((Table.at (codeTable t) b).len = 0#8 ↔ b ∉ t.leaves) := by
  rw [codeTable_at distinct, ← codeOf_eq_none_iff]
  cases hc : t.codeOf b with
  | none => exact ⟨rfl, iff_of_true rfl rfl⟩
  | some bits =>
    have leaf := mem_codes_of_codeOf hc
    have fits : bits.length ≤ 255 := (length_le_of_mem_codes leaf).trans (Nat.max_le.2 ⟨by decide, depth⟩)
    refine ⟨Code.ofBits_bits fits, iff_of_false (fun len => ?_) nofun⟩
    have : bits.length = 0 := by rw [← Code.ofBits_len fits]; exact congrArg BitVec.toNat len
    exact ne_nil_of_mem_codes leaf (List.eq_nil_of_length_eq_zero this)

end Sys2Proof.Machine

namespace Sys2Proof.Proofs

open Sys2Proof Sys2Proof.Machine

/-- Settles O24: the table's stores have distinct keys, the leaf symbols, and every path fits an entry. -/
theorem cgenGivesEachLeafItsPath : Obligations.CgenGivesEachLeafItsPath := by
  unfold Obligations.CgenGivesEachLeafItsPath
  intro s hr
  refine ⟨fun t hv hb ht distinct depth => ?_, fun refused => ?_⟩
  · refine ⟨codeTable t, { s.work with path := [], tstack := [] }, ?_, codeTable_entry distinct depth⟩
    exact runCommand_of_ok hr (cgenBody_ok.2 ⟨hb, hv, t, ht, rfl⟩)
  · exact runCommand_of_error hr (cgenBody_error.2 ⟨refused.elim (.inr ∘ .inl) .inl, rfl⟩)

/-- Settles O25: two leaves' paths part at an internal node; the symbols need not be distinct. -/
theorem noCodeIsAnothersBeginning : Obligations.NoCodeIsAnothersBeginning := by
  unfold Obligations.NoCodeIsAnothersBeginning
  exact fun _ _ _ hx _ hy h => codes_prefix_free hx hy h

end Sys2Proof.Proofs
end

section
/-! SUPPORT. The sums of R164 over the byte values, the padding they give (R165), and the bits PACK has put out at each
point of its run. -/

namespace Sys2Proof.Machine

/-! ## The sums of R164 -/

/-- A sum over the byte values as a sum over their numbers. -/
theorem sum_allBytes (f : Byte → Nat) : (allBytes.map f).sum = ∑ b : Fin 256, f (BitVec.ofFin b) := by
  have numbers : allBytes = List.ofFn fun b : Fin 256 => (BitVec.ofFin b : Byte) := by
    refine List.ext_getElem (by rw [length_allBytes, List.length_ofFn]) fun i hi _ => BitVec.eq_of_toNat_eq ?_
    rw [length_allBytes] at hi
    rw [List.getElem_ofFn, BitVec.toNat_ofFin]
    simp only [allBytes, List.getElem_map, List.getElem_range]
    exact Nat.mod_eq_of_lt hi
  rw [numbers, List.map_ofFn, List.sum_ofFn]
  rfl

theorem originalBits_eq (freq : Table Word) : originalBits freq = ∑ b : Fin 256, (freq[b]).toNat * 8 := by
  rw [originalBits, Table.toList_eq_map, List.map_map, sum_allBytes]
  rfl

theorem encodedBits_eq_sum_map (freq : Table Word) (code : Table Code) : encodedBits freq code =
    (allBytes.map fun b => (Table.at freq b).toNat * (Table.at code b).len.toNat).sum := by
  rw [encodedBits, Table.toList_eq_map, Table.toList_eq_map, List.zip_map', List.map_map]
  rfl

theorem encodedBits_eq (freq : Table Word) (code : Table Code) :
    encodedBits freq code = ∑ b : Fin 256, (freq[b]).toNat * (code[b]).len.toNat := by
  rw [encodedBits_eq_sum_map, sum_allBytes]
  rfl

/-- Over the counts of a sequence the sum runs over the sequence itself. -/
theorem sum_count_mul (bytes : List Byte) (f : Byte → Nat) :
    (allBytes.map fun b => bytes.count b * f b).sum = (bytes.map f).sum := by
  have once : allBytes.Nodup := allBytes_sorted.imp fun h e => by simp [e] at h
  rw [Finset.sum_list_map_count bytes, ← List.sum_toFinset _ once]
  symm
  refine Finset.sum_subset (fun b _ => by simp) fun b _ absent => ?_
  rw [List.mem_toFinset] at absent
  simp [List.count_eq_zero.2 absent]

@[simp] theorem Code.length_bits (c : Code) : c.bits.length = c.len.toNat := by simp [Code.bits]

/-- Over the counts of the input, R164's sum is the number of code bits PACK puts out. -/
theorem encodedBits_countTable (s : State) (code : Table Code) :
    encodedBits (countTable s.input) code = (bitsOf code s.input).length := by
  simp only [encodedBits_eq_sum_map, countTable_input_toNat, sum_count_mul, bitsOf, List.length_flatMap,
    Code.length_bits]

/-! ## The padding -/

/-- R165: `Pad` is the Euclidean remainder itself; 3 bits hold it. -/
theorem padOf_toNat (freq : Table Word) (code : Table Code) :
    ((padOf freq code).toNat : Int) = ((originalBits freq : Int) - (encodedBits freq code : Int)) % 8 := by
  rw [padOf, BitVec.toNat_ofNat]
  omega

/-- The original bits are whole bytes. -/
theorem eight_dvd_originalBits (freq : Table Word) : 8 ∣ originalBits freq := by
  rw [originalBits_eq, ← Finset.sum_mul]
  exact Nat.dvd_mul_left 8 _

theorem padOf_eq (freq : Table Word) (code : Table Code) :
    (padOf freq code).toNat = (8 - encodedBits freq code % 8) % 8 := by
  have pad := padOf_toNat freq code
  have whole := eight_dvd_originalBits freq
  omega

/-! ## The bits PACK puts out -/

/-- The bits of the output before the packer's place in it: those of the bytes below `OPOS`, and those in `ACC` (R21). -/
def State.bitsOut (s : State) : Nat := 8 * s.work.opos.toNat + s.work.cnt.toNat

theorem packBit_bitsOut {d : Bool} {s t : State} (h : packBit d s = .ok t) : t.bitsOut = s.bitsOut + 1 := by
  rcases packBit_ok.1 h with ⟨notFull, rfl⟩ | ⟨full, room, rfl⟩
  · have next : (s.work.cnt + 1#3).toNat = s.work.cnt.toNat + 1 := by bv_omega
    simp only [State.bitsOut, next]
    omega
  · have : s.work.cnt.toNat = 7 := by rw [full]; rfl
    simp only [State.bitsOut, opos_step room, BitVec.toNat_zero]
    omega

theorem packBits_bitsOut {ds : List Bool} {s t : State} (h : packBits ds s = .ok t) :
    t.bitsOut = s.bitsOut + ds.length := by
  induction ds generalizing s with
  | nil =>
    cases h
    rfl
  | cons d ds ih =>
    obtain ⟨u, hu, h⟩ := res_bind_eq_ok.1 h
    rw [ih h, packBit_bitsOut hu, List.length_cons]
    omega

theorem PackFrame.code {s t : State} (h : PackFrame s t) : t.code = s.code := by rw [h.rest]

/-- The loop of R187 puts out the code bits of its input. -/
theorem packInput_bitsOut {bs : List Byte} {s t : State} (h : packInput bs s = .ok t) :
    t.bitsOut = s.bitsOut + (bitsOf s.code bs).length := by
  induction bs generalizing s with
  | nil =>
    cases h
    rfl
  | cons b bs ih =>
    obtain ⟨v, hv, h⟩ := res_bind_eq_ok.1 h
    obtain ⟨-, u, hu, rfl⟩ := packByte_ok.1 hv
    have rest := ih h
    have code := (packBits_frame hu).code
    have first := packBits_bitsOut hu
    simp only [State.bitsOut, code, bitsOf, List.flatMap_cons, List.length_append] at rest first ⊢
    omega

/-- The last flush rounds the output up to whole bytes and keeps `CNT` (R187; log entry 16). -/
theorem packFlush_bitsOut {s t : State} (h : packFlush s = .ok t) :
    t.work.cnt.toNat = s.bitsOut % 8 ∧ t.work.opos.toNat = (s.bitsOut + 7) / 8 := by
  have bound := s.work.cnt.isLt
  rcases packFlush_ok.1 h with ⟨empty, ht⟩ | ⟨partly, room, rfl⟩
  · have : s.work.cnt.toNat = 0 := by rw [empty]; rfl
    simp only [State.bitsOut, ht]
    omega
  · have : s.work.cnt.toNat ≠ 0 := fun h => partly (BitVec.eq_of_toNat_eq h)
    simp only [State.bitsOut, opos_step room]
    omega

/-- R187: PACK's bit count and stream end, from the number of code bits of the input. -/
theorem packBody_bitsOut {s t : State} (h : packBody s = .ok t) :
    t.work.cnt.toNat = (bitsOf s.code s.input).length % 8 ∧
      t.dstLen.toNat = 2 + s.hdr.tsize.toNat + ((bitsOf s.code s.input).length + 7) / 8 := by
  obtain ⟨-, -, -, u, v, hu, hv, rfl⟩ := packBody_ok.1 h
  have loop : u.bitsOut = 8 * (2 + s.hdr.tsize.toNat) + (bitsOf s.code s.input).length := by
    rw [packInput_bitsOut hu, State.bitsOut, packStart, streamStart_toNat]
    rfl
  obtain ⟨cnt, opos⟩ := packFlush_bitsOut hv
  rw [cnt, opos, loop]
  omega

end Sys2Proof.Machine

namespace Sys2Proof.Proofs

open Sys2Proof Sys2Proof.Machine

/-- Settles O27: the original bits are whole bytes. -/
theorem paddingCompletesTheLastByte : Obligations.PaddingCompletesTheLastByte := by
  unfold Obligations.PaddingCompletesTheLastByte
  exact padOf_eq

/-- Settles O26: R164's sums run over the 256 entries, and 3 bits hold the remainder. -/
theorem padcComputesThePadding : Obligations.PadcComputesThePadding := by
  unfold Obligations.PadcComputesThePadding
  intro s hr
  refine ⟨fun hf hc => ⟨padOf s.freq s.code, s.work, ?_, ?_⟩, fun refused => ?_⟩
  · exact runCommand_of_ok hr (padcBody_ok.2 ⟨hf, hc, rfl⟩)
  · rw [padOf_toNat, originalBits_eq, encodedBits_eq]
  · refine runCommand_of_error hr (padcBody_error.2 ⟨fun hf => ?_, rfl⟩)
    exact refused.resolve_left (by simpa using hf)

/-- Settles O28: over the counts of the input R164's sum is the number of bits PACK puts out, whose remainder mod 8 is
left in `CNT`. -/
theorem packerAgreesWithTheCalculator : Obligations.PackerAgreesWithTheCalculator := by
  unfold Obligations.PackerAgreesWithTheCalculator
  intro s t hr h ht counts
  obtain ⟨u, hu, rfl⟩ := exec_command_ends hr rfl (by simp) h ht
  obtain ⟨cnt, dstLen⟩ := packBody_bitsOut hu
  have enc : encodedBits s.freq s.code = (bitsOf s.code s.input).length := by rw [counts, encodedBits_countTable]
  have pad := padOf_eq s.freq s.code
  simp only [State.finish_work, State.finish_dstLen]
  simp only [State.accept_code, input_accept, State.accept_hdr] at cnt dstLen
  omega

end Sys2Proof.Proofs
end

section
/-! SUPPORT. HENC, HDEC and the header codec (R94, R176 to R179): a header's own bytes decoded, and its consistency in
terms of its fields. -/

namespace Sys2Proof.Machine

/-- A header's own two bytes decode to its fields (R177). -/
theorem decodeHdr_bytes (h : Hdr) : decodeHdr h.hiByte h.loByte = .hdr h.pad h.tsize := by
  rw [decodeHdr_eq, headerOf_bytes]

/-- What header consistency (R178) says of the two fields of a header word. -/
theorem hdrConsistent_fields_iff {pad : BitVec 3} {tsize : BitVec 13} {n : Nat} :
    hdrConsistent pad.toNat tsize.toNat n = true ↔
      2 ≤ n ∧ 2 + tsize.toNat ≤ n ∧ (n = 2 + tsize.toNat → pad = 0#3) := by
  rw [hdrConsistent_iff, ← BitVec.toNat_inj (y := 0#3)]
  rfl

end Sys2Proof.Machine

namespace Sys2Proof.Proofs

open Sys2Proof Sys2Proof.Machine

/-- Settles O4: two bytes and the two fields are each fixed by their number. -/
theorem headerCodecsAreInverse : Obligations.HeaderCodecsAreInverse := by
  unfold Obligations.HeaderCodecsAreInverse
  constructor
  · rintro pad tsize b0 b1 ⟨⟩
    exact decodeHdr_bytes ⟨pad, tsize⟩
  · intro b0 b1
    obtain ⟨hi, lo⟩ := bytes_headerOf b0 b1
    refine ⟨(headerOf b0 b1).pad, (headerOf b0 b1).tsize, decodeHdr_eq b0 b1, ?_, headerOf_toNat b0 b1⟩
    rw [encodeHdr_eq, hi, lo]

/-- Settles O29, by what HENC's body can do; its two stores read back as the big-endian header. -/
theorem hencStoresTheHeader : Obligations.HencStoresTheHeader := by
  unfold Obligations.HencStoresTheHeader
  intro s hr
  refine ⟨fun hp ht room => ?_, fun hp ht noRoom => ?_, fun refused => ?_⟩
  · refine ⟨Mem.set (Mem.set s.obuf 0 s.hdr.hiByte) 1 s.hdr.loByte, s.hdr.hiByte, s.hdr.loByte, s.work,
      Own.add 0 2 s.ownBytes, ?_, fun j => ?_, s.hdr.bytes_toNat⟩
    · exact runCommand_of_ok hr (hencBody_ok.2 ⟨hp, ht, room, rfl⟩)
    · rw [Mem.get_set, Mem.get_set]
      by_cases first : j = 0 <;> simp [first]
  · exact runCommand_of_error hr (hencBody_error.2 (.inr ⟨hp, ht, noRoom, rfl⟩))
  · refine runCommand_of_error hr (hencBody_error.2 (.inl ⟨fun hp => ?_, rfl⟩))
    exact refused.resolve_left (by simpa using hp)

/-- Settles O30: the number of the two bytes fixes the fields HDEC reads, and they fit the buffer or they do not. -/
theorem hdecTakesTheHeader : Obligations.HdecTakesTheHeader := by
  unfold Obligations.HdecTakesTheHeader
  intro s pad tsize hr number
  have fields : headerOf (s.accept.ibufByte 0) (s.accept.ibufByte 1) = { pad := pad, tsize := tsize } :=
    headerOf_unique number
  refine ⟨fun tooLong => ?_, fun fits consistent => ⟨s.work, ?_⟩, fun fits inconsistent => ?_⟩
  · exact runCommand_of_error hr (hdecBody_error.2 (.inl ⟨Nat.lt_of_not_le tooLong, rfl⟩))
  · refine runCommand_of_ok hr (hdecBody_ok.2 ⟨fits, ?_, by rw [fields]⟩)
    rw [fields]
    exact hdrConsistent_fields_iff.2 consistent
  · refine runCommand_of_error hr (hdecBody_error.2 (.inr ⟨fits, ?_, rfl⟩))
    rw [fields]
    exact Bool.eq_false_iff.2 fun h => inconsistent (hdrConsistent_fields_iff.1 h)

end Sys2Proof.Proofs
end

section
/-! SUPPORT. The packer: bit strings as numbers and as bytes, PACK.BIT's loop and PACK.CODE both as one function
of the bits (R186, R188), and PACK's loop over the input as that function of its code bits (R187). -/

namespace Sys2Proof.Machine

/-! ## Bit strings as numbers -/

theorem bitsToNat_append (xs ys : List Bool) :
    bitsToNat (xs ++ ys) = bitsToNat xs * 2 ^ ys.length + bitsToNat ys := by
  induction ys using List.reverseRecOn with
  | nil => simp [bitsToNat]
  | append_singleton ys d ih =>
    have snoc (zs : List Bool) : bitsToNat (zs ++ [d]) = 2 * bitsToNat zs + d.toNat := by
      rw [bitsToNat, List.foldl_append]
      rfl
    rw [← List.append_assoc, snoc, snoc, ih, List.length_append, List.length_singleton, Nat.pow_succ]
    ring

theorem bitsToNat_lt (bits : List Bool) : bitsToNat bits < 2 ^ bits.length := by
  refine Nat.lt_pow_two_of_testBit _ fun k hk => ?_
  rw [testBit_bitsToNat, List.getElem?_eq_none (by simpa using hk), Option.getD_none]

/-- A pattern with no bit beyond its length is the number of its code bits (R31). -/
theorem Code.bitsToNat_bits {c : Code} (h : c.pat.toNat < 2 ^ c.len.toNat) : bitsToNat c.bits = c.pat.toNat := by
  refine Nat.eq_of_testBit_eq fun k => ?_
  rw [testBit_bitsToNat]
  by_cases inside : k < c.len.toNat
  · have back : c.len.toNat - 1 - (c.len.toNat - 1 - k) = k := by omega
    rw [List.getElem?_reverse (by simpa using inside), Code.length_bits]
    simp [Code.bits, show c.len.toNat - 1 - k < c.len.toNat by omega, back, BitVec.testBit_toNat]
  · rw [List.getElem?_eq_none (by simpa using inside), Option.getD_none,
      Nat.testBit_lt_two_pow (h.trans_le (Nat.pow_le_pow_right (by decide) (by omega)))]

/-! ## Bit strings as bytes -/

/-- The byte of the first eight bits, 0 past the end (R185). -/
def firstByte (bits : List Bool) : Byte := byteOf fun j => bits.getD j false

theorem getLsbD_firstByte {bits : List Bool} {k : Nat} (hk : k < 8) :
    (firstByte bits).getLsbD k = bits.getD (7 - k) false := by
  rw [firstByte, byteOf, BitVec.getLsbD_ofNat, testBit_bitsToNat, List.getElem?_reverse (by simpa using hk)]
  simp [hk, show 7 - k < 8 by omega]

theorem firstByte_nil : firstByte [] = 0#8 := by decide

theorem firstByte_append {xs : List Bool} (h : xs.length = 8) (ys : List Bool) :
    firstByte (xs ++ ys) = firstByte xs := by
  refine BitVec.eq_of_getLsbD_eq fun k hk => ?_
  rw [getLsbD_firstByte hk, getLsbD_firstByte hk, List.getD_append _ _ _ _ (by omega)]

/-- The byte of at most eight bits as a number: they stand at the top. -/
theorem firstByte_toNat {bits : List Bool} (h : bits.length ≤ 8) :
    (firstByte bits).toNat = bitsToNat bits * 2 ^ (8 - bits.length) := by
  refine Nat.eq_of_testBit_eq fun k => ?_
  rw [BitVec.testBit_toNat, Nat.testBit_mul_two_pow, testBit_bitsToNat]
  by_cases hk : k < 8
  · rw [getLsbD_firstByte hk]
    by_cases placed : 8 - bits.length ≤ k
    · rw [List.getElem?_reverse (by omega), decide_eq_true placed, Bool.true_and, List.getD_eq_getElem?_getD,
        show bits.length - 1 - (k - (8 - bits.length)) = 7 - k by omega]
    · rw [decide_eq_false placed, Bool.false_and, List.getD_eq_default _ _ (by omega)]
  · rw [BitVec.getLsbD_of_ge _ _ (by omega), List.getElem?_eq_none (by simp; omega), Option.getD_none, Bool.and_false]

theorem ofNat_bitsToNat {xs : List Bool} (h : xs.length = 8) : BitVec.ofNat 8 (bitsToNat xs) = firstByte xs := by
  have number := firstByte_toNat h.le
  rw [h, Nat.sub_self, Nat.pow_zero, Nat.mul_one] at number
  rw [← number, BitVec.ofNat_toNat, BitVec.setWidth_eq]

/-- The bytes that the bits fill. -/
def wholeBytes (bits : List Bool) : List Byte :=
  (List.range (bits.length / 8)).map fun k => firstByte (bits.drop (8 * k))

/-- The bits after the whole bytes. -/
def restBits (bits : List Bool) : List Bool := bits.drop (8 * (bits.length / 8))

@[simp] theorem length_wholeBytes (bits : List Bool) : (wholeBytes bits).length = bits.length / 8 := by
  simp [wholeBytes]

@[simp] theorem length_packBytes (bits : List Bool) : (packBytes bits).length = (bits.length + 7) / 8 := by
  simp [packBytes]

theorem wholeBytes_eq_nil {bits : List Bool} (h : bits.length < 8) : wholeBytes bits = [] := by
  rw [← List.length_eq_zero_iff, length_wholeBytes, Nat.div_eq_of_lt h]

theorem restBits_eq_self {bits : List Bool} (h : bits.length < 8) : restBits bits = bits := by
  rw [restBits, Nat.div_eq_of_lt h, Nat.mul_zero, List.drop_zero]

theorem length_div_append {xs : List Bool} (h : xs.length = 8) (ys : List Bool) :
    (xs ++ ys).length / 8 = ys.length / 8 + 1 := by
  rw [List.length_append]
  omega

theorem wholeBytes_append {xs : List Bool} (h : xs.length = 8) (ys : List Bool) :
    wholeBytes (xs ++ ys) = firstByte xs :: wholeBytes ys := by
  rw [wholeBytes, length_div_append h, List.range_succ_eq_map, List.map_cons, List.map_map, Nat.mul_zero,
    List.drop_zero, firstByte_append h]
  congr 1
  refine List.map_congr_left fun k _ => ?_
  rw [Function.comp_apply, Nat.mul_succ, Nat.add_comm, ← h, List.drop_length_add_append]

theorem restBits_append {xs : List Bool} (h : xs.length = 8) (ys : List Bool) :
    restBits (xs ++ ys) = restBits ys := by
  rw [restBits, length_div_append h, Nat.mul_succ, Nat.add_comm, ← h, List.drop_length_add_append, h, restBits]

/-- `PackBits` (R185) byte by byte. -/
theorem packBytes_eq (bits : List Bool) :
    packBytes bits = (List.range ((bits.length + 7) / 8)).map fun k => firstByte (bits.drop (8 * k)) := by
  simp [packBytes, firstByte]

/-- R185: the whole bytes, and where bits are left the byte they begin. -/
theorem packBytes_eq_wholeBytes (bits : List Bool) :
    packBytes bits = wholeBytes bits ++ if bits.length % 8 = 0 then [] else [firstByte (restBits bits)] := by
  rw [packBytes_eq]
  split
  · rw [show (bits.length + 7) / 8 = bits.length / 8 by omega, List.append_nil, wholeBytes]
  · rw [show (bits.length + 7) / 8 = bits.length / 8 + 1 by omega, List.range_succ, List.map_append]
    rfl

/-! ## The packer's registers -/

/-- `ACC` holds the `CNT` bits `p` from the top, and 0 below them (R186). -/
structure State.Holds (s : State) (p : List Bool) : Prop where
  cnt : s.work.cnt.toNat = p.length
  acc : s.work.acc = firstByte p

/-- R186's invariant in these terms. -/
theorem State.exists_holds {s : State} (free : ∀ k, k < 8 - s.work.cnt.toNat → s.work.acc.getLsbD k = false) :
    ∃ p, s.Holds p := by
  refine ⟨(List.range s.work.cnt.toNat).map fun j => s.work.acc.getLsbD (7 - j), by simp, ?_⟩
  refine BitVec.eq_of_getLsbD_eq fun k hk => ?_
  rw [getLsbD_firstByte hk]
  by_cases placed : 7 - k < s.work.cnt.toNat
  · simp [placed, show 7 - (7 - k) = k by omega]
  · simp [placed, free k (by omega)]

theorem getLsbD_placeBit (acc : Byte) (cnt : BitVec 3) (d : Bool) {k : Nat} (hk : k < 8) :
    (placeBit acc cnt d).getLsbD k = if k = 7 - cnt.toNat then d else acc.getLsbD k := by
  have mask : 0x80#8 >>> cnt.toNat = BitVec.twoPow 8 (7 - cnt.toNat) := by
    revert cnt
    decide
  rw [placeBit, mask]
  by_cases here : k = 7 - cnt.toNat
  · subst here
    cases d <;> simp [hk]
  · cases d <;> simp [hk, here]

theorem State.Holds.length_lt {s : State} {p : List Bool} (h : s.Holds p) : p.length < 8 := h.cnt ▸ s.work.cnt.isLt

/-- The next bit is placed behind those held (R186). -/
theorem State.Holds.placeBit {s : State} {p : List Bool} (h : s.Holds p) (d : Bool) :
    placeBit s.work.acc s.work.cnt d = firstByte (p ++ [d]) := by
  have := h.length_lt
  refine BitVec.eq_of_getLsbD_eq fun k hk => ?_
  rw [getLsbD_placeBit _ _ _ hk, getLsbD_firstByte hk, h.cnt, h.acc, getLsbD_firstByte hk]
  split
  · simp [show 7 - k = p.length by omega]
  · by_cases placed : 7 - k < p.length
    · rw [List.getD_append _ _ _ _ placed]
    · rw [List.getD_eq_default _ _ (by omega), List.getD_eq_default _ _ (by simp; omega)]

/-- The state with the whole bytes of `bits` written from `OPOS` on and the other bits in `ACC`. -/
def State.packed (s : State) (bits : List Bool) : State :=
  { s with
    obuf := Mem.setMany s.obuf s.work.opos.toNat (wholeBytes bits)
    work := { s.work with
      acc := firstByte (restBits bits)
      cnt := BitVec.ofNat 3 bits.length
      opos := s.work.opos + BitVec.ofNat 32 (bits.length / 8) } }

/-- What the packer does with `bits`, those already in `ACC` first: it needs a place for every whole byte. -/
def packAll (bits : List Bool) (s : State) : Res :=
  if bits.length < 8 ∨ s.work.opos.toNat + bits.length / 8 ≤ s.params.obufCap.toNat then .ok (s.packed bits)
  else .error .allocationFailure

theorem packAll_of_room {bits : List Bool} {s : State}
    (room : bits.length < 8 ∨ s.work.opos.toNat + bits.length / 8 ≤ s.params.obufCap.toNat) :
    packAll bits s = .ok (s.packed bits) := if_pos room

theorem packAll_of_noRoom {bits : List Bool} {s : State} (long : 8 ≤ bits.length)
    (noRoom : s.params.obufCap.toNat < s.work.opos.toNat + bits.length / 8) :
    packAll bits s = .error .allocationFailure :=
  if_neg (not_or.2 ⟨Nat.not_lt.2 long, Nat.not_le.2 noRoom⟩)

/-- The output index moved one on (R186, R188). -/
def State.bumpOpos (s : State) : State := { s with work := { s.work with opos := s.work.opos + 1#32 } }

theorem packAll_of_lt {bits : List Bool} (h : bits.length < 8) (s : State) : packAll bits s = .ok { s with
    work := { s.work with acc := firstByte bits, cnt := BitVec.ofNat 3 bits.length } } := by
  rw [packAll_of_room (.inl h), State.packed, wholeBytes_eq_nil h, restBits_eq_self h, Nat.div_eq_of_lt h]
  simp

/-- Eight bits are placed as one byte at `OPOS`, the others behind it. -/
theorem packed_append {xs : List Bool} (h : xs.length = 8) (ys : List Bool) {s : State}
    (room : s.work.opos.toNat < s.params.obufCap.toNat) : s.packed (xs ++ ys) =
      State.packed (State.bumpOpos { s with obuf := Mem.set s.obuf s.work.opos.toNat (firstByte xs) }) ys := by
  have cnt : BitVec.ofNat 3 (xs ++ ys).length = BitVec.ofNat 3 ys.length := by
    apply BitVec.eq_of_toNat_eq
    simp only [BitVec.toNat_ofNat, List.length_append]
    omega
  have opos : s.work.opos + BitVec.ofNat 32 (ys.length / 8 + 1) =
      s.work.opos + 1#32 + BitVec.ofNat 32 (ys.length / 8) := by
    rw [Nat.add_comm, BitVec.ofNat_add, BitVec.add_assoc]
  simp only [State.packed, State.bumpOpos, wholeBytes_append h, restBits_append h, length_div_append h, opos_step room,
    Mem.setMany, cnt, opos]

/-- Eight bits go out as one byte, then the others. -/
theorem packAll_append {xs : List Bool} (h : xs.length = 8) (ys : List Bool) (s : State) :
    packAll (xs ++ ys) s =
      (memWrite s.work.opos.toNat (firstByte xs) s >>= fun u => packAll ys u.bumpOpos) := by
  have whole := length_div_append h ys
  have long : 8 ≤ (xs ++ ys).length := by simp [h]
  by_cases room : s.work.opos.toNat < s.params.obufCap.toNat
  · rw [memWrite_ok.2 ⟨room, rfl⟩, res_bind_ok, packAll, packAll, packed_append h ys room]
    have next := opos_step room
    simp only [State.bumpOpos, next]
    congr 1
    rw [eq_iff_iff]
    omega
  · rw [memWrite_error.2 ⟨Nat.le_of_not_lt room, rfl⟩, res_bind_error, packAll_of_noRoom long (by omega)]

/-! ## PACK.BIT's loop -/

/-- From an `ACC` that holds `p`, PACK.BIT over `ds` packs `p` and `ds` (R186). -/
theorem packBits_eq_packAll (ds : List Bool) {s : State} {p : List Bool} (h : s.Holds p) :
    packBits ds s = packAll (p ++ ds) s := by
  induction ds generalizing s p with
  | nil =>
    rw [List.append_nil, packAll_of_lt h.length_lt, ← h.acc, ← h.cnt, BitVec.ofNat_toNat, BitVec.setWidth_eq]
    rfl
  | cons d ds ih =>
    rw [packBits, List.append_cons]
    by_cases full : s.work.cnt = 7#3
    · have seven : p.length = 7 := by rw [← h.cnt, full]; rfl
      rw [packAll_append (by simp [seven]), packBit, if_pos full, h.placeBit]
      cases memWrite s.work.opos.toNat (firstByte (p ++ [d])) s with
      | error e => rfl
      | ok u => exact ih (p := []) ⟨rfl, firstByte_nil.symm⟩
    · have notSeven : s.work.cnt.toNat ≠ 7 := fun e => full (BitVec.eq_of_toNat_eq e)
      rw [packBit, if_neg full, h.placeBit, res_bind_ok, ih (p := p ++ [d]) ⟨?_, rfl⟩]
      · rfl
      · have := h.cnt
        simp only [List.length_append, List.length_singleton]
        bv_omega

/-! ## PACK.CODE -/

/-- The end of PACK.CODE's loop: fewer than eight bits are pending (R188). -/
theorem packWhole_zero {bits : List Bool} (short : bits.length < 8) (s : State) :
    packWhole 0 bits.length (bitsToNat bits) s = packAll bits s := by
  rw [packAll_of_lt short, packWhole, Nat.mod_eq_of_lt (bitsToNat_lt bits), ← firstByte_toNat short.le]
  cases bits with
  | nil => rfl
  | cons d ds => simp

/-- A turn of PACK.CODE's loop: the eight oldest bits go out (R188). -/
theorem packWhole_succ_append {xs : List Bool} (h : xs.length = 8) (ys : List Bool) (fuel : Nat) (s : State) :
    packWhole (fuel + 1) (xs ++ ys).length (bitsToNat (xs ++ ys)) s =
      (memWrite s.work.opos.toNat (firstByte xs) s >>= fun u =>
        packWhole fuel ys.length (bitsToNat ys) u.bumpOpos) := by
  have long : 8 ≤ (xs ++ ys).length := by simp [h]
  have pending : (xs ++ ys).length - 8 = ys.length := by simp [h]
  have low := bitsToNat_lt ys
  have newer : bitsToNat (xs ++ ys) % 2 ^ ys.length = bitsToNat ys := by
    rw [bitsToNat_append, Nat.mul_comm, Nat.mul_add_mod, Nat.mod_eq_of_lt low]
  have oldest : bitsToNat (xs ++ ys) / 2 ^ ys.length = bitsToNat xs := by
    rw [bitsToNat_append, Nat.mul_comm, Nat.mul_add_div (Nat.two_pow_pos _), Nat.div_eq_of_lt low, Nat.add_zero]
  rw [packWhole, if_pos long, pending, newer, oldest, ofNat_bitsToNat h]
  rfl

/-- The loop of PACK.CODE, on the bits its pending number stands for (R188). -/
theorem packWhole_eq_packAll (fuel : Nat) {bits : List Bool} (enough : bits.length / 8 ≤ fuel) (s : State) :
    packWhole fuel bits.length (bitsToNat bits) s = packAll bits s := by
  induction fuel generalizing bits s with
  | zero => exact packWhole_zero (by omega) s
  | succ fuel ih =>
    by_cases long : 8 ≤ bits.length
    · obtain ⟨xs, ys, rfl, hx⟩ : ∃ xs ys, bits = xs ++ ys ∧ xs.length = 8 :=
        ⟨bits.take 8, bits.drop 8, (List.take_append_drop 8 bits).symm, by simpa using long⟩
      rw [length_div_append hx] at enough
      rw [packWhole_succ_append hx, packAll_append hx]
      exact congrArg _ (funext fun u => ih (Nat.le_of_succ_le_succ enough) u.bumpOpos)
    · rw [packWhole, if_neg long]
      exact packWhole_zero (Nat.lt_of_not_le long) s

/-- From an `ACC` that holds `p`, PACK.CODE packs `p` and the code bits (R188). -/
theorem packCode_eq_packAll {c : Code} {s : State} {p : List Bool} (h : s.Holds p)
    (fits : c.pat.toNat < 2 ^ c.len.toNat) : packCode c s = packAll (p ++ c.bits) s := by
  have length : s.work.cnt.toNat + c.len.toNat = (p ++ c.bits).length := by simp [h.cnt]
  have number : s.work.acc.toNat / 2 ^ (8 - s.work.cnt.toNat) * 2 ^ c.len.toNat + c.pat.toNat =
      bitsToNat (p ++ c.bits) := by
    rw [h.acc, h.cnt, firstByte_toNat h.length_lt.le, Nat.mul_div_cancel _ (Nat.two_pow_pos _), bitsToNat_append,
      Code.length_bits, Code.bitsToNat_bits fits]
  rw [packCode, length, number]
  exact packWhole_eq_packAll _ le_rfl s

/-! ## PACK -/

/-- The state with another value in `IPOS`, which only counts the input bytes (R21). -/
def State.atIpos (s : State) (i : Word) : State := { s with work := { s.work with ipos := i } }

theorem packBit_atIpos (d : Bool) (s : State) (i : Word) :
    packBit d (s.atIpos i) = (packBit d s >>= fun t => .ok (t.atIpos i)) := by
  by_cases full : s.work.cnt = 7#3
  · by_cases room : s.work.opos.toNat < s.params.obufCap.toNat <;> simp [packBit, State.atIpos, full, room, memWrite]
  · simp [packBit, State.atIpos, full]

theorem packBits_atIpos (ds : List Bool) (s : State) (i : Word) :
    packBits ds (s.atIpos i) = (packBits ds s >>= fun t => .ok (t.atIpos i)) := by
  induction ds generalizing s with
  | nil => rfl
  | cons d ds ih =>
    rw [packBits, packBits, packBit_atIpos]
    cases packBit d s with
    | error e => rfl
    | ok u => exact ih u

theorem packBits_append (xs ys : List Bool) (s : State) :
    packBits (xs ++ ys) s = (packBits xs s >>= packBits ys) := by
  induction xs generalizing s with
  | nil => rfl
  | cons x xs ih =>
    rw [List.cons_append, packBits, packBits]
    cases packBit x s with
    | error e => rfl
    | ok u => exact ih u

theorem packInput_append (xs ys : List Byte) (s : State) :
    packInput (xs ++ ys) s = (packInput xs s >>= packInput ys) := by
  induction xs generalizing s with
  | nil => rfl
  | cons x xs ih =>
    rw [List.cons_append, packInput, packInput]
    cases packByte x s with
    | error e => rfl
    | ok u => exact ih u

/-- R187: the loop ends at a byte without a code. -/
theorem packInput_uncoded {b : Byte} {s : State} (uncoded : (Table.at s.code b).len = 0#8) (bs : List Byte) :
    packInput (b :: bs) s = .error .badSequence := by
  rw [packInput, packByte, if_pos uncoded, res_bind_error]

/-- R187's loop over bytes that all have a code is PACK.BIT over their code bits, but for `IPOS`. -/
theorem packInput_eq_packBits {bs : List Byte} {s : State} (coded : ∀ b ∈ bs, (Table.at s.code b).len ≠ 0#8) :
    ∃ i, packInput bs s = packBits (bitsOf s.code bs) (s.atIpos i) := by
  induction bs generalizing s with
  | nil => exact ⟨s.work.ipos, rfl⟩
  | cons b bs ih =>
    have codeBits : bitsOf s.code (b :: bs) = (Table.at s.code b).bits ++ bitsOf s.code bs := rfl
    simp only [packInput, packByte, if_neg (coded b List.mem_cons_self), codeBits, packBits_append]
    simp only [packBits_atIpos]
    cases first : packBits (Table.at s.code b).bits s with
    | error e => exact ⟨0#32, rfl⟩
    | ok u =>
      have code : u.code = s.code := (packBits_frame first).code
      rw [← code]
      exact ih (s := u.atIpos (u.work.ipos + 1#32)) (code ▸ fun x hx => coded x (List.mem_cons_of_mem b hx))

/-- The flush's one error (R187). -/
theorem packFlush_error {s : State} {e : ErrKind} :
    packFlush s = .error e ↔
      s.work.cnt ≠ 0#3 ∧ s.params.obufCap.toNat ≤ s.work.opos.toNat ∧ e = .allocationFailure := by
  by_cases h : s.work.cnt = 0#3 <;> simp [packFlush, h, res_bind_eq_error, memWrite_error]

theorem packed_cnt_eq_zero_iff {s : State} {bits : List Bool} :
    (s.packed bits).work.cnt = 0#3 ↔ bits.length % 8 = 0 := by
  rw [← BitVec.toNat_inj, State.packed, BitVec.toNat_ofNat]
  rfl

/-- Where the whole bytes have their places, the output index is not reduced. -/
theorem packed_opos_toNat {s : State} {bits : List Bool}
    (room : bits.length < 8 ∨ s.work.opos.toNat + bits.length / 8 ≤ s.params.obufCap.toNat) :
    (s.packed bits).work.opos.toNat = s.work.opos.toNat + bits.length / 8 := by
  have := s.work.opos.isLt
  have := s.params.obufCap.isLt
  rw [State.packed, BitVec.toNat_add, BitVec.toNat_ofNat]
  omega

/-- R187: the loop and the flush write `PackBits` of the bits where all its bytes have a place. -/
theorem packAll_packFlush_ok {bits : List Bool} {s : State}
    (room : s.work.opos.toNat + (packBytes bits).length ≤ s.params.obufCap.toNat) :
    ∃ v, (packAll bits s >>= packFlush) = .ok v ∧
      v.obuf = Mem.setMany s.obuf s.work.opos.toNat (packBytes bits) := by
  rw [length_packBytes] at room
  have whole : s.work.opos.toNat + bits.length / 8 ≤ s.params.obufCap.toNat := by omega
  have opos := packed_opos_toNat (.inr whole)
  rw [packAll_of_room (.inr whole), res_bind_ok, packBytes_eq_wholeBytes]
  by_cases filled : bits.length % 8 = 0
  · refine ⟨_, packFlush_ok.2 (.inl ⟨packed_cnt_eq_zero_iff.2 filled, rfl⟩), ?_⟩
    rw [if_pos filled, List.append_nil]
    rfl
  · refine ⟨_, packFlush_ok.2 (.inr ⟨filled ∘ packed_cnt_eq_zero_iff.1, ?_, rfl⟩), ?_⟩
    · rw [opos]
      exact Nat.lt_of_lt_of_le (by omega) room
    · rw [if_neg filled, opos, Mem.setMany_append, length_wholeBytes]
      rfl

/-- R187: where a byte of the stream has no place, the loop or the flush raises. -/
theorem packAll_packFlush_error {bits : List Bool} {s : State} (stream : packBytes bits ≠ [])
    (noRoom : s.params.obufCap.toNat < s.work.opos.toNat + (packBytes bits).length) :
    (packAll bits s >>= packFlush) = .error .allocationFailure := by
  have nonempty := List.length_pos_iff.2 stream
  rw [length_packBytes] at noRoom nonempty
  rw [packAll]
  split
  case isTrue room =>
    have opos := packed_opos_toNat room
    refine packFlush_error.2 ⟨fun filled => ?_, ?_, rfl⟩
    · have := packed_cnt_eq_zero_iff.1 filled
      omega
    · rw [opos]
      exact Nat.le_of_lt_succ (Nat.lt_of_lt_of_le noRoom (by omega))
  case isFalse => rfl

/-- PACK's loop over bytes that all have a code, from where PACK starts it. -/
theorem packInput_packStart {bs : List Byte} {s : State} (coded : ∀ b ∈ bs, (Table.at s.code b).len ≠ 0#8) :
    ∃ i, packInput bs (packStart s) = packAll (bitsOf s.code bs) ((packStart s).atIpos i) := by
  obtain ⟨i, loop⟩ := packInput_eq_packBits (s := packStart s) coded
  exact ⟨i, loop.trans (packBits_eq_packAll _ (p := []) ⟨rfl, firstByte_nil.symm⟩)⟩

theorem packBody_badSequence {s : State} (h : s.status.codeV = false ∨ s.status.tszV = false) :
    packBody s = .error .badSequence := by
  refine res_bind_eq_error.2 (.inl (require_error.2 ⟨?_, rfl⟩))
  rcases h with h | h <;> simp [h]

section
variable {s : State} (hc : s.status.codeV = true) (ht : s.status.tszV = true)
include hc ht

theorem packBody_tooLong (h : ¬ s.SourceFits) : packBody s = .error .allocationFailure := by
  refine res_bind_eq_error.2 (.inr ⟨(), require_ok.2 (by rw [hc, ht]; rfl), res_bind_eq_error.2 (.inl ?_)⟩)
  exact checkSource_error.2 ⟨Nat.lt_of_not_le h, rfl⟩

theorem packBody_of_error {e : ErrKind} (fits : s.SourceFits)
    (h : (packInput s.input (packStart s) >>= packFlush) = .error e) : packBody s = .error e := by
  refine res_bind_eq_error.2 (.inr ⟨(), require_ok.2 (by rw [hc, ht]; rfl), res_bind_eq_error.2 (.inr ?_)⟩)
  refine ⟨(), checkSource_ok.2 fits, ?_⟩
  rcases res_bind_eq_error.1 h with loop | ⟨u, loop, flush⟩
  · exact res_bind_eq_error.2 (.inl loop)
  · exact res_bind_eq_error.2 (.inr ⟨u, loop, res_bind_eq_error.2 (.inl flush)⟩)

/-- Where the loop and the flush end in `v`, PACK leaves `v`'s output and counts header, tree and stream (R187). -/
theorem packBody_of_ok {v : State} (fits : s.SourceFits)
    (h : (packInput s.input (packStart s) >>= packFlush) = .ok v) :
    ∃ w o, packBody s = .ok { s with
      obuf := v.obuf
      dstLen := BitVec.ofNat 32 (2 + s.hdr.tsize.toNat + (packBytes (bitsOf s.code s.input)).length)
      work := w
      ownBytes := o } := by
  obtain ⟨u, hu, hv⟩ := res_bind_eq_ok.1 h
  have body := packBody_ok.2 ⟨hc, ht, fits, u, v, hu, hv, rfl⟩
  obtain ⟨-, dstLen⟩ := packBody_bitsOut body
  have len : v.work.opos = BitVec.ofNat 32 (2 + s.hdr.tsize.toNat + (packBytes (bitsOf s.code s.input)).length) := by
    rw [length_packBytes, ← dstLen, BitVec.ofNat_toNat, BitVec.setWidth_eq]
  rw [body, len]
  obtain ⟨m, acc, cnt, ipos, opos, rfl⟩ := ((packInput_frame hu).trans (packFlush_frame hv)).exists
  exact ⟨_, _, rfl⟩

end

end Sys2Proof.Machine

namespace Sys2Proof.Proofs

open Sys2Proof Sys2Proof.Machine

/-- Settles O33: the one bit placed is bit `7-CNT`, which `CNT` then counts; a full byte leaves `ACC` 0. -/
theorem packBitKeepsFreeBitsZero : Obligations.PackBitKeepsFreeBitsZero := by
  unfold Obligations.PackBitKeepsFreeBitsZero
  intro d s t free h k hk
  rcases packBit_ok.1 h with ⟨notFull, rfl⟩ | ⟨-, -, rfl⟩
  · have below : k < 7 - s.work.cnt.toNat := by
      have : (s.work.cnt + 1#3).toNat = s.work.cnt.toNat + 1 := by bv_omega
      simp only at hk
      omega
    simp only
    rw [getLsbD_placeBit _ _ _ (by omega), if_neg (by omega)]
    exact free k (by omega)
  · exact BitVec.getLsbD_zero

/-- Settles O34: from an `ACC` that holds the bits `p`, both do what `packAll` does with `p` and the code bits. -/
theorem barrelShifterEqualsBitSerial : Obligations.BarrelShifterEqualsBitSerial := by
  unfold Obligations.BarrelShifterEqualsBitSerial
  intro c s _ fits free
  obtain ⟨p, holds⟩ := s.exists_holds free
  rw [packCode_eq_packAll holds fits, packBits_eq_packAll _ holds]

/-- Settles O32: PACK's loop is `packAll` on the code bits up to the first byte without a code; that byte, the flush, or
a stream byte without a place ends it. -/
theorem packWritesThePackedBits : Obligations.PackWritesThePackedBits := by
  unfold Obligations.PackWritesThePackedBits
  intro s hr
  have start : (packStart s.accept).work.opos.toNat = 2 + s.hdr.tsize.toNat := streamStart_toNat _
  refine ⟨fun hc ht fits coded => ?_, fun before b after hc ht fits input coded uncoded => ?_,
    fun hc ht tooLong => runCommand_of_error hr (packBody_tooLong hc ht tooLong),
    fun refused => runCommand_of_error hr (packBody_badSequence refused)⟩
  · obtain ⟨i, loop⟩ := packInput_packStart (s := s.accept) coded
    refine ⟨fun room => ?_, fun stream noRoom => ?_⟩
    · obtain ⟨v, ends, obuf⟩ := packAll_packFlush_ok (s := (packStart s.accept).atIpos i) (start ▸ room)
      obtain ⟨w, o, body⟩ := packBody_of_ok (s := s.accept) hc ht fits (loop ▸ ends)
      refine ⟨v.obuf, w, o, runCommand_of_ok hr body, fun j => ?_⟩
      rw [obuf, Mem.get_setMany, ← start]
      rfl
    · refine runCommand_of_error hr (packBody_of_error (s := s.accept) hc ht fits ?_)
      exact loop ▸ packAll_packFlush_error stream (start ▸ noRoom)
  · obtain ⟨i, loop⟩ := packInput_packStart (s := s.accept) coded
    have whole : packInput s.accept.input (packStart s.accept) =
        (packAll (bitsOf s.code before) ((packStart s.accept).atIpos i) >>= packInput (b :: after)) := by
      rw [input_accept, input, packInput_append, loop, State.accept_code]
    refine ⟨fun room => ?_, fun noRoom long => ?_⟩
    · refine runCommand_of_error hr (packBody_of_error (s := s.accept) hc ht fits ?_)
      have placed := packAll_of_room (s := (packStart s.accept).atIpos i) (start ▸ room.symm)
      have stop := packInput_uncoded (s := ((packStart s.accept).atIpos i).packed (bitsOf s.code before)) uncoded after
      rw [whole, placed, res_bind_ok, stop, res_bind_error]
    · refine runCommand_of_error hr (packBody_of_error (s := s.accept) hc ht fits ?_)
      rw [whole, packAll_of_noRoom long (start ▸ noRoom), res_bind_error, res_bind_error]

end Sys2Proof.Proofs
end

section
/-! SUPPORT. The unpacker: what one code bit does as a function of the tree, the cursor and the bit (R197, R199), the
walk over a bit string as a relation, and what the engine's loop over the stream bits answers along such
a walk (R198). -/

namespace Sys2Proof.Machine

/-! ## One code bit -/

/-- What the code bit `d` does under the tree `t` with the cursor on `cur`: the symbol it emits, if any, and the next
cursor; none is MalformedStream (R197, R199). -/
def bitEffect (t cur : Tree) (d : Bool) : Option (Option Byte × Tree) :=
  match t, cur with
  | .leaf sym, _ => if d then none else some (some sym, cur)
  | .node _ _, .leaf _ => none
  | .node l r, .node a b =>
    match (if d then b else a) with
    | .leaf sym => some (some sym, .node l r)
    | .node l' r' => some (none, .node l' r')

/-- The bit is consumed with the cursor on `c` (R22). -/
def State.walkedTo (s : State) (c : Tree) : State := advanceBit { s with work := { s.work with cur := c } }

section
variable {t c : Tree} {d : Bool} {sym : Byte} {s : State} (ht : s.tree = some t)
include ht

theorem walkStep_stuck (h : bitEffect t s.work.cur d = none) : walkStep d s = .error .malformedStream := by
  cases t with
  | leaf sym =>
    cases d with
    | false => cases h
    | true => rw [walkStep_leaf ht]; rfl
  | node l r =>
    rw [walkStep_node ht]
    cases hc : s.work.cur with
    | leaf _ => simp [walkNode, hc]
    | node a b => cases hd : (if d then b else a) <;> simp [bitEffect, hc, hd] at h

theorem walkStep_move (h : bitEffect t s.work.cur d = some (none, c)) : walkStep d s = .ok (s.walkedTo c) := by
  cases t with
  | leaf sym => cases d <;> cases h
  | node l r =>
    rw [walkStep_node ht]
    cases hc : s.work.cur with
    | leaf sym => simp [bitEffect, hc] at h
    | node a b =>
      cases hd : (if d then b else a) with
      | leaf sym => simp [bitEffect, hc, hd] at h
      | node l' r' =>
        obtain rfl : Tree.node l' r' = c := by simpa [bitEffect, hc, hd] using h
        simp [walkNode, hc, hd, State.walkedTo]

theorem walkStep_emit (h : bitEffect t s.work.cur d = some (some sym, c)) :
    walkStep d s = (emit sym s >>= fun u => .ok (u.walkedTo c)) := by
  have stays {u : State} (hu : emit sym s = .ok u) : u.work.cur = s.work.cur := by
    obtain ⟨-, rfl⟩ := emit_ok.1 hu
    rfl
  cases t with
  | leaf sym' =>
    cases d with
    | true => cases h
    | false =>
      obtain ⟨rfl, rfl⟩ : sym' = sym ∧ s.work.cur = c := by simpa [bitEffect] using h
      rw [walkStep_leaf ht, show oneLeafStep false sym' s = emit sym' s from rfl]
      cases hu : emit sym' s with
      | error e => rfl
      | ok u => rw [res_bind_ok, res_bind_ok, ← stays hu]; rfl
  | node l r =>
    rw [walkStep_node ht]
    cases hc : s.work.cur with
    | leaf sym => simp [bitEffect, hc] at h
    | node a b =>
      cases hd : (if d then b else a) with
      | leaf sym' =>
        obtain ⟨rfl, rfl⟩ : sym' = sym ∧ Tree.node l r = c := by simpa [bitEffect, hc, hd] using h
        simp only [walkNode, hc, hd]
        cases emit sym' s <;> rfl
      | node l' r' => simp [bitEffect, hc, hd] at h

/-- R197, R199: the symbol at `OPOS`, where there is a place for it. -/
theorem walkStep_emit_room (h : bitEffect t s.work.cur d = some (some sym, c))
    (room : s.work.opos.toNat < s.params.obufCap.toNat) :
    walkStep d s = .ok (State.walkedTo { s with
      obuf := Mem.set s.obuf s.work.opos.toNat sym
      work := { s.work with opos := s.work.opos + 1#32 } } c) := by
  rw [walkStep_emit ht h, emit_ok.2 ⟨room, rfl⟩, res_bind_ok]

theorem walkStep_emit_noRoom (h : bitEffect t s.work.cur d = some (some sym, c))
    (noRoom : s.params.obufCap.toNat ≤ s.work.opos.toNat) : walkStep d s = .error .allocationFailure := by
  rw [walkStep_emit ht h, emit_error.2 ⟨noRoom, rfl⟩, res_bind_error]

end

/-! ## The walk over a bit string -/

/-- The walk over `bits` under `t` from the cursor `c` emits `out` and ends with the cursor that `last` names; none
where a bit has no effect (R197 to R199). -/
inductive Walks (t : Tree) : (c : Tree) → (bits : List Bool) → (out : List Byte) → (last : Option Tree) → Prop where
  | done (c : Tree) : Walks t c [] [] (some c)
  | stuck {c : Tree} {d : Bool} (ds : List Bool) : bitEffect t c d = none → Walks t c (d :: ds) [] none
  | move {c c' : Tree} {d : Bool} {ds : List Bool} {out : List Byte} {last : Option Tree} :
      bitEffect t c d = some (none, c') → Walks t c' ds out last → Walks t c (d :: ds) out last
  | emit {c c' : Tree} {d : Bool} {sym : Byte} {ds : List Bool} {out : List Byte} {last : Option Tree} :
      bitEffect t c d = some (some sym, c') → Walks t c' ds out last → Walks t c (d :: ds) (sym :: out) last

/-- R197: under an internal root, from any cursor. -/
theorem walks_node {t l r : Tree} (ht : t = .node l r) (c : Tree) (bits : List Bool) :
    ∃ last, Walks t c bits (walkEmits t c bits) last ∧
      walkBits t c bits = if last = some t then some (walkEmits t c bits) else none := by
  induction bits generalizing c with
  | nil => exact ⟨some c, .done c, by simp [walkBits, walkEmits]⟩
  | cons d ds ih =>
    cases c with
    | leaf sym => exact ⟨none, .stuck ds (by rw [ht]; rfl), by simp [walkBits]⟩
    | node a b =>
      cases hd : (if d then b else a) with
      | leaf sym =>
        obtain ⟨last, walk, result⟩ := ih t
        have effect : bitEffect t (.node a b) d = some (some sym, t) := by simp [ht, bitEffect, hd]
        simp only [walkBits, walkEmits, hd, result]
        exact ⟨last, .emit effect walk, by split <;> rfl⟩
      | node l' r' =>
        obtain ⟨last, walk, result⟩ := ih (.node l' r')
        have effect : bitEffect t (.node a b) d = some (none, .node l' r') := by simp [ht, bitEffect, hd]
        simp only [walkBits, walkEmits, hd, result]
        exact ⟨last, .move effect walk, rfl⟩

/-- R199: a 0 bit under one leaf is its symbol. -/
theorem unpackBits_leaf_cons (sym : Byte) (ds : List Bool) :
    unpackBits (.leaf sym) (false :: ds) = (unpackBits (.leaf sym) ds).map (sym :: ·) := by
  simp only [unpackBits, List.all_cons, Bool.not_false, Bool.true_and, List.map_cons]
  split <;> rfl

/-- R199: under one leaf. -/
theorem walks_leaf (sym : Byte) (bits : List Bool) :
    ∃ last, Walks (.leaf sym) (.leaf sym) bits (emitsOf (.leaf sym) bits) last ∧
      unpackBits (.leaf sym) bits = if last = some (.leaf sym) then some (emitsOf (.leaf sym) bits) else none := by
  induction bits with
  | nil => exact ⟨some (.leaf sym), .done _, by simp [unpackBits, emitsOf]⟩
  | cons d ds ih =>
    cases d with
    | true => exact ⟨none, .stuck ds rfl, by simp [unpackBits]⟩
    | false =>
      obtain ⟨last, walk, result⟩ := ih
      refine ⟨last, .emit rfl walk, ?_⟩
      rw [unpackBits_leaf_cons, result]
      split <;> rfl

/-- From the root: the walk emits the bytes of `emitsOf`, and they are the result of `Unpack` where it ends at the root
(R200, R202). -/
theorem walks_unpackBits (t : Tree) (bits : List Bool) :
    ∃ last, Walks t t bits (emitsOf t bits) last ∧
      unpackBits t bits = if last = some t then some (emitsOf t bits) else none := by
  cases t with
  | leaf sym => exact walks_leaf sym bits
  | node l r => exact walks_node rfl (.node l r) bits

/-! ## The engine's loop -/

/-- WALK.STEP or ONELEAF.STEP over a bit string, first bit first. -/
def walkAll (bits : List Bool) (s : State) : Res := bits.foldlM (fun s d => walkStep d s) s

theorem walkAll_cons (d : Bool) (ds : List Bool) (s : State) :
    walkAll (d :: ds) s = (walkStep d s >>= walkAll ds) := List.foldlM_cons ..

theorem walkStep_streamInput {d : Bool} {s u : State} (h : walkStep d s = .ok u) : u.streamInput = s.streamInput := by
  rw [(walkStep_frame h).rest]
  rfl

/-- UNPK's loop takes the stream bits from the cursor on (R196, R198). -/
theorem readStream_eq_walkAll (k : Nat) {s : State} (hi : s.InStream) (hk : s.streamPos + k = s.streamLen) :
    readStream k s = walkAll (s.streamInput.drop s.streamPos) s := by
  have length : s.streamInput.length = s.streamLen := by simp [State.streamInput]
  induction k generalizing s with
  | zero => rw [List.drop_of_length_le (by omega)]; rfl
  | succ k ih =>
    have left : s.streamPos < s.streamInput.length := by omega
    obtain ⟨_, bit⟩ := List.getElem?_eq_some_iff.1 (streamInput_getElem? hi (by omega))
    rw [List.drop_eq_getElem_cons left, bit, walkAll_cons, readStream]
    cases h : walkStep (streamBit s) s with
    | error e => rfl
    | ok u =>
      obtain ⟨hi', hp⟩ := walkStep_streamPos h hi (by omega)
      have len := (walkStep_frame h).streamLen
      have same := walkStep_streamInput h
      rw [res_bind_ok, res_bind_ok, ih hi' (by omega) (by rw [same, len, length]), same, hp]

/-- What the loop answers along a walk that emits `out` and ends at `last`: the bytes go out from `OPOS` on, and the
first one without a place ends it before anything after it can. -/
structure WalkAnswer (s : State) (out : List Byte) (last : Option Tree) (r : Res) : Prop where
  ends : ∀ c, last = some c → s.work.opos.toNat + out.length ≤ s.params.obufCap.toNat →
    ∃ v, r = .ok v ∧ v.work.cur = c ∧ v.work.opos = s.work.opos + BitVec.ofNat 32 out.length ∧
      v.obuf = Mem.setMany s.obuf s.work.opos.toNat out
  stuck : last = none → s.work.opos.toNat + out.length ≤ s.params.obufCap.toNat → r = .error .malformedStream
  noRoom : s.work.opos.toNat ≤ s.params.obufCap.toNat → s.params.obufCap.toNat < s.work.opos.toNat + out.length →
    r = .error .allocationFailure

/-- A symbol goes out before the rest of the walk. -/
theorem WalkAnswer.emit {s : State} {sym : Byte} {c : Tree} {out : List Byte} {last : Option Tree} {r : Res}
    (room : s.work.opos.toNat < s.params.obufCap.toNat)
    (h : WalkAnswer (State.walkedTo { s with
      obuf := Mem.set s.obuf s.work.opos.toNat sym
      work := { s.work with opos := s.work.opos + 1#32 } } c) out last r) :
    WalkAnswer s (sym :: out) last r := by
  obtain ⟨ends, stuck, noRoom⟩ := h
  simp only [State.walkedTo, advanceBit, opos_step room] at ends stuck noRoom
  refine ⟨fun c hc fits => ?_, fun hl fits => stuck hl ?_, fun _ full => noRoom room ?_⟩
  · obtain ⟨v, rfl, hcur, hopos, hobuf⟩ := ends c hc (by rw [List.length_cons] at fits; omega)
    refine ⟨v, rfl, hcur, ?_, hobuf⟩
    rw [hopos, BitVec.add_assoc, List.length_cons, Nat.add_comm, BitVec.ofNat_add]
  all_goals
    rw [List.length_cons] at *
    omega

/-- The loop over the bits of a walk, by induction on the walk. -/
theorem walkAll_answer {t c : Tree} {bits : List Bool} {out : List Byte} {last : Option Tree}
    (walk : Walks t c bits out last) {s : State} (ht : s.tree = some t) (hc : s.work.cur = c) :
    WalkAnswer s out last (walkAll bits s) := by
  induction walk generalizing s with
  | done c =>
    refine ⟨fun c' h _ => ⟨s, rfl, hc.trans (Option.some.inj h), (BitVec.add_zero _).symm, rfl⟩, nofun, fun le lt => ?_⟩
    rw [List.length_nil] at lt
    omega
  | stuck ds h =>
    rw [walkAll_cons, walkStep_stuck ht (hc ▸ h)]
    refine ⟨nofun, fun _ _ => rfl, fun le lt => ?_⟩
    rw [List.length_nil] at lt
    omega
  | move h _ ih =>
    rw [walkAll_cons, walkStep_move ht (hc ▸ h)]
    obtain ⟨ends, stuck, noRoom⟩ := ih (s := s.walkedTo _) ht rfl
    exact ⟨ends, stuck, noRoom⟩
  | emit h _ ih =>
    rw [walkAll_cons]
    by_cases room : s.work.opos.toNat < s.params.obufCap.toNat
    · rw [walkStep_emit_room ht (hc ▸ h) room]
      exact .emit room (ih ht rfl)
    · rw [walkStep_emit_noRoom ht (hc ▸ h) (Nat.le_of_not_lt room)]
      refine ⟨fun _ _ fits => ?_, fun _ fits => ?_, fun _ _ => rfl⟩ <;> (rw [List.length_cons] at fits; omega)

/-! ## UNPK -/

theorem unpkBody_of_streamEntry_error {s : State} {e : ErrKind} (h : streamEntry s = .error e) :
    unpkBody s = .error e := by
  rw [unpkBody, h, res_bind_error]

/-- After UNPK's entry the loop walks all stream bits from the root. -/
theorem unpkBody_eq_walkAll {s : State} {t : Tree} (h : streamEntry s = .ok (streamStart t s)) :
    unpkBody s = (walkAll s.streamInput (streamStart t s) >>= streamExit) := by
  obtain ⟨hi, hp⟩ := streamEntry_start h
  rw [unpkBody, h, res_bind_ok, readStream_eq_walkAll _ hi (by rw [hp, Nat.zero_add]), hp, List.drop_zero]
  rfl

theorem walkAll_tree {bits : List Bool} {s v : State} (h : walkAll bits s = .ok v) : v.tree = s.tree := by
  induction bits generalizing s with
  | nil => cases h; rfl
  | cons d ds ih =>
    rw [walkAll_cons] at h
    obtain ⟨u, hu, h⟩ := res_bind_eq_ok.1 h
    rw [ih h, (walkStep_frame hu).rest]

theorem emitsOf_of_unpackBits {t : Tree} {bits : List Bool} {out : List Byte} (h : unpackBits t bits = some out) :
    emitsOf t bits = out := by
  obtain ⟨last, -, result⟩ := walks_unpackBits t bits
  obtain ⟨-, same⟩ | ⟨-, never⟩ := ite_eq_iff.1 (result.symm.trans h)
  · exact Option.some.inj same
  · cases never

/-- The loop answers along the walk of `Unpack`. -/
theorem walkAll_streamStart {s : State} {t : Tree} (ht : s.tree = some t) (bits : List Bool) : ∃ last,
    WalkAnswer (streamStart t s) (emitsOf t bits) last (walkAll bits (streamStart t s)) ∧
      unpackBits t bits = if last = some t then some (emitsOf t bits) else none := by
  obtain ⟨last, walk, result⟩ := walks_unpackBits t bits
  exact ⟨last, walkAll_answer walk ht rfl, result⟩

section
variable {s : State} {t : Tree} (ht : s.tree = some t) (entry : streamEntry s = .ok (streamStart t s))
include ht entry

theorem unpkBody_of_noRoom (noRoom : s.params.obufCap.toNat < (emitsOf t s.streamInput).length) :
    unpkBody s = .error .allocationFailure := by
  obtain ⟨last, answer, -⟩ := walkAll_streamStart ht s.streamInput
  rw [unpkBody_eq_walkAll entry, answer.noRoom (Nat.zero_le _) (by simpa [streamStart] using noRoom), res_bind_error]

/-- R199, R200: the walk is stuck, or does not end at the root. -/
theorem unpkBody_of_unpackBits_none (h : unpackBits t s.streamInput = none)
    (room : (emitsOf t s.streamInput).length ≤ s.params.obufCap.toNat) : unpkBody s = .error .malformedStream := by
  obtain ⟨last, answer, result⟩ := walkAll_streamStart ht s.streamInput
  have room' : (streamStart t s).work.opos.toNat + (emitsOf t s.streamInput).length ≤
      (streamStart t s).params.obufCap.toNat := by simpa [streamStart] using room
  rw [unpkBody_eq_walkAll entry]
  cases last with
  | none => rw [answer.stuck rfl room', res_bind_error]
  | some c =>
    obtain ⟨v, hv, hcur, -⟩ := answer.ends c rfl room'
    rw [hv, res_bind_ok]
    refine streamExit_error.2 ⟨fun atRoot => ?_, rfl⟩
    have root : some c = some t := by rw [← hcur, ← atRoot, walkAll_tree hv]; exact ht
    rw [h, if_pos root] at result
    cases result

/-- R198: the walk ends at the root with all its bytes placed. -/
theorem unpkBody_of_unpackBits_some {out : List Byte} (h : unpackBits t s.streamInput = some out)
    (room : out.length ≤ s.params.obufCap.toNat) :
    ∃ w o, unpkBody s = .ok { s with
      obuf := Mem.setMany s.obuf 0 out, dstLen := BitVec.ofNat 32 out.length, work := w, ownBytes := o } := by
  obtain ⟨last, answer, result⟩ := walkAll_streamStart ht s.streamInput
  obtain rfl : last = some t := by
    by_contra other
    rw [h, if_neg other] at result
    cases result
  rw [emitsOf_of_unpackBits h] at answer
  obtain ⟨v, hv, hcur, hopos, hobuf⟩ := answer.ends t rfl (by simpa [streamStart] using room)
  have atRoot : v.tree = some v.work.cur := by rw [walkAll_tree hv, hcur]; exact ht
  have body : unpkBody s =
      .ok { v with dstLen := v.work.opos, ownBytes := Own.drop 0 v.work.opos.toNat v.ownBytes } := by
    rw [unpkBody_eq_walkAll entry, hv, res_bind_ok]
    exact streamExit_ok.2 ⟨atRoot, rfl⟩
  obtain ⟨m, n, own, cur, opos, spos, bidx, frame⟩ := unpkBody_frame body
  have obuf : m = Mem.setMany s.obuf 0 out := (congrArg State.obuf frame).symm.trans hobuf
  have dstLen : n = BitVec.ofNat 32 out.length := by
    rw [← BitVec.zero_add (BitVec.ofNat 32 out.length)]
    exact (congrArg State.dstLen frame).symm.trans hopos
  rw [body, frame, obuf, dstLen]
  exact ⟨_, _, rfl⟩

end

/-! ## Unpacking packed bits -/

/-- R160: a path goes on from the subtree it passes. -/
theorem paths_eq_map (t : Tree) (p : List Bool) : t.paths p = (t.paths []).map fun x => (x.1, p ++ x.2) := by
  induction t generalizing p with
  | leaf sym => simp [Tree.paths]
  | node l r ihl ihr =>
    rw [Tree.paths, Tree.paths, ihl (p ++ [false]), ihr (p ++ [true]), ihl ([] ++ [false]), ihr ([] ++ [true])]
    simp [List.map_map, Function.comp_def]

theorem mem_paths_node {l r : Tree} {b : Byte} {path : List Bool} :
    (b, path) ∈ (Tree.node l r).paths [] ↔ ∃ d q, path = d :: q ∧ (b, q) ∈ (if d then r else l).paths [] := by
  rw [Tree.paths, paths_eq_map l, paths_eq_map r]
  simp [eq_comm, and_comm]

/-- R160, R197: the path of a leaf leads the walk to it. -/
theorem walkBits_path {t c : Tree} {b : Byte} {path : List Bool} (h : (b, path) ∈ c.paths [])
    (internal : c.isLeaf = false) (ds : List Bool) : walkBits t c (path ++ ds) = (walkBits t t ds).map (b :: ·) := by
  induction c generalizing path with
  | leaf sym => cases internal
  | node l r ihl ihr =>
    obtain ⟨d, q, rfl, hq⟩ := mem_paths_node.1 h
    have below : (if d then r else l).isLeaf = false →
        walkBits t (if d then r else l) (q ++ ds) = (walkBits t t ds).map (b :: ·) := by
      cases d with
      | false => exact ihl hq
      | true => exact ihr hq
    rw [List.cons_append, walkBits]
    cases hc : (if d then r else l) with
    | leaf sym =>
      rw [hc] at hq
      obtain ⟨rfl, rfl⟩ : b = sym ∧ q = [] := by simpa [Tree.paths] using hq
      rfl
    | node l' r' => exact (hc ▸ below) rfl

/-- R202 for one code. -/
theorem unpackBits_code {t : Tree} {b : Byte} {path : List Bool} (h : (b, path) ∈ t.codes) (ds : List Bool) :
    unpackBits t (path ++ ds) = (unpackBits t ds).map (b :: ·) := by
  cases t with
  | leaf sym =>
    obtain ⟨rfl, rfl⟩ : b = sym ∧ path = [false] := by simpa [Tree.codes] using h
    exact unpackBits_leaf_cons b ds
  | node l r => exact walkBits_path h rfl ds

theorem unpackBits_nil (t : Tree) : unpackBits t [] = some [] := by
  cases t <;> simp [unpackBits, walkBits]

theorem codeTable_bits_mem_codes {t : Tree} (distinct : t.leaves.Nodup) {b : Byte} (h : b ∈ t.leaves) :
    (b, (Table.at (codeTable t) b).bits) ∈ t.codes := by
  obtain ⟨path, hp⟩ := Option.ne_none_iff_exists'.1 fun absent => codeOf_eq_none_iff.1 absent h
  rw [(codeTable_entry distinct (Tree.depth_le_of_nodup distinct) b).1, hp]
  exact mem_codes_of_codeOf hp

/-- R202 on the code bits themselves. -/
theorem unpackBits_bitsOf {t : Tree} (distinct : t.leaves.Nodup) {bytes : List Byte}
    (coded : ∀ b ∈ bytes, b ∈ t.leaves) :
    unpackBits t (bitsOf (codeTable t) bytes) = some bytes := by
  induction bytes with
  | nil => exact unpackBits_nil t
  | cons b bs ih =>
    obtain ⟨first, rest⟩ := List.forall_mem_cons.1 coded
    rw [bitsOf, List.flatMap_cons, unpackBits_code (codeTable_bits_mem_codes distinct first), ← bitsOf, ih rest]
    rfl

/-- The bits of a byte that begins with at most eight given bits (R63, R185). -/
theorem bitsOfBytes_firstByte {bits : List Bool} (h : bits.length ≤ 8) :
    bitsOfBytes [firstByte bits] = bits ++ List.replicate (8 - bits.length) false := by
  have read : bitsOfBytes [firstByte bits] = (List.range 8).map fun j => (firstByte bits).getLsbD (7 - j) := by
    simp [bitsOfBytes]
  rw [read]
  refine List.ext_getElem (by simp; omega) fun j hj _ => ?_
  have hj : j < 8 := by simpa using hj
  rw [List.getElem_map, List.getElem_range, getLsbD_firstByte (by omega), show 7 - (7 - j) = j by omega,
    List.getElem_append]
  split
  · next inside => exact List.getD_eq_getElem _ _ inside
  · next outside => rw [List.getElem_replicate, List.getD_eq_default _ _ (Nat.le_of_not_lt outside)]

theorem packBytes_append {xs : List Bool} (h : xs.length = 8) (ys : List Bool) :
    packBytes (xs ++ ys) = firstByte xs :: packBytes ys := by
  have left : (xs ++ ys).length % 8 = ys.length % 8 := by rw [List.length_append]; omega
  rw [packBytes_eq_wholeBytes, packBytes_eq_wholeBytes, wholeBytes_append h, restBits_append h, left, List.cons_append]

/-- The bits of `PackBits` begin with the packed ones (R185), by induction on the number of whole bytes. -/
theorem take_bitsOfBytes_packBytes (bits : List Bool) :
    (bitsOfBytes (packBytes bits)).take bits.length = bits := by
  induction n : bits.length / 8 generalizing bits with
  | zero =>
    have short : bits.length < 8 := by omega
    rw [packBytes_eq_wholeBytes, wholeBytes_eq_nil short, restBits_eq_self short, List.nil_append]
    split
    · next empty =>
      obtain rfl : bits = [] := List.eq_nil_of_length_eq_zero (by omega)
      rfl
    · rw [bitsOfBytes_firstByte short.le, List.take_left]
  | succ n ih =>
    obtain ⟨xs, ys, rfl, hx⟩ : ∃ xs ys, bits = xs ++ ys ∧ xs.length = 8 :=
      ⟨bits.take 8, bits.drop 8, (List.take_append_drop 8 bits).symm, by simp; omega⟩
    have whole : bitsOfBytes [firstByte xs] = xs := by simpa [hx] using bitsOfBytes_firstByte hx.le
    have parts : bitsOfBytes (packBytes (xs ++ ys)) = xs ++ bitsOfBytes (packBytes ys) := by
      rw [packBytes_append hx, ← List.singleton_append, bitsOfBytes, List.flatMap_append, ← bitsOfBytes, whole]
      rfl
    rw [length_div_append hx] at n
    rw [parts, List.length_append, List.take_length_add_append, ih ys (Nat.succ.inj n)]

/-- Every byte sequence shorter than 2^32 is the input of a state, so what is known of the counts of an input holds of
it. -/
theorem State.exists_input {bytes : List Byte} (short : bytes.length < 2 ^ 32) : ∃ s : State, s.input = bytes := by
  refine ⟨{ State.reset with srcLen := BitVec.ofNat 32 bytes.length, ibuf := Mem.setMany [] 0 bytes }, ?_⟩
  refine List.ext_getElem (by simpa using Nat.mod_eq_of_lt short) fun k _ hk => ?_
  simp only [State.input, List.getElem_map, List.getElem_range]
  exact ibufByte_listed (by simp [Mem.get_setMany, hk])

/-- R129 (a): a built tree has a leaf for every byte value that was counted. -/
theorem mem_leaves_of_counted {freq : Table Word} {t : Tree} (h : builtTree freq = some t) {b : Byte}
    (counted : 0 < (Table.at freq b).toNat) : b ∈ t.leaves := by
  obtain ⟨e, he⟩ := builtQueue_eq_singleton ⟨b, counted⟩
  obtain rfl : e.tree = t := by simpa [builtTree, he] using h
  exact (builtQueue_leaves he).mem_iff.2 (mem_countedBytes.2 counted)

end Sys2Proof.Machine

namespace Sys2Proof.Proofs

open Sys2Proof Sys2Proof.Machine

/-- Settles O36: the loop answers along the walk of `Unpack`, which emits `emitsOf`; before it, the entry's tests. -/
theorem unpkEmitsTheDecodedBytes : Obligations.UnpkEmitsTheDecodedBytes := by
  unfold Obligations.UnpkEmitsTheDecodedBytes
  intro s hr
  have refused {e : ErrKind} (h : streamEntry s.accept = .error e) : exec .unpk s = .next (s.accept.raise e) :=
    runCommand_of_error hr (unpkBody_of_streamEntry_error h)
  refine ⟨fun missing => ?_, fun t hv hp hz ht => ⟨fun tooLong => ?_, fun fits bad => ?_, fun fits good => ?_⟩⟩
  · refine refused (streamEntry_error.2 (.inl ⟨?_, rfl⟩))
    rcases missing with h | h | h
    · exact .inr (.inr (.inl h))
    · exact .inl h
    · exact .inr (.inl h)
  · have held : s.accept.tree.isSome = true := Option.isSome_of_eq_some ht
    exact refused (streamEntry_error.2 (.inr ⟨hp, hz, hv, held, .inl ⟨Nat.lt_of_not_le tooLong, rfl⟩⟩))
  · have held : s.accept.tree.isSome = true := Option.isSome_of_eq_some ht
    exact refused (streamEntry_error.2 (.inr ⟨hp, hz, hv, held, .inr ⟨fits, bad, rfl⟩⟩))
  · have entry : streamEntry s.accept = .ok (streamStart t s.accept) :=
      streamEntry_ok.2 ⟨hv, hp, hz, fits, good, t, ht, rfl⟩
    refine ⟨fun out h room => ?_, fun out h noRoom => ?_, fun h room => ?_, fun _ noRoom => ?_⟩
    · obtain ⟨w, o, body⟩ := unpkBody_of_unpackBits_some (s := s.accept) ht entry h room
      refine ⟨Mem.setMany s.obuf 0 out, w, o, runCommand_of_ok hr body, fun j => ?_⟩
      simp [Mem.get_setMany]
    · rw [← emitsOf_of_unpackBits h] at noRoom
      exact runCommand_of_error hr (unpkBody_of_noRoom (s := s.accept) ht entry noRoom)
    · exact runCommand_of_error hr (unpkBody_of_unpackBits_none (s := s.accept) ht entry h room)
    · exact runCommand_of_error hr (unpkBody_of_noRoom (s := s.accept) ht entry noRoom)

/-- Settles O35: each case is one effect of a code bit, and for an emitted symbol a place or none. -/
theorem codeBitsWalkTheTree : Obligations.CodeBitsWalkTheTree := by
  unfold Obligations.CodeBitsWalkTheTree
  intro s d i hi
  have item : exec i s = runItem (walkStep d) s := by
    cases d <;> exact hi ▸ rfl
  rw [item]
  refine ⟨fun l r a b ht hc => ⟨fun sym hd => ?_, fun sym hd => ?_, fun l' r' hd => ?_⟩,
    fun sym ht hd room => ?_, fun sym ht hd noRoom => ?_, fun sym ht hd => ?_⟩
  · have effect : bitEffect (.node l r) s.work.cur d = some (some sym, .node l r) := by simp [bitEffect, hc, hd]
    exact fun room => runItem_ok (walkStep_emit_room ht effect room)
  · have effect : bitEffect (.node l r) s.work.cur d = some (some sym, .node l r) := by simp [bitEffect, hc, hd]
    exact fun noRoom => runItem_error (walkStep_emit_noRoom ht effect noRoom)
  · have effect : bitEffect (.node l r) s.work.cur d = some (none, .node l' r') := by simp [bitEffect, hc, hd]
    exact runItem_ok (walkStep_move ht effect)
  · exact runItem_ok (walkStep_emit_room ht (c := s.work.cur) (by rw [hd]; rfl) room)
  · exact runItem_error (walkStep_emit_noRoom ht (c := s.work.cur) (by rw [hd]; rfl) noRoom)
  · exact runItem_error (walkStep_stuck ht (by rw [hd]; rfl))

/-- Settles O37: the consumed bits are the code bits, and each code leads `Unpack` to its leaf. -/
theorem unpackUndoesPack : Obligations.UnpackUndoesPack := by
  unfold Obligations.UnpackUndoesPack
  intro bytes t _ short built
  obtain ⟨s, rfl⟩ := State.exists_input short
  have consumed : 8 * (packBytes (bitsOf (codeTable t) s.input)).length -
      (padOf (countTable s.input) (codeTable t)).toNat = (bitsOf (codeTable t) s.input).length := by
    rw [padOf_eq, encodedBits_countTable, length_packBytes]
    omega
  rw [consumed, take_bitsOfBytes_packBytes]
  refine unpackBits_bitsOf (builtTree_leaves_nodup built) fun b hb => mem_leaves_of_counted built ?_
  rw [countTable_input_toNat]
  exact List.count_pos_iff.2 hb

end Sys2Proof.Proofs
end

section
/-! SUPPORT. COMP (R210): the file it makes of an input, the state after each stage of its seven units, and the error of
the first byte of the file that has no place. -/

namespace Sys2Proof.Machine

/-! ## The built tree of an input -/

theorem input_eq_nil_iff {s : State} : s.input = [] ↔ s.srcLen = 0#32 := by
  rw [← List.length_eq_zero_iff, input_length]
  exact BitVec.toNat_inj (y := 0#32)

theorem count_input_pos {s : State} {b : Byte} (hb : b ∈ s.input) : 0 < (Table.at (countTable s.input) b).toNat := by
  rw [countTable_input_toNat]
  exact List.count_pos_iff.2 hb

/-- An input that is not empty has a built tree (R126). -/
theorem exists_builtTree_input {s : State} (h : s.input ≠ []) : ∃ t, builtTree (countTable s.input) = some t := by
  obtain ⟨b, hb⟩ := List.exists_mem_of_ne_nil _ h
  obtain ⟨e, he⟩ := builtQueue_eq_singleton ⟨b, count_input_pos hb⟩
  exact ⟨e.tree, by rw [builtTree, he]; rfl⟩

/-- R143: the header's 13 bits hold the size of a built tree. -/
theorem tsize_toNat {freq : Table Word} {t : Tree} (built : builtTree freq = some t) :
    (BitVec.ofNat 13 t.ser.length).toNat = t.ser.length := by
  have := ser_length_le (builtTree_leaves_nodup built)
  rw [BitVec.toNat_ofNat]
  omega

/-- R161: every byte of the input has a code. -/
theorem input_coded {s : State} {t : Tree} (built : builtTree (countTable s.input) = some t) {b : Byte}
    (hb : b ∈ s.input) : (Table.at (codeTable t) b).len ≠ 0#8 := by
  have distinct := builtTree_leaves_nodup built
  have leaf : b ∈ t.leaves := mem_leaves_of_counted built (count_input_pos hb)
  exact fun uncoded => (codeTable_entry distinct (Tree.depth_le_of_nodup distinct) b).2.1 uncoded leaf

/-! ## The file -/

/-- The header of a file (R210): the padding and the tree size under the tree `t`. -/
def fileHdr (bytes : List Byte) (t : Tree) : Hdr :=
  { pad := padOf (countTable bytes) (codeTable t), tsize := BitVec.ofNat 13 t.ser.length }

/-- The stream of a file (R210). -/
def fileStream (bytes : List Byte) (t : Tree) : List Byte := packBytes (bitsOf (codeTable t) bytes)

/-- The file under its tree: two header bytes, the serialized tree and the stream. -/
theorem compressed_eq {bytes : List Byte} {t : Tree} (built : builtTree (countTable bytes) = some t) :
    compressed bytes = (fileHdr bytes t).hiByte :: (fileHdr bytes t).loByte :: (t.ser ++ fileStream bytes t) := by
  have parts : compressed bytes =
      encodeHdr (fileHdr bytes t).pad (fileHdr bytes t).tsize ++ t.ser ++ fileStream bytes t := by
    unfold compressed
    rw [built, fileHdr, fileStream]
  rw [parts, encodeHdr_eq, List.append_assoc]
  rfl

theorem length_compressed {bytes : List Byte} {t : Tree} (built : builtTree (countTable bytes) = some t) :
    (compressed bytes).length = 2 + t.ser.length + (fileStream bytes t).length := by
  simp only [compressed_eq built, List.length_cons, List.length_append]
  omega

/-- TSER's bytes, HENC's and PACK's together are the file (R210). -/
theorem get_file {bytes : List Byte} {t : Tree} (built : builtTree (countTable bytes) = some t) (m : List Host.Cell)
    (j : Nat) :
    Mem.get (Mem.setMany (Mem.set (Mem.set (Mem.setMany m 2 t.ser) 0 (fileHdr bytes t).hiByte) 1
      (fileHdr bytes t).loByte) (2 + t.ser.length) (fileStream bytes t)) j =
    if j < (compressed bytes).length then (compressed bytes)[j]? else Mem.get m j := by
  rw [Mem.get_setMany, Mem.get_set, Mem.get_set, Mem.get_setMany, length_compressed built, compressed_eq built]
  match j with
  | 0 => simp [Nat.add_assoc, Nat.add_comm 2]
  | 1 =>
    have tree := ser_length_pos t
    rw [if_neg (by omega), if_pos (by omega), if_pos (by omega)]
    rfl
  | j + 2 =>
    simp only [List.getElem?_cons_succ]
    by_cases inTree : j < t.ser.length
    · rw [if_neg (by omega), if_neg (by omega), if_neg (by omega), if_pos (by omega), if_pos (by omega),
        List.getElem?_append_left inTree]
      rfl
    · rw [List.getElem?_append_right (by omega), if_neg (c := 2 ≤ j + 2 ∧ j + 2 < 2 + t.ser.length) (by omega),
        if_neg (c := j + 2 = 1) (by omega), if_neg (c := j + 2 = 0) (by omega)]
      have place : j + 2 - (2 + t.ser.length) = j - t.ser.length := by omega
      rw [place]
      exact if_congr (by omega) rfl rfl

/-! ## PACK's answers -/

section

variable {s : State} (hc : s.status.codeV = true) (ht : s.status.tszV = true) (fits : s.SourceFits)
  (coded : ∀ b ∈ s.input, (Table.at s.code b).len ≠ 0#8)
include hc ht fits coded

/-- R187: with a code for every byte and a place for every byte of the stream PACK leaves the stream behind the tree. -/
theorem packBody_of_room
    (room : 2 + s.hdr.tsize.toNat + (packBytes (bitsOf s.code s.input)).length ≤ s.params.obufCap.toNat) :
    ∃ w o, packBody s = .ok { s with
      obuf := Mem.setMany s.obuf (2 + s.hdr.tsize.toNat) (packBytes (bitsOf s.code s.input))
      dstLen := BitVec.ofNat 32 (2 + s.hdr.tsize.toNat + (packBytes (bitsOf s.code s.input)).length)
      work := w
      ownBytes := o } := by
  have start : (packStart s).work.opos.toNat = 2 + s.hdr.tsize.toNat := streamStart_toNat _
  obtain ⟨i, loop⟩ := packInput_packStart coded
  obtain ⟨v, ends, obuf⟩ := packAll_packFlush_ok (s := (packStart s).atIpos i) (start ▸ room)
  obtain ⟨w, o, body⟩ := packBody_of_ok hc ht fits (loop ▸ ends)
  rw [body, obuf, ← start]
  exact ⟨w, o, rfl⟩

theorem packBody_of_noRoom (stream : packBytes (bitsOf s.code s.input) ≠ [])
    (noRoom : s.params.obufCap.toNat < 2 + s.hdr.tsize.toNat + (packBytes (bitsOf s.code s.input)).length) :
    packBody s = .error .allocationFailure := by
  have start : (packStart s).work.opos.toNat = 2 + s.hdr.tsize.toNat := streamStart_toNat _
  obtain ⟨i, loop⟩ := packInput_packStart coded
  refine packBody_of_error hc ht fits ?_
  exact loop ▸ packAll_packFlush_error (s := (packStart s).atIpos i) stream (start ▸ noRoom)

end

/-! ## The stages of COMP -/

/-- After FREQ, BUILD, CGEN and PADC (R210): the four tables of the input, with its tree `t`. -/
def State.withTables (s : State) (t : Tree) : State :=
  { s with
    freq := countTable s.input
    tree := some t
    pq := []
    code := codeTable t
    hdr := { s.hdr with pad := padOf (countTable s.input) (codeTable t) }
    work := { s.work with path := [], tstack := [] }
    status := s.status.afterFreq.afterBuild.afterCgen.afterPadc }

/-- After TSER and HENC as well (R210): the file's header and tree are in OBUF. -/
def State.withFront (s : State) (t : Tree) : State :=
  { s.withTables t with
    obuf := Mem.set (Mem.set (Mem.setMany s.obuf 2 t.ser) 0 (fileHdr s.input t).hiByte) 1 (fileHdr s.input t).loByte
    hdr := fileHdr s.input t
    work := { s.work with path := [], tstack := [], tpos := BitVec.ofNat 13 t.ser.length }
    ownBytes := Own.add 0 2 (Own.add 2 t.ser.length s.ownBytes)
    status := (s.withTables t).status.afterTser }

/-- COMP from TSER on (R210). -/
def compRest (s : State) : Res := do
  let s ← tserBody s
  let s ← hencBody s
  let s ← packBody s
  .ok { s with ownBytes := Own.drop 0 s.dstLen.toNat s.ownBytes }

section

variable {s : State} {t : Tree} (fits : s.SourceFits) (built : builtTree (countTable s.input) = some t)

include fits built in
/-- FREQ, BUILD, CGEN and PADC one after the other (R210). -/
theorem units_withTables : ∃ s₁ s₂ s₃, freqBody s = .ok s₁ ∧ buildBody s₁ = .ok s₂ ∧ cgenBody s₂ = .ok s₃ ∧
    padcBody s₃ = .ok (s.withTables t) := by
  obtain ⟨e, q, queue, rfl⟩ : ∃ e q, builtQueue (countTable s.input) = e :: q ∧ e.tree = t := by
    cases queue : builtQueue (countTable s.input) with
    | nil => simp [builtTree, queue] at built
    | cons e q => exact ⟨e, q, rfl, by simpa [builtTree, queue] using built⟩
  have freq : freqBody s = .ok { s with freq := countTable s.input, status := s.status.afterFreq } :=
    freqBody_ok.2 ⟨fits, by rw [countInto_zero]⟩
  exact ⟨_, _, _, freq, buildBody_ok.2 ⟨rfl, e, q, queue, rfl⟩, cgenBody_ok.2 ⟨rfl, rfl, e.tree, rfl, rfl⟩,
    padcBody_ok.2 ⟨rfl, rfl, rfl⟩⟩

include fits built in
theorem compBody_eq_compRest (h : s.srcLen ≠ 0#32) : compBody s = compRest (s.withTables t) := by
  obtain ⟨s₁, s₂, s₃, freq, build, cgen, padc⟩ := units_withTables fits built
  unfold compBody
  rw [if_neg h, freq, res_bind_ok, build, res_bind_ok, cgen, res_bind_ok, padc, res_bind_ok, compRest]

include built in
theorem tserBody_withTables (room : 2 + t.ser.length ≤ s.params.obufCap.toNat) :
    (tserBody (s.withTables t) >>= hencBody) = .ok (s.withFront t) := by
  have size := ser_length_le (builtTree_leaves_nodup built)
  rw [tserBody_ok (s := s.withTables t).2 ⟨rfl, t, rfl, by omega, room, rfl⟩, res_bind_ok]
  exact hencBody_ok.2 ⟨rfl, rfl, Nat.le_trans (Nat.le_add_right _ _) room, rfl⟩

include built in
theorem compRest_of_noTreeRoom (noRoom : s.params.obufCap.toNat < 2 + t.ser.length) :
    compRest (s.withTables t) = .error .allocationFailure := by
  have size := ser_length_le (builtTree_leaves_nodup built)
  have tser : tserBody (s.withTables t) = .error .allocationFailure :=
    tserBody_of_writeTree_error rfl rfl (writeTree_alloc _ _ (show s.params.obufCap.toNat < _ by omega) (Nat.zero_le _)
      noRoom (.inr ⟨Nat.zero_lt_succ _, ser_ne_nil t⟩))
  rw [compRest, tser, res_bind_error]

include built in
theorem compRest_withTables (room : 2 + t.ser.length ≤ s.params.obufCap.toNat) :
    compRest (s.withTables t) = (packBody (s.withFront t) >>= fun u =>
      .ok { u with ownBytes := Own.drop 0 u.dstLen.toNat u.ownBytes }) := by
  obtain ⟨u, tser, henc⟩ := res_bind_eq_ok.1 (tserBody_withTables built room)
  rw [compRest, tser, res_bind_ok, henc, res_bind_ok]

/-! ## What COMP answers -/

/-- `STATUS` after COMP (R210). -/
def compFlags : Status :=
  { done := true, err := none, freqV := true, treeV := true, treeBuilt := true, codeV := true, padV := true,
    tszV := true }

/-- The state in which COMP's body ends without error (R210), its tree `t`. -/
def State.compDone (s : State) (t : Tree) (w : Work) (o : List Nat) : State :=
  { s with
    freq := countTable s.input
    tree := some t
    pq := []
    code := codeTable t
    hdr := fileHdr s.input t
    obuf := Mem.setMany (s.withFront t).obuf (2 + t.ser.length) (fileStream s.input t)
    dstLen := BitVec.ofNat 32 (compressed s.input).length
    work := w
    ownBytes := o
    status := { compFlags with done := false } }

include fits built

theorem compBody_of_noRoom (h : s.srcLen ≠ 0#32) (noRoom : s.params.obufCap.toNat < (compressed s.input).length) :
    compBody s = .error .allocationFailure := by
  have length := length_compressed built
  rw [compBody_eq_compRest fits built h]
  by_cases treeRoom : 2 + t.ser.length ≤ s.params.obufCap.toNat
  · have size : (s.withFront t).hdr.tsize.toNat = t.ser.length := tsize_toNat built
    have stream : fileStream s.input t ≠ [] := fun empty => by
      rw [empty, List.length_nil] at length
      omega
    have pack : packBody (s.withFront t) = .error .allocationFailure :=
      packBody_of_noRoom rfl rfl fits (fun b hb => input_coded built hb) stream (size ▸ length ▸ noRoom)
    rw [compRest_withTables built treeRoom, pack, res_bind_error]
  · exact compRest_of_noTreeRoom built (Nat.lt_of_not_le treeRoom)

theorem compBody_of_room (hs : s.status.done = false ∧ s.status.err = none) (h : s.srcLen ≠ 0#32)
    (room : (compressed s.input).length ≤ s.params.obufCap.toNat) : ∃ w o, compBody s = .ok (s.compDone t w o) := by
  have size : (s.withFront t).hdr.tsize.toNat = t.ser.length := tsize_toNat built
  have length := length_compressed built
  have flags : (s.withFront t).status = { compFlags with done := false } := by
    simp [State.withFront, State.withTables, compFlags, hs, Status.afterFreq, Status.afterBuild, Status.afterCgen,
      Status.afterPadc, Status.afterTser]
  obtain ⟨w, o, pack⟩ := packBody_of_room (s := s.withFront t) rfl rfl fits (fun b hb => input_coded built hb)
    (size ▸ length ▸ room)
  rw [compBody_eq_compRest fits built h, compRest_withTables built (by omega), pack, res_bind_ok, size, flags]
  exact ⟨w, _, by rw [State.compDone, length]; rfl⟩

end

theorem exec_comp_of_room {s : State} (hr : s.Ready) (nonempty : s.srcLen ≠ 0#32) (fits : s.SourceFits)
    (room : (compressed s.input).length ≤ s.params.obufCap.toNat) : ∃ t w o, builtTree (countTable s.input) = some t ∧
      exec .comp s = .next (s.accept.compDone t w o).finish := by
  obtain ⟨t, built⟩ := exists_builtTree_input (mt input_eq_nil_iff.1 nonempty)
  obtain ⟨w, o, body⟩ := compBody_of_room (s := s.accept) fits built ⟨rfl, hr.2⟩ nonempty room
  exact ⟨t, w, o, built, runCommand_of_ok hr body⟩

end Sys2Proof.Machine

namespace Sys2Proof.Proofs

open Sys2Proof Sys2Proof.Machine

/-- Settles O39: FREQ to PADC make the tables of the input; TSER, HENC and PACK write the file, or TSER or PACK meets
its first byte without a place. -/
theorem compProducesTheFile : Obligations.CompProducesTheFile := by
  unfold Obligations.CompProducesTheFile
  intro s hr
  refine ⟨fun empty => ?_, fun nonempty tooLong => ?_, fun nonempty fits noRoom => ?_, fun nonempty fits room => ?_⟩
  · exact runCommand_of_error hr (compBody_error.2 (.inl ⟨empty, rfl⟩))
  · have source : freqBody s.accept = .error .allocationFailure := freqBody_error.2 ⟨Nat.lt_of_not_le tooLong, rfl⟩
    exact runCommand_of_error hr (compBody_error.2 (.inr ⟨nonempty, .inl source⟩))
  · obtain ⟨t, built⟩ := exists_builtTree_input (mt input_eq_nil_iff.1 nonempty)
    exact runCommand_of_error hr (compBody_of_noRoom (s := s.accept) fits built nonempty noRoom)
  · obtain ⟨t, w, o, built, ends⟩ := exec_comp_of_room hr nonempty fits room
    have distinct := builtTree_leaves_nodup built
    exact ⟨t, codeTable t, (s.accept.compDone t w o).obuf, w, o, built, ends,
      codeTable_entry distinct (Tree.depth_le_of_nodup distinct), get_file built s.obuf⟩

/-- Settles O44: an idle engine carries CLR out, whatever `ERROR` is. -/
theorem clrRestoresTheResetState : Obligations.ClrRestoresTheResetState := by
  unfold Obligations.ClrRestoresTheResetState
  intro s idle
  have accepted : exec .clr s = .next s.clear := if_neg (by simp [idle])
  have zeros : ∀ r, State.csrRead (State.clear { s with srcLen := 0#32 }) r = 0#32 :=
    csrRead_zero rfl rfl rfl rfl rfl rfl
  refine ⟨s.clear, accepted, ?_, ?_, rfl, rfl, rfl, rfl, rfl, rfl, rfl, rfl, fun r h => ?_, fun j => ?_⟩
  · simp [State.statusWord, State.busy, Status.zero]
  · simp [State.hdrRead, Hdr.word]
  · cases r with
    | srcLen => exact absurd rfl h
    | cmd => exact zeros .cmd
    | status => exact zeros .status
    | hdr => exact zeros .hdr
    | dstLen => exact zeros .dstLen
  · simp [State.obufValid]

end Sys2Proof.Proofs
end

section
/-! SUPPORT. DECOMP (R211): the state after each of its three units, and what it answers in terms of the header, tree
and stream it reads. -/

namespace Sys2Proof.Machine

/-- After HDEC has read the header `h` (R179). -/
def State.headerRead (s : State) (h : Hdr) : State := { s with hdr := h, status := s.status.afterHdec }

/-- After TDES has read the tree `t` as well (R147). -/
def State.treeRead (s : State) (h : Hdr) (t : Tree) : State :=
  { (s.headerRead h).treeAt [] (some t) [] with status := (s.headerRead h).status.afterTdes }

/-- `STATUS` after DECOMP (R211). -/
def decompFlags : Status :=
  { done := true, err := none, freqV := false, treeV := true, treeBuilt := false, codeV := false, padV := true,
    tszV := true }

section

variable {s : State} {h : Hdr} {t : Tree} (fits : s.SourceFits) (header : headerOf (s.ibufByte 0) (s.ibufByte 1) = h)
include fits header

theorem decompBody_of_inconsistent (bad : hdrConsistent h.pad.toNat h.tsize.toNat s.srcLen.toNat = false) :
    decompBody s = .error .malformedHeader :=
  decompBody_error.2 (.inl (hdecBody_error.2 (.inr ⟨fits, by rw [header]; exact bad, rfl⟩)))

variable (consistent : hdrConsistent h.pad.toNat h.tsize.toNat s.srcLen.toNat = true)
include consistent

/-- HDEC, then TDES from its first token on. -/
theorem decompBody_eq_readFromRoot : decompBody s = ((s.headerRead h).readFromRoot >>= unpkBody) := by
  have hdec : hdecBody s = .ok (s.headerRead h) :=
    hdecBody_ok.2 ⟨fits, by rw [header]; exact consistent, by rw [header]; rfl⟩
  obtain ⟨-, declared, -⟩ := hdrConsistent_iff.1 consistent
  rw [decompBody, hdec, res_bind_ok, tdesBody_eq_readFromRoot (s := s.headerRead h) rfl fits declared]

theorem decompBody_of_des_none (bad : des (s.headerRead h).treeInput = none) :
    decompBody s = .error .malformedTree := by
  rw [decompBody_eq_readFromRoot fits header consistent, readFromRoot_of_des_none bad, res_bind_error]

theorem decompBody_of_des_some (good : des (s.headerRead h).treeInput = some t) :
    decompBody s = unpkBody (s.treeRead h t) := by
  rw [decompBody_eq_readFromRoot fits header consistent, readFromRoot_of_des_some good, res_bind_ok]
  rfl

omit header in
/-- After HDEC and TDES UNPK's tests are met. -/
theorem streamEntry_treeRead : streamEntry (s.treeRead h t) = .ok (streamStart t (s.treeRead h t)) :=
  streamEntry_ok.2 ⟨rfl, rfl, rfl, fits, consistent, t, rfl, rfl⟩

end

end Sys2Proof.Machine

namespace Sys2Proof.Proofs

open Sys2Proof Sys2Proof.Machine

/-- Settles O40: HDEC and TDES answer as on their own, and leave what UNPK needs. -/
theorem decompExpandsTheFile : Obligations.DecompExpandsTheFile := by
  unfold Obligations.DecompExpandsTheFile
  intro s u pad tsize hr number hu
  have header : headerOf (s.accept.ibufByte 0) (s.accept.ibufByte 1) = { pad := pad, tsize := tsize } :=
    headerOf_unique number
  subst hu
  refine ⟨fun tooLong => ?_, fun fits bad => ?_, fun fits consistent => ⟨fun bad => ?_, fun t good stuck => ?_,
    fun t out good decoded noRoom => ?_, fun t out good decoded room => ?_⟩⟩
  · have hdec : hdecBody s.accept = .error .allocationFailure := hdecBody_error.2 (.inl ⟨Nat.lt_of_not_le tooLong, rfl⟩)
    exact runCommand_of_error hr (decompBody_error.2 (.inl hdec))
  · exact runCommand_of_error hr (decompBody_of_inconsistent (s := s.accept) fits header bad)
  · exact runCommand_of_error hr (decompBody_of_des_none (s := s.accept) fits header consistent bad)
  all_goals
    have body := decompBody_of_des_some (s := s.accept) (t := t) fits header consistent good
    have entry := streamEntry_treeRead (s := s.accept) (h := ⟨pad, tsize⟩) (t := t) fits consistent
  · refine ⟨fun room => ?_, fun noRoom => ?_⟩
    · exact runCommand_of_error hr (body.trans (unpkBody_of_unpackBits_none rfl entry stuck room))
    · exact runCommand_of_error hr (body.trans (unpkBody_of_noRoom rfl entry noRoom))
  · rw [← emitsOf_of_unpackBits decoded] at noRoom
    exact runCommand_of_error hr (body.trans (unpkBody_of_noRoom rfl entry noRoom))
  · obtain ⟨w, o, unpk⟩ := unpkBody_of_unpackBits_some rfl entry decoded room
    have ends := runCommand_of_ok hr (body.trans unpk)
    have flags : { (s.accept.treeRead ⟨pad, tsize⟩ t).status with done := true } = decompFlags := by
      simp [State.treeRead, State.headerRead, decompFlags, Status.afterHdec, Status.afterTdes, hr.2]
    refine ⟨Mem.setMany s.obuf 0 out, w, o, ?_, fun j => ?_⟩
    · rw [State.finish, flags] at ends
      exact ends
    · simp [Mem.get_setMany]

end Sys2Proof.Proofs
end

section
/-! SUPPORT. COMP and DECOMP as functions of the input bytes and the capacities (R216): what each answers, and that the
second undoes the first (R213). -/

namespace Sys2Proof.Machine

/-! ## The parts of a compressed buffer -/

/-- The header in the first two bytes (R94). -/
def headerIn (bytes : List Byte) : Hdr := headerOf (bytes.getD 0 0#8) (bytes.getD 1 0#8)

/-- The declared tree bytes (R144). -/
def treeIn (bytes : List Byte) : List Byte := (bytes.drop 2).take (headerIn bytes).tsize.toNat

/-- The stream bits to consume (R195, R196). -/
def streamIn (bytes : List Byte) : List Bool :=
  (bitsOfBytes (bytes.drop (2 + (headerIn bytes).tsize.toNat))).take
    (streamBits (headerIn bytes).pad.toNat (headerIn bytes).tsize.toNat bytes.length)

/-- `HdrConsistent` (R178) of a buffer. -/
def consistentIn (bytes : List Byte) : Bool :=
  hdrConsistent (headerIn bytes).pad.toNat (headerIn bytes).tsize.toNat bytes.length

/-- R195 without its case for the empty stream. -/
theorem streamBits_eq (pad tsize n : Nat) : streamBits pad tsize n = 8 * (n - 2 - tsize) - pad := by
  simp only [streamBits]
  split <;> omega

/-- Bit `k` of a byte sequence stands in byte `k / 8` (R63). -/
theorem bitsOfBytes_getElem? (bytes : List Byte) (k : Nat) :
    (bitsOfBytes bytes)[k]? = (bytes[k / 8]?).map fun b => b.getLsbD (7 - k % 8) := by
  induction bytes generalizing k with
  | nil => simp [bitsOfBytes]
  | cons b bs ih =>
    have parts : bitsOfBytes (b :: bs) = (List.range 8).map (fun j => b.getLsbD (7 - j)) ++ bitsOfBytes bs := rfl
    rw [parts]
    by_cases first : k < 8
    · rw [List.getElem?_append_left (by simpa using first), Nat.div_eq_of_lt first, Nat.mod_eq_of_lt first]
      simp [first]
    · obtain ⟨k, rfl⟩ := Nat.exists_eq_add_of_le (Nat.le_of_not_lt first)
      rw [List.getElem?_append_right (by simp), show (8 + k) / 8 = k / 8 + 1 by omega, List.getElem?_cons_succ,
        show (8 + k) % 8 = k % 8 by omega, ← ih]
      simp

section

variable {s : State} {h : Hdr}

theorem input_getElem? {k : Nat} (hk : k < s.srcLen.toNat) : s.input[k]? = some (s.ibufByte k) := by
  simp [State.input, hk]

theorem headerIn_input (two : 2 ≤ s.srcLen.toNat) : headerIn s.input = headerOf (s.ibufByte 0) (s.ibufByte 1) := by
  rw [headerIn, List.getD_eq_getElem?_getD, List.getD_eq_getElem?_getD, input_getElem? (by omega),
    input_getElem? (by omega)]
  rfl

/-- HDEC's test, which fails where the input has no two bytes. -/
theorem consistentIn_input (header : headerOf (s.ibufByte 0) (s.ibufByte 1) = h) :
    consistentIn s.input = hdrConsistent h.pad.toNat h.tsize.toNat s.srcLen.toNat := by
  by_cases two : 2 ≤ s.srcLen.toNat
  · rw [consistentIn, headerIn_input two, header, input_length]
  · rw [Bool.eq_iff_iff, consistentIn, hdrConsistent_iff, hdrConsistent_iff, input_length]
    exact iff_of_false (fun c => two c.1) (fun c => two c.1)

/-- The tree bytes TDES reads. -/
theorem treeInput_eq_treeIn (header : headerIn s.input = h) (declared : 2 + h.tsize.toNat ≤ s.srcLen.toNat) :
    State.treeInput { s with hdr := h } = treeIn s.input := by
  have declares : State.treeInput { s with hdr := h } =
      (List.range h.tsize.toNat).map fun k => s.ibufByte (2 + k) := rfl
  refine List.ext_getElem? fun k => ?_
  rw [declares, treeIn, header, List.getElem?_take, List.getElem?_drop, List.getElem?_map]
  split
  · next inside => rw [input_getElem? (by omega), List.getElem?_range inside, Option.map_some]
  · next outside => rw [List.getElem?_eq_none (by simpa using outside), Option.map_none]

/-- The stream bits UNPK reads. -/
theorem streamInput_eq_streamIn (header : headerIn s.input = h) :
    State.streamInput { s with hdr := h } = streamIn s.input := by
  have consumes : State.streamInput { s with hdr := h } =
      (List.range (streamBits h.pad.toNat h.tsize.toNat s.srcLen.toNat)).map fun k =>
        (s.ibufByte (2 + h.tsize.toNat + k / 8)).getLsbD (7 - k % 8) := rfl
  refine List.ext_getElem? fun k => ?_
  rw [consumes, streamIn, header, input_length, List.getElem?_take, bitsOfBytes_getElem?, List.getElem?_drop,
    List.getElem?_map]
  split
  · next inside =>
    have bound := streamBits_eq h.pad.toNat h.tsize.toNat s.srcLen.toNat
    rw [input_getElem? (by omega), List.getElem?_range inside, Option.map_some, Option.map_some]
  · next outside => rw [List.getElem?_eq_none (by simpa using outside), Option.map_none]

end

/-! ## Both directions as functions -/

/-- What COMP makes of an input within the capacities (R210): the header and the file, or the error. -/
def compressIn (p : Params) (bytes : List Byte) : Except ErrKind (Hdr × List Byte) :=
  if bytes = [] then .error .emptyInput
  else if p.ibufCap.toNat < bytes.length ∨ p.obufCap.toNat < (compressed bytes).length then .error .allocationFailure
  else .ok (headerIn (compressed bytes), compressed bytes)

/-- What DECOMP makes of an input within the capacities (R211): the header and the decoded bytes, or the first error. -/
def expandIn (p : Params) (bytes : List Byte) : Except ErrKind (Hdr × List Byte) :=
  if p.ibufCap.toNat < bytes.length then .error .allocationFailure
  else if consistentIn bytes = false then .error .malformedHeader
  else match des (treeIn bytes) with
    | none => .error .malformedTree
    | some t =>
      if p.obufCap.toNat < (emitsOf t (streamIn bytes)).length then .error .allocationFailure
      else match unpackBits t (streamIn bytes) with
        | none => .error .malformedStream
        | some out => .ok (headerIn bytes, out)

theorem compressIn_ok {p : Params} {bytes out : List Byte} {h : Hdr} (ok : compressIn p bytes = .ok (h, out)) :
    bytes ≠ [] ∧ bytes.length ≤ p.ibufCap.toNat ∧ (compressed bytes).length ≤ p.obufCap.toNat := by
  unfold compressIn at ok
  split at ok
  · cases ok
  next nonempty =>
  split at ok
  · cases ok
  next within =>
  rw [not_or, Nat.not_lt, Nat.not_lt] at within
  exact ⟨nonempty, within⟩

/-- A byte with a code has at least one code bit. -/
theorem length_le_bitsOf {code : Table Code} {bytes : List Byte} (coded : ∀ b ∈ bytes, (Table.at code b).len ≠ 0#8) :
    bytes.length ≤ (bitsOf code bytes).length := by
  rw [bitsOf, List.length_flatMap, ← List.length_map (f := fun b => (Table.at code b).bits.length)]
  refine List.length_le_sum_of_one_le _ fun n hn => ?_
  obtain ⟨b, hb, rfl⟩ := List.mem_map.1 hn
  rw [Code.length_bits]
  exact Nat.pos_of_ne_zero fun h => coded b hb (BitVec.eq_of_toNat_eq h)

/-- A code has at most 255 bits (R31). -/
theorem bitsOf_length_le (code : Table Code) (bytes : List Byte) : (bitsOf code bytes).length ≤ 255 * bytes.length := by
  rw [bitsOf, List.length_flatMap, Nat.mul_comm, ← List.length_map (f := fun b => (Table.at code b).bits.length)]
  refine List.sum_le_card_nsmul _ 255 fun n hn => ?_
  obtain ⟨b, -, rfl⟩ := List.mem_map.1 hn
  rw [Code.length_bits]
  exact Nat.le_of_lt_succ (Table.at code b).len.isLt

/-- The walk emits at most one byte per bit. -/
theorem Walks.length_le {t c : Tree} {bits : List Bool} {out : List Byte} {last : Option Tree}
    (walk : Walks t c bits out last) : out.length ≤ bits.length := by
  induction walk with
  | done | stuck => exact Nat.zero_le _
  | move _ _ ih => exact Nat.le_succ_of_le ih
  | emit _ _ ih => exact Nat.succ_le_succ ih

theorem length_le_of_unpackBits {t : Tree} {bits : List Bool} {out : List Byte} (h : unpackBits t bits = some out) :
    out.length ≤ bits.length := by
  obtain ⟨last, walk, -⟩ := walks_unpackBits t bits
  exact emitsOf_of_unpackBits h ▸ walk.length_le

/-- R214: the header returned is the input's, and there is at most one decoded byte per stream bit. -/
theorem expandIn_ok {p : Params} {bytes out : List Byte} {h : Hdr} (ok : expandIn p bytes = .ok (h, out)) :
    h = headerIn bytes ∧ out.length ≤ (streamIn bytes).length := by
  unfold expandIn at ok
  split at ok
  · cases ok
  split at ok
  · cases ok
  split at ok
  · cases ok
  split at ok
  · cases ok
  split at ok
  · cases ok
  · next decoded =>
    cases ok
    exact ⟨rfl, length_le_of_unpackBits decoded⟩

/-! ## The round trip -/

section

variable {bytes : List Byte} {t : Tree} (built : builtTree (countTable bytes) = some t)
include built

theorem headerIn_compressed : headerIn (compressed bytes) = fileHdr bytes t := by
  rw [compressed_eq built]
  exact headerOf_bytes (fileHdr bytes t)

theorem treeIn_compressed : treeIn (compressed bytes) = t.ser := by
  have size : (fileHdr bytes t).tsize.toNat = t.ser.length := tsize_toNat built
  rw [treeIn, headerIn_compressed built, size, compressed_eq built]
  simp

theorem streamIn_compressed : streamIn (compressed bytes) = (bitsOfBytes (fileStream bytes t)).take
    (8 * (fileStream bytes t).length - (fileHdr bytes t).pad.toNat) := by
  have size : (fileHdr bytes t).tsize.toNat = t.ser.length := tsize_toNat built
  have behind : (compressed bytes).drop (2 + t.ser.length) = fileStream bytes t := by
    rw [compressed_eq built, Nat.add_comm, List.drop_succ_cons, List.drop_succ_cons, List.drop_left]
  have consumed : streamBits (fileHdr bytes t).pad.toNat t.ser.length (compressed bytes).length =
      8 * (fileStream bytes t).length - (fileHdr bytes t).pad.toNat := by
    rw [streamBits_eq, length_compressed built]
    omega
  rw [streamIn, headerIn_compressed built, size, behind, consumed]

end

theorem consistentIn_compressed {s : State} {t : Tree} (built : builtTree (countTable s.input) = some t) :
    consistentIn (compressed s.input) = true := by
  have size : (fileHdr s.input t).tsize.toNat = t.ser.length := tsize_toNat built
  have pad : (fileHdr s.input t).pad.toNat = _ := padOf_eq (countTable s.input) (codeTable t)
  have stream : (fileStream s.input t).length = _ := length_packBytes (bitsOf (codeTable t) s.input)
  rw [encodedBits_countTable] at pad
  rw [consistentIn, headerIn_compressed built, hdrConsistent_iff, length_compressed built, size]
  omega

/-- R213: expanding a file gives back what was compressed. -/
theorem expandIn_compressed {s : State} {p : Params} (nonempty : s.input ≠ [])
    (source : (compressed s.input).length ≤ p.ibufCap.toNat) (room : s.input.length ≤ p.obufCap.toNat) :
    expandIn p (compressed s.input) = .ok (headerIn (compressed s.input), s.input) := by
  obtain ⟨t, built⟩ := exists_builtTree_input nonempty
  have short : s.input.length < 2 ^ 32 := by rw [input_length]; exact s.srcLen.isLt
  have tree : des (treeIn (compressed s.input)) = some t := by
    rw [treeIn_compressed built]
    exact Proofs.treeCodecsAreInverse.1 t
  have decoded : unpackBits t (streamIn (compressed s.input)) = some s.input := by
    rw [streamIn_compressed built]
    exact Proofs.unpackUndoesPack s.input t nonempty short built
  unfold expandIn
  simp only [if_neg (Nat.not_lt.2 source), consistentIn_compressed built, reduceCtorEq, if_false, tree,
    emitsOf_of_unpackBits decoded, if_neg (Nat.not_lt.2 room), decoded]

end Sys2Proof.Machine
end

section
/-! SUPPORT. What COMP and DECOMP leave for the host, read off those functions. -/

namespace Sys2Proof.Machine

/-- What an operation leaves for the host: the engine idle, `STATUS`, `HDR`, and `out` as the valid part of OBUF. -/
structure State.Delivers (t : State) (flags : Status) (h : Hdr) (out : List Byte) : Prop where
  idle : t.job = .idle
  status : t.status = flags
  hdr : t.hdr = h
  dstLen : t.dstLen.toNat = out.length
  bytes : ∀ j, j < out.length → out[j]? = some (t.obufByte j)

/-- The end `t` of an operation that began in `s`: what it delivers, or the error entry. -/
def EndsAs (s t : State) (flags : Status) : Except ErrKind (Hdr × List Byte) → Prop
  | .error e => t = s.accept.raise e
  | .ok (h, out) => t.Delivers flags h out

/-- Bytes stored below `DST_LEN` are delivered (R61). -/
theorem State.delivers_of_obuf {t : State} {flags : Status} {h : Hdr} {out : List Byte} {cap : Word}
    (idle : t.job = .idle) (status : t.status = flags) (hdr : t.hdr = h) (room : out.length ≤ cap.toNat)
    (dstLen : t.dstLen = BitVec.ofNat 32 out.length) (obuf : ∀ j, j < out.length → Mem.get t.obuf j = out[j]?) :
    t.Delivers flags h out := by
  have length : t.dstLen.toNat = out.length := by
    have := cap.isLt
    rw [dstLen, BitVec.toNat_ofNat]
    omega
  refine ⟨idle, status, hdr, length, fun j hj => ?_⟩
  have stored : Mem.get t.obuf j = some out[j] := by rw [obuf j hj, List.getElem?_eq_getElem hj]
  rw [obufByte_listed (State.obufValid_iff.2 (.inl (length ▸ hj))) stored, List.getElem?_eq_getElem hj]

theorem EndsAs.ok_of_done {s t : State} {flags : Status} {r : Except ErrKind (Hdr × List Byte)} (h : EndsAs s t flags r)
    (done : t.status.done = true) : ∃ hdr out, r = .ok (hdr, out) ∧ t.Delivers flags hdr out := by
  match r, h with
  | .error e, h => rw [h] at done; cases done
  | .ok (hdr, out), h => exact ⟨hdr, out, rfl, h⟩

/-! ## COMP -/

theorem compDone_delivers {s : State} {t : Tree} (built : builtTree (countTable s.input) = some t)
    (room : (compressed s.input).length ≤ s.params.obufCap.toNat) (w : Work) (o : List Nat) :
    (s.compDone t w o).finish.Delivers compFlags (headerIn (compressed s.input)) (compressed s.input) :=
  State.delivers_of_obuf rfl rfl (headerIn_compressed built).symm room rfl fun j hj =>
    (get_file built s.obuf j).trans (if_pos hj)

/-- R210: everything COMP can leave for the host. -/
theorem comp_endsAs {s t : State} (hr : s.Ready) (h : exec .comp s = .next t) :
    EndsAs s t compFlags (compressIn s.params s.input) := by
  have ends {t' : State} (h' : exec .comp s = .next t') : t = t' := Host.Outcome.next.inj (h.symm.trans h')
  obtain ⟨empty, tooLong, noRoom, -⟩ := Proofs.compProducesTheFile s hr
  unfold compressIn
  split
  · next blank => exact ends (empty (input_eq_nil_iff.1 blank))
  next nonempty =>
  replace nonempty := mt input_eq_nil_iff.2 nonempty
  split
  · next excess =>
    by_cases fits : s.SourceFits
    · exact ends (noRoom nonempty fits (excess.resolve_left (by rw [input_length]; exact Nat.not_lt.2 fits)))
    · exact ends (tooLong nonempty fits)
  · next within =>
    rw [not_or, Nat.not_lt, Nat.not_lt, input_length] at within
    obtain ⟨fits, room⟩ := within
    obtain ⟨r, w, o, built, done⟩ := exec_comp_of_room hr nonempty fits room
    rw [ends done]
    exact compDone_delivers (s := s.accept) built room w o

/-- COMP where it ends with `DONE` = 1. -/
theorem comp_done {s t : State} (hr : s.Ready) (h : exec .comp s = .next t) (done : t.status.done = true) :
    s.input ≠ [] ∧ (compressed s.input).length ≤ s.params.obufCap.toNat ∧
      ∃ r w o, builtTree (countTable s.input) = some r ∧ t = (s.accept.compDone r w o).finish := by
  obtain ⟨hdr, out, ok, -⟩ := (comp_endsAs hr h).ok_of_done done
  obtain ⟨nonempty, fits, room⟩ := compressIn_ok ok
  rw [input_length] at fits
  obtain ⟨r, w, o, built, ends⟩ := exec_comp_of_room hr (mt input_eq_nil_iff.2 nonempty) fits room
  exact ⟨nonempty, room, r, w, o, built, Host.Outcome.next.inj (h.symm.trans ends)⟩

/-! ## DECOMP -/

/-- R211: everything DECOMP can leave for the host. -/
theorem decomp_endsAs {s t : State} (hr : s.Ready) (h : exec .decomp s = .next t) :
    EndsAs s t decompFlags (expandIn s.params s.input) := by
  have ends {t' : State} (h' : exec .decomp s = .next t') : t = t' := Host.Outcome.next.inj (h.symm.trans h')
  obtain ⟨tooLong, bad, good⟩ := Proofs.decompExpandsTheFile s _ _ _ hr
    (headerOf_toNat (s.ibufByte 0) (s.ibufByte 1)) rfl
  unfold expandIn
  rw [input_length, consistentIn_input rfl]
  split
  · next long => exact ends (tooLong (Nat.not_le.2 long))
  next short =>
  have fits : s.SourceFits := Nat.le_of_not_lt short
  split
  · next inconsistent => exact ends (bad fits inconsistent)
  next consistent =>
  replace consistent := Bool.eq_true_of_not_eq_false consistent
  obtain ⟨two, declared, -⟩ := hdrConsistent_iff.1 consistent
  have header := headerIn_input two
  obtain ⟨noTree, stuck, noRoom, decoded⟩ := good fits consistent
  simp only [treeInput_eq_treeIn header declared, streamInput_eq_streamIn header] at noTree stuck noRoom decoded
  split
  · next bad => exact ends (noTree bad)
  next r tree =>
  split
  · next excess =>
    cases result : unpackBits r (streamIn s.input) with
    | none => exact ends ((stuck r tree result).2 excess)
    | some out => exact ends (noRoom r out tree result (emitsOf_of_unpackBits result ▸ excess))
  next within =>
  split
  · next result => exact ends ((stuck r tree result).1 (Nat.le_of_not_lt within))
  · next out result =>
    have room : out.length ≤ s.params.obufCap.toNat := by
      rw [← emitsOf_of_unpackBits result]
      exact Nat.le_of_not_lt within
    obtain ⟨m, w, o, done, stored⟩ := decoded r out tree result room
    rw [ends done]
    exact State.delivers_of_obuf rfl rfl header.symm room rfl fun j hj => (stored j).trans (if_pos hj)

/-! ## Two machines -/

/-- R216: two machines in which an operation has the same end look the same to the host. -/
theorem EndsAs.same {s₁ s₂ t₁ t₂ : State} {flags : Status} {r : Except ErrKind (Hdr × List Byte)}
    (h₁ : EndsAs s₁ t₁ flags r) (h₂ : EndsAs s₂ t₂ flags r) :
    t₁.statusWord = t₂.statusWord ∧ t₁.dstLen = t₂.dstLen ∧ (t₁.status.err = none → t₁.hdr = t₂.hdr) ∧
      ∀ j, j < t₁.dstLen.toNat → t₁.obufByte j = t₂.obufByte j := by
  cases r with
  | error e =>
    obtain rfl : t₁ = _ := h₁
    obtain rfl : t₂ = _ := h₂
    exact ⟨rfl, rfl, nofun, fun j hj => absurd hj (Nat.not_lt_zero j)⟩
  | ok d =>
    obtain ⟨hdr, out⟩ := d
    obtain ⟨idle₁, status₁, hdr₁, dstLen₁, bytes₁⟩ := h₁
    obtain ⟨idle₂, status₂, hdr₂, dstLen₂, bytes₂⟩ := h₂
    refine ⟨?_, BitVec.eq_of_toNat_eq (dstLen₁.trans dstLen₂.symm), fun _ => hdr₁.trans hdr₂.symm, fun j hj => ?_⟩
    · simp only [State.statusWord, State.busy, idle₁, idle₂, status₁, status₂]
    · rw [dstLen₁] at hj
      exact Option.some.inj ((bytes₁ j hj).symm.trans (bytes₂ j hj))

end Sys2Proof.Machine

namespace Sys2Proof.Proofs

open Sys2Proof Sys2Proof.Machine

/-- Settles O41: the second machine's input is the file, and expanding a file gives back what was compressed. -/
theorem decompUndoesComp : Obligations.DecompUndoesComp := by
  unfold Obligations.DecompUndoesComp
  intro s t u hs comp done hu srcLen copied fits room
  obtain ⟨nonempty, small, r, w, o, built, rfl⟩ := comp_done hs comp done
  have file := compDone_delivers (s := s.accept) built small w o
  have input : u.input = compressed s.input := by
    have length : u.srcLen.toNat = (compressed s.input).length := srcLen ▸ file.dstLen
    refine List.ext_getElem? fun j => ?_
    by_cases inside : j < u.srcLen.toNat
    · rw [input_getElem? inside, copied j (srcLen ▸ inside)]
      exact (file.bytes j (length ▸ inside)).symm
    · rw [List.getElem?_eq_none (by rw [input_length]; omega), List.getElem?_eq_none (by omega)]
  obtain ⟨v, decomp⟩ := runCommand_next decompBody u
  have ends := decomp_endsAs hu decomp
  rw [input, expandIn_compressed nonempty (by rw [← input, input_length]; exact fits)
    (by rw [input_length]; exact room)] at ends
  have length := ends.dstLen
  rw [input_length] at length
  refine ⟨v, decomp, by rw [ends.status]; rfl, BitVec.eq_of_toNat_eq length, fun j hj => ?_⟩
  exact Option.some.inj ((ends.bytes j (by rw [input_length]; exact hj)).symm.trans (input_getElem? hj))

/-- Settles O42: R164's sum is the number of code bits, of which every input byte has 1 to 255; and a stream bit gives
at most one decoded byte. -/
theorem outputSizes : Obligations.OutputSizes := by
  unfold Obligations.OutputSizes
  refine ⟨fun s t hr h done => ?_, fun s t hr h done => ?_⟩
  · obtain ⟨-, small, r, w, o, built, rfl⟩ := comp_done hr h done
    obtain ⟨-, -, -, dstLen, -⟩ := compDone_delivers (s := s.accept) built small w o
    have size : (fileHdr s.input r).tsize.toNat = r.ser.length := tsize_toNat built
    have encoded := encodedBits_countTable s (codeTable r)
    have stream : (fileStream s.input r).length = _ := length_packBytes (bitsOf (codeTable r) s.input)
    have nonempty := ser_length_pos r
    have short := ser_length_le (builtTree_leaves_nodup built)
    have atLeast := length_le_bitsOf fun b hb => input_coded built (b := b) hb
    have atMost := bitsOf_length_le (codeTable r) s.input
    have length := length_compressed built
    rw [input_length] at atLeast atMost
    simp only [State.finish_hdr, State.finish_freq, State.finish_code, State.compDone, input_accept] at dstLen ⊢
    rw [dstLen, encoded, size]
    omega
  · obtain ⟨hdr, out, ok, delivered⟩ := (decomp_endsAs hr h).ok_of_done done
    obtain ⟨rfl, few⟩ := expandIn_ok ok
    rw [streamIn, List.length_take, streamBits_eq, input_length] at few
    rw [delivered.dstLen, delivered.hdr]
    exact few.trans (Nat.min_le_left _ _)

/-- Settles O43: each operation's end is a function of the input bytes and the capacities. -/
theorem callsAreIndependent : Obligations.CallsAreIndependent := by
  unfold Obligations.CallsAreIndependent
  intro s₁ s₂ t₁ t₂ i hi hr₁ hr₂ params srcLen bytes h₁ h₂
  have input : s₁.input = s₂.input := by
    rw [State.input, State.input, ← srcLen]
    exact List.map_congr_left fun k hk => bytes k (List.mem_range.1 hk)
  rcases hi with rfl | rfl
  · have ends₁ := comp_endsAs hr₁ h₁
    rw [params, input] at ends₁
    exact ends₁.same (comp_endsAs hr₂ h₂)
  · have ends₁ := decomp_endsAs hr₁ h₁
    rw [params, input] at ends₁
    exact ends₁.same (decomp_endsAs hr₂ h₂)

end Sys2Proof.Proofs
end

section
/-! SUPPORT. Errors: an error an instruction ends with is the one its body raised, and what each body can raise
(R232, R236). -/

namespace Sys2Proof.Machine

/-! ## Where an error comes from -/

/-- A body that is made of no other bodies keeps `ERROR` and `ERRCODE`. -/
theorem unitBody_err {i : Instr} (hc : i ≠ .clr) (hcomp : i ≠ .comp) (hdecomp : i ≠ .decomp) {s t : State}
    (h : bodyOf i s = .ok t) : t.status.err = s.status.err := by
  cases i with
  | freq => obtain ⟨-, rfl⟩ := freqBody_ok.1 h; rfl
  | build => obtain ⟨-, e, q, -, rfl⟩ := buildBody_ok.1 h; rfl
  | tser => obtain ⟨-, r, -, -, -, rfl⟩ := tserBody_ok.1 h; rfl
  | tdes => obtain ⟨r, tpos, fs, rfl⟩ := tdesBody_frame h; rfl
  | cgen => obtain ⟨-, -, r, -, rfl⟩ := cgenBody_ok.1 h; rfl
  | padc => obtain ⟨-, -, rfl⟩ := padcBody_ok.1 h; rfl
  | henc => obtain ⟨-, -, -, rfl⟩ := hencBody_ok.1 h; rfl
  | hdec => obtain ⟨-, -, rfl⟩ := hdecBody_ok.1 h; rfl
  | pack => obtain ⟨m, acc, cnt, ipos, opos, -, -, rfl⟩ := packBody_output h; rfl
  | unpk => obtain ⟨m, n, own, cur, opos, spos, bidx, rfl⟩ := unpkBody_frame h; rfl
  | comp => exact absurd rfl hcomp
  | decomp => exact absurd rfl hdecomp
  | clr => exact absurd rfl hc
  | hdr pad tsize => obtain ⟨-, rfl⟩ := hdrItem_ok.1 h; rfl
  | tEsc sym | tLeaf sym => obtain ⟨-, rfl⟩ := leafOf_ok.1 h; rfl
  | tNode => obtain ⟨-, rfl⟩ := nodeToken_ok.1 h; rfl
  | bLeft | bRight => rw [(walkStep_frame h).rest]

theorem compBody_err {s t : State} (h : compBody s = .ok t) : t.status.err = s.status.err := by
  obtain ⟨-, s₁, s₂, s₃, s₄, s₅, s₆, s₇, h₁, h₂, h₃, h₄, h₅, h₆, h₇, rfl⟩ := compBody_ok.1 h
  have unit {i : Instr} {u v : State} (hu : bodyOf i u = .ok v) (hc : i ≠ .clr := by simp)
      (hcomp : i ≠ .comp := by simp) (hdecomp : i ≠ .decomp := by simp) : v.status.err = u.status.err :=
    unitBody_err hc hcomp hdecomp hu
  calc s₇.status.err
    _ = s₆.status.err := unit (i := .pack) h₇
    _ = s₅.status.err := unit (i := .henc) h₆
    _ = s₄.status.err := unit (i := .tser) h₅
    _ = s₃.status.err := unit (i := .padc) h₄
    _ = s₂.status.err := unit (i := .cgen) h₃
    _ = s₁.status.err := unit (i := .build) h₂
    _ = s.status.err := unit (i := .freq) h₁

theorem decompBody_err {s t : State} (h : decompBody s = .ok t) : t.status.err = s.status.err := by
  obtain ⟨s₁, s₂, h₁, h₂, h₃⟩ := decompBody_ok.1 h
  obtain ⟨-, -, rfl⟩ := hdecBody_ok.1 h₁
  obtain ⟨r, tpos, fs, rfl⟩ := tdesBody_frame h₂
  obtain ⟨m, n, own, cur, opos, spos, bidx, rfl⟩ := unpkBody_frame h₃
  rfl

/-- A body that answers a state keeps `ERROR` and `ERRCODE`: only error entry sets them (R236). -/
theorem bodyOf_err {i : Instr} (hc : i ≠ .clr) {s t : State} (h : bodyOf i s = .ok t) :
    t.status.err = s.status.err := by
  by_cases hcomp : i = .comp
  · subst hcomp; exact compBody_err h
  · by_cases hdecomp : i = .decomp
    · subst hdecomp; exact decompBody_err h
    · exact unitBody_err hc hcomp hdecomp h

section

variable {i : Instr} {s t : State} {e : ErrKind} (he : s.status.err = none) (h : exec i s = .next t)
  (ht : t.status.err = some e)
include he h ht

/-- A command that ends with an error was accepted, and its body raised the error. -/
theorem exec_command_raises (hi : isCommand i = true) :
    s.Ready ∧ bodyOf i s.accept = .error e ∧ t = s.accept.raise e := by
  have fresh {u : State} (hu : u.status.err = none) : t ≠ u := fun same => by simp [same, hu] at ht
  by_cases hc : i = .clr
  · subst hc
    rcases execClr_cases h with ⟨-, same⟩ | ⟨-, same⟩
    · exact absurd same (fresh he)
    · exact absurd same (fresh rfl)
  · rw [exec_command hi hc] at h
    rcases runCommand_cases h with ⟨-, same⟩ | ⟨hj, -, ⟨u, hu, same⟩ | ⟨e', raised, rfl⟩⟩
    · exact absurd same (fresh he)
    · exact absurd same (fresh ((bodyOf_err hc hu).trans he))
    · obtain rfl : e' = e := Option.some.inj ht
      exact ⟨⟨hj, he⟩, raised, rfl⟩

/-- Every error an instruction ends with was raised by error entry (R236). -/
theorem exec_raises : ∃ u : State, t = u.raise e := by
  cases hi : isCommand i with
  | true => exact ⟨s.accept, (exec_command_raises he h ht hi).2.2⟩
  | false =>
    rw [exec_item hi] at h
    rcases runItem_cases h with ok | ⟨e', -, rfl⟩
    · have kept := bodyOf_err (fun hc => by simp [hc, isCommand, Instr.format] at hi) ok
      simp [kept, he] at ht
    · obtain rfl : e' = e := Option.some.inj ht
      exact ⟨s, rfl⟩

end

/-! ## What the loops can raise -/

/-- TSER's loop raises what R141 names. -/
theorem writeTree_error {vs : List Byte} {s : State} {e : ErrKind} (h : writeTree vs s = .error e) :
    e = .allocationFailure ∨ e = .unsupportedTreeSize := by
  induction vs generalizing s with
  | nil => cases h
  | cons v vs ih =>
    rw [writeTree] at h
    split at h
    · cases h
      exact .inr rfl
    · rcases res_bind_eq_error.1 h with h | ⟨u, -, h⟩
      · exact .inl (memWrite_error.1 h).2
      · exact ih h

theorem packBits_error {ds : List Bool} {s : State} {e : ErrKind} (h : packBits ds s = .error e) :
    e = .allocationFailure := by
  induction ds generalizing s with
  | nil => cases h
  | cons d ds ih =>
    rcases res_bind_eq_error.1 h with h | ⟨u, -, h⟩
    · exact (packBit_error.1 h).2.2
    · exact ih h

theorem packInput_error {bs : List Byte} {s : State} {e : ErrKind} (h : packInput bs s = .error e) :
    e = .allocationFailure ∨ e = .badSequence := by
  induction bs generalizing s with
  | nil => cases h
  | cons b bs ih =>
    rcases res_bind_eq_error.1 h with h | ⟨u, -, h⟩
    · rw [packByte] at h
      split at h
      · cases h
        exact .inr rfl
      · rcases res_bind_eq_error.1 h with h | ⟨u, -, h⟩
        · exact .inl (packBits_error h)
        · cases h
    · exact ih h

theorem treeToken_error {s : State} {e : ErrKind} (h : treeToken s = .error e) : e = .malformedTree := by
  unfold treeToken at h
  split at h
  · exact (leafOf_error.1 h).2
  · exact (nodeToken_error.1 h).2
  · exact (leafOf_error.1 h).2
  · cases h
    rfl

theorem readTree_error {fuel : Nat} {s : State} {e : ErrKind} (h : readTree fuel s = .error e) :
    e = .malformedTree := by
  induction fuel generalizing s with
  | zero => cases h
  | succ fuel ih =>
    rw [readTree] at h
    split at h
    · cases h
    · rcases res_bind_eq_error.1 h with h | ⟨u, -, h⟩
      · exact treeToken_error h
      · exact ih h

/-- A code bit is stuck, or its symbol has no place (R197, R199). -/
theorem walkStep_error {d : Bool} {s : State} {e : ErrKind} (h : walkStep d s = .error e) :
    e = .allocationFailure ∨ e = .malformedStream := by
  cases ht : s.tree with
  | none =>
    rw [walkStep_none ht] at h
    cases h
    exact .inr rfl
  | some t =>
    cases effect : bitEffect t s.work.cur d with
    | none =>
      rw [walkStep_stuck ht effect] at h
      cases h
      exact .inr rfl
    | some oc =>
      obtain ⟨_ | sym, c⟩ := oc
      · rw [walkStep_move ht effect] at h
        cases h
      · rw [walkStep_emit ht effect] at h
        rcases res_bind_eq_error.1 h with h | ⟨u, -, h⟩
        · exact .inl (emit_error.1 h).2
        · cases h

theorem readStream_error {k : Nat} {s : State} {e : ErrKind} (h : readStream k s = .error e) :
    e = .allocationFailure ∨ e = .malformedStream := by
  induction k generalizing s with
  | zero => cases h
  | succ k ih =>
    rcases res_bind_eq_error.1 h with h | ⟨u, -, h⟩
    · exact walkStep_error h
    · exact ih h

/-! ## What the units can raise -/

theorem tserBody_error {s : State} {e : ErrKind} (h : tserBody s = .error e) :
    e = .badSequence ∨ e = .allocationFailure ∨ e = .unsupportedTreeSize := by
  rcases res_bind_eq_error.1 h with h | ⟨r, -, h⟩
  · exact .inl (requireTree_error.1 h).2
  · rcases res_bind_eq_error.1 h with h | ⟨u, -, h⟩
    · exact .inr (writeTree_error h)
    · cases h

theorem tdesBody_error {s : State} {e : ErrKind} (h : tdesBody s = .error e) :
    treeEntry s = .error e ∨ e = .malformedTree := by
  rcases res_bind_eq_error.1 h with h | ⟨u, -, h⟩
  · exact .inl h
  · rcases res_bind_eq_error.1 h with h | ⟨v, -, h⟩
    · exact .inr (readTree_error h)
    · exact .inr (treeExit_error.1 h).2

theorem packBody_error {s : State} {e : ErrKind} (h : packBody s = .error e) :
    e = .allocationFailure ∨ e = .badSequence := by
  rcases res_bind_eq_error.1 h with h | ⟨-, -, h⟩
  · exact .inr (require_error.1 h).2
  rcases res_bind_eq_error.1 h with h | ⟨-, -, h⟩
  · exact .inl (checkSource_error.1 h).2
  rcases res_bind_eq_error.1 h with h | ⟨u, -, h⟩
  · exact packInput_error h
  rcases res_bind_eq_error.1 h with h | ⟨v, -, h⟩
  · exact .inl (packFlush_error.1 h).2.2
  · cases h

theorem unpkBody_error {s : State} {e : ErrKind} (h : unpkBody s = .error e) :
    streamEntry s = .error e ∨ e = .allocationFailure ∨ e = .malformedStream := by
  rcases res_bind_eq_error.1 h with h | ⟨u, -, h⟩
  · exact .inl h
  · rcases res_bind_eq_error.1 h with h | ⟨v, -, h⟩
    · exact .inr (readStream_error h)
    · exact .inr (.inr (streamExit_error.1 h).2)

/-- R232, the rows of the commands that run one unit. -/
theorem unitBody_raises {i : Instr} (hi : isCommand i = true) (hcomp : i ≠ .comp) (hdecomp : i ≠ .decomp) {s : State}
    {e : ErrKind} (h : bodyOf i s = .error e) : e ∈ canRaise i := by
  cases i with
  | freq =>
    obtain ⟨-, rfl⟩ := freqBody_error.1 h
    decide
  | build => rcases buildBody_error.1 h with ⟨-, rfl⟩ | ⟨-, -, rfl⟩ <;> decide
  | tser => rcases tserBody_error h with rfl | rfl | rfl <;> decide
  | tdes =>
    rcases tdesBody_error h with entry | rfl
    · rcases treeEntry_error.1 entry with ⟨-, rfl⟩ | ⟨-, ⟨-, rfl⟩ | ⟨-, -, rfl⟩⟩ <;> decide
    · decide
  | cgen =>
    obtain ⟨-, rfl⟩ := cgenBody_error.1 h
    decide
  | padc =>
    obtain ⟨-, rfl⟩ := padcBody_error.1 h
    decide
  | henc => rcases hencBody_error.1 h with ⟨-, rfl⟩ | ⟨-, -, -, rfl⟩ <;> decide
  | hdec => rcases hdecBody_error.1 h with ⟨-, rfl⟩ | ⟨-, -, rfl⟩ <;> decide
  | pack => rcases packBody_error h with rfl | rfl <;> decide
  | unpk =>
    rcases unpkBody_error h with entry | rfl | rfl
    · rcases streamEntry_error.1 entry with ⟨-, rfl⟩ | ⟨-, -, -, -, ⟨-, rfl⟩ | ⟨-, -, rfl⟩⟩ <;> decide
    · decide
    · decide
  | comp => exact absurd rfl hcomp
  | decomp => exact absurd rfl hdecomp
  | clr => cases h
  | hdr _ _ | tEsc _ | tNode | tLeaf _ | bLeft | bRight => cases hi

/-! ## What COMP and DECOMP can raise -/

/-- An operation that ends with an error: its function of the input bytes gave that error. -/
theorem EndsAs.error_of_err {s t : State} {flags : Status} {r : Except ErrKind (Hdr × List Byte)} {e : ErrKind}
    (h : EndsAs s t flags r) (noErr : flags.err = none) (ht : t.status.err = some e) : r = .error e := by
  cases r with
  | error e' =>
    obtain rfl : t = s.accept.raise e' := h
    exact congrArg Except.error (Option.some.inj ht)
  | ok d =>
    have status := State.Delivers.status h
    simp [status, noErr] at ht

theorem compressIn_error {p : Params} {bytes : List Byte} {e : ErrKind} (h : compressIn p bytes = .error e) :
    e ∈ canRaise .comp := by
  unfold compressIn at h
  split at h
  · cases h
    decide
  · split at h <;> cases h
    decide

theorem expandIn_error {p : Params} {bytes : List Byte} {e : ErrKind} (h : expandIn p bytes = .error e) :
    e ∈ canRaise .decomp := by
  unfold expandIn at h
  split at h
  · cases h
    decide
  split at h
  · cases h
    decide
  split at h
  · cases h
    decide
  split at h
  · cases h
    decide
  split at h <;> cases h
  decide

end Sys2Proof.Machine

namespace Sys2Proof.Proofs

open Sys2Proof Sys2Proof.Machine

/-- Settles O11: only error entry sets `ERROR`, and every instruction keeps the input and the host's own fields. -/
theorem errorEntryLeaves : Obligations.ErrorEntryLeaves := by
  unfold Obligations.ErrorEntryLeaves
  refine ⟨fun e s => ⟨rfl, rfl, rfl, rfl, fun _ => rfl⟩, fun i s t e he h ht => ?_⟩
  obtain ⟨ibuf, ibufDraw, srcLen, params, script, hostRead⟩ := exec_input h
  obtain ⟨u, rfl⟩ := exec_raises he h ht
  exact ⟨rfl, rfl, rfl, srcLen, ibuf, ibufDraw, params, script, hostRead⟩

/-- Settles O12: the rows of one unit by what its body can raise, COMP's and DECOMP's by what each makes of its input
bytes. -/
theorem commandsRaiseTheirOwnErrors : Obligations.CommandsRaiseTheirOwnErrors := by
  unfold Obligations.CommandsRaiseTheirOwnErrors
  intro i s t e hi he h ht
  obtain ⟨hr, raised, -⟩ := exec_command_raises he h ht hi
  by_cases hcomp : i = .comp
  · subst hcomp
    exact compressIn_error ((comp_endsAs hr h).error_of_err rfl ht)
  · by_cases hdecomp : i = .decomp
    · subst hdecomp
      exact expandIn_error ((decomp_endsAs hr h).error_of_err rfl ht)
    · exact unitBody_raises hi hcomp hdecomp raised

/-- Settles O13: each unit's own statement has its clause for a missing flag, PACK's one for a byte without a code; and
BadSequence stands in the rows of the units that require flags only. -/
theorem missingFlagRaisesBadSequence : Obligations.MissingFlagRaisesBadSequence := by
  unfold Obligations.MissingFlagRaisesBadSequence
  intro s hr
  obtain ⟨-, -, build⟩ := buildMergesTheSeededQueue s hr
  obtain ⟨-, tser⟩ := tserWritesTheSerializedTree s hr
  obtain ⟨tdes, -⟩ := tdesStoresTheDeserializedTree s hr
  obtain ⟨-, cgen⟩ := cgenGivesEachLeafItsPath s hr
  obtain ⟨-, padc⟩ := padcComputesThePadding s hr
  obtain ⟨-, -, henc⟩ := hencStoresTheHeader s hr
  obtain ⟨-, uncoded, -, pack⟩ := packWritesThePackedBits s hr
  obtain ⟨unpk, -⟩ := unpkEmitsTheDecodedBytes s hr
  refine ⟨build, tser, tdes, cgen, padc, henc, pack, unpk, fun before b after hc ht fits input coded noCode room => ?_,
    fun i t hi h bad => ?_⟩
  · exact (uncoded before b after hc ht fits input coded noCode).1 (.inl room)
  · have command : isCommand i = true := by rcases hi with rfl | rfl | rfl | rfl | rfl <;> rfl
    have row := commandsRaiseTheirOwnErrors i s t _ command hr.2 h bad
    rcases hi with rfl | rfl | rfl | rfl | rfl <;> exact absurd row (by decide)

/-- Settles O14: each unit's own statement has its clause for a source that is too long. -/
theorem sourceTooLongRaisesAllocationFailure : Obligations.SourceTooLongRaisesAllocationFailure := by
  unfold Obligations.SourceTooLongRaisesAllocationFailure
  intro s hr long
  have tooLong : ¬ s.SourceFits := Nat.not_le.2 long
  have nonempty : s.srcLen ≠ 0#32 := fun empty => by simp [empty] at long
  have number := headerOf_toNat (s.ibufByte 0) (s.ibufByte 1)
  refine ⟨(freqCountsTheInput s hr).2 tooLong, (hdecTakesTheHeader s _ _ hr number).1 tooLong,
    (compProducesTheFile s hr).2.1 nonempty tooLong, (decompExpandsTheFile s _ _ _ hr number rfl).1 tooLong,
    fun tszV => (tdesStoresTheDeserializedTree s hr).2.1 tszV tooLong,
    fun codeV tszV => (packWritesThePackedBits s hr).2.2.1 codeV tszV tooLong, fun treeV padV tszV held => ?_⟩
  obtain ⟨t, ht⟩ := Option.isSome_iff_exists.1 held
  exact ((unpkEmitsTheDecodedBytes s hr).2 t treeV padV tszV ht).1 tooLong

end Sys2Proof.Proofs
end

section
/-! SUPPORT. A write to `CMD`: the codes of the thirteen commands, and the writes that are ignored while `ERROR` is 1
(R233, R237). -/

namespace Sys2Proof.Machine

/-- A code that `CMD` decodes is the encoding of its command (R91). -/
theorem encode_of_decode_cmd {op : Byte} {r : List Byte} {i : Instr} (h : decode .cmd8 [op] = .ok (i, r)) :
    encode i = [op] :=
  (decodeCmd_ok (decodeByte_ok h).1).2.2

/-- The thirteen codes of R91. -/
theorem commandCode_mem {i : Instr} {op : Byte} (hi : isCommand i = true) (h : encode i = [op]) : op.toNat ∈
    [0x01, 0x02, 0x03, 0x04, 0x05, 0x06, 0x07, 0x08, 0x09, 0x0A, 0x10, 0x11, 0x1F] := by
  cases i with
  | freq | build | tser | tdes | cgen | padc | henc | hdec | pack | unpk | comp | decomp | clr =>
    cases h
    decide
  | hdr _ _ | tEsc _ | tNode | tLeaf _ | bLeft | bRight => cases hi

/-- A command other than CLR is ignored while `ERROR` = 1 (R237). -/
theorem exec_of_err {i : Instr} {s : State} (he : s.status.err.isSome = true) (hi : isCommand i = true)
    (hc : i ≠ .clr) : exec i s = .next s := by
  rw [exec_command hi hc, runCommand_err he]

/-- A write to `CMD` that is not CLR's code is ignored while `ERROR` = 1, the reserved codes too (R237, R239). -/
theorem writeCmd_of_err {v : Word} {s : State} (he : s.status.err.isSome = true) (hv : v.setWidth 8 ≠ 0x1F#8) :
    writeCmd v s = .next s := by
  cases hd : decode .cmd8 [v.setWidth 8] with
  | ok ir =>
    obtain ⟨i, r⟩ := ir
    have hc : i ≠ .clr := by
      rintro rfl
      exact hv (List.singleton_inj.1 (encode_of_decode_cmd hd)).symm
    simp only [writeCmd, hd]
    exact exec_of_err he (isCommand_of_decode hd) hc
  | error e => simp [writeCmd, hd, illegalCommand, he]

end Sys2Proof.Machine

namespace Sys2Proof.Proofs

open Sys2Proof Sys2Proof.Machine

/-- Settles O7: what `CMD` decodes is one of the thirteen codes, so a reserved one reaches IllegalCommand. -/
theorem reservedCodeRaisesIllegalCommand : Obligations.ReservedCodeRaisesIllegalCommand := by
  unfold Obligations.ReservedCodeRaisesIllegalCommand
  intro s v rest ⟨hj, he⟩ hs reserved
  rw [step_of_idle hj hs]
  show writeCmd v { s with script := rest } = _
  cases hd : decode .cmd8 [v.setWidth 8] with
  | ok ir =>
    have code := commandCode_mem (isCommand_of_decode hd) (encode_of_decode_cmd hd)
    rw [BitVec.toNat_setWidth] at code
    exact absurd code reserved
  | error e => simp [writeCmd, hd, illegalCommand, State.busy, hj, he]

/-- Settles O8: the frame of every command but CLR and the reserved codes test `ERROR` first. -/
theorem errorIgnoresCommands : Obligations.ErrorIgnoresCommands := by
  unfold Obligations.ErrorIgnoresCommands
  refine fun s hj he => ⟨fun i hi hc => exec_of_err he hi hc, fun v rest hs hv => ?_, if_neg (by simp [hj])⟩
  rw [step_of_idle hj hs]
  exact writeCmd_of_err he hv

end Sys2Proof.Proofs
end

section
/-! SUPPORT. `BUSY` falls from every position of an operation, also from one that no operation reaches: the tree tokens
take declared bytes, and the code bits move the cursor towards the end of the input (R266). -/

namespace Sys2Proof.Machine

/-- Some number of steps leads from `s` to an idle engine. -/
def Falls (s : State) : Prop := ∃ t, Reaches s t ∧ t.job = .idle

theorem Falls.of_idle {s : State} (h : s.job = .idle) : Falls s := ⟨s, .refl s, h⟩

theorem Falls.item {s u : State} {j : Job} (hs : s.script = []) (hj : j ≠ .idle)
    (h : engineStep (s.atJob j) = .next u) (k : Falls u) : Falls (s.atJob j) := by
  obtain ⟨t, reaches, idle⟩ := k
  exact ⟨t, .item hs hj h reaches, idle⟩

/-- The end of an operation is idle. -/
theorem Falls.of_reaches_endWith {s s₀ : State} {r : Res} (h : Reaches s (endWith s₀ r)) : Falls s :=
  ⟨_, h, by cases r <;> rfl⟩

/-- Error entry is idle, so `BUSY` falls where it falls from the next position. -/
theorem goOn_falls {s : State} {next : State → State} {r : Res} (h : ∀ t, r = .ok t → Falls (next t)) :
    Falls (goOn s next r) := by
  cases r with
  | ok t => exact h t rfl
  | error e => exact .of_idle rfl

/-! ## The stream -/

/-- The bits of IBUF before the walker's cursor, wherever that stands (R22). -/
def State.bitsBefore (s : State) : Nat := 8 * s.work.spos.toNat + s.work.bidx.toNat

/-- While bits are left the cursor stands inside the input (R195, R196). -/
theorem spos_lt_srcLen {s : State} (h : s.streamPos < s.streamLen) : s.work.spos.toNat < s.srcLen.toNat := by
  have bound := streamLen_le s
  unfold State.streamPos at h
  omega

/-- Inside the input a code bit moves the cursor on by one bit (R22). -/
theorem walkStep_bitsBefore {d : Bool} {s t : State} (h : walkStep d s = .ok t)
    (inside : s.work.spos.toNat < s.srcLen.toNat) : t.bitsBefore = s.bitsBefore + 1 := by
  obtain ⟨hspos, hbidx⟩ := walkStep_cursor h
  rw [State.bitsBefore, State.bitsBefore, hspos, hbidx]
  by_cases last : s.work.bidx = 7#3
  · have full : (7#3).toNat = 7 := rfl
    have empty : (7#3 + 1#3).toNat = 0 := rfl
    simp only [advanceBit, last, if_true, opos_step inside, full, empty]
    omega
  · have next : (s.work.bidx + 1#3).toNat = s.work.bidx.toNat + 1 := by bv_omega
    simp only [advanceBit, last, if_false, next]
    omega

theorem settleStream_falls_of_ended (whole : Bool) {s : State} (h : ¬ s.streamPos < s.streamLen) :
    Falls (settleStream whole s) := by
  rw [settleStream, if_neg h]
  exact goOn_falls fun t _ => .of_idle rfl

/-- The stream is at its end, or it goes on inside the input: by induction on the bits of IBUF behind the cursor. -/
theorem settleStream_falls (whole : Bool) (n : Nat) {s : State} (hs : s.script = [])
    (hn : 8 * s.srcLen.toNat ≤ s.bitsBefore + n) : Falls (settleStream whole s) := by
  induction n generalizing s with
  | zero =>
    refine settleStream_falls_of_ended whole fun left => ?_
    have inside := spos_lt_srcLen left
    unfold State.bitsBefore at hn
    omega
  | succ n ih =>
    by_cases left : s.streamPos < s.streamLen
    · rw [settleStream_of_left left]
      refine .item hs (by simp) (engineStep_stream whole s) (goOn_falls fun t ht => ih ?_ ?_)
      · rw [(walkStep_frame ht).rest]
        exact hs
      · have cursor := walkStep_bitsBefore ht (spos_lt_srcLen left)
        have srcLen : t.srcLen = s.srcLen := by rw [(walkStep_frame ht).rest]
        rw [srcLen]
        omega
    · exact settleStream_falls_of_ended whole left

/-- The first bit is read wherever the cursor stands; after it the walk goes on inside the input only. -/
theorem streamPosition_falls (whole : Bool) {s : State} (hs : s.script = []) : Falls (s.atJob (.stream whole)) := by
  refine .item hs (by simp) (engineStep_stream whole s) (goOn_falls fun t ht => ?_)
  refine settleStream_falls whole (8 * t.srcLen.toNat) ?_ (Nat.le_add_left _ _)
  rw [(walkStep_frame ht).rest]
  exact hs

/-! ## The tree and the header -/

/-- Where a subtree is expected the items run TDES to its end; where none is, no token is read (R148). -/
theorem treePosition_falls (whole : Bool) {s : State} (hs : s.script = []) : Falls (s.atJob (.tree whole)) := by
  by_cases expected : s.work.tstack = []
  · refine .item hs (by simp) (engineStep_tree whole s) (goOn_falls fun t ht => ?_)
    exact absurd expected (treeToken_expected ht)
  · exact .of_reaches_endWith
      (treePosition_reaches whole (s₀ := s) s.hdr.tsize.toNat ⟨hs, fun _ => rfl⟩ expected (Nat.le_add_left _ _))

theorem headerPosition_falls (whole : Bool) {s : State} (hs : s.script = []) : Falls (s.atJob (.header whole)) := by
  refine .item hs (by simp) (engineStep_header whole s) (goOn_falls fun t ht => ?_)
  rw [headerWord_eq] at ht
  obtain ⟨-, rfl⟩ := hdrItem_ok.1 ht
  exact .of_reaches_endWith (settleHeader_reaches whole ⟨hs, fun _ => rfl⟩)

end Sys2Proof.Machine

namespace Sys2Proof.Proofs

open Sys2Proof.Machine

/-- Settles O55, position by position: the bits of IBUF behind the cursor bound the stream, the declared bytes the
tree. -/
theorem busyAlwaysFalls : Obligations.BusyAlwaysFalls := by
  unfold Obligations.BusyAlwaysFalls
  intro s hs
  have falls : Falls s := by
    rcases hj : s.job with _ | whole | whole | whole
    · exact .of_idle hj
    · exact State.atJob_self hj ▸ headerPosition_falls whole hs
    · exact State.atJob_self hj ▸ treePosition_falls whole hs
    · exact State.atJob_self hj ▸ streamPosition_falls whole hs
  obtain ⟨t, ⟨n, run⟩, idle⟩ := falls
  exact ⟨n, t, run, idle⟩

end Sys2Proof.Proofs
end
